-- ==== Sys2Proof/Word.lean ====
section
/-! DEFINITION. The word types of the host port and the engine (00_scope R8, 20_memory R60). -/

namespace Sys2Proof

/-- A byte, and a codeword or field element (00_scope R8). -/
abbrev Byte := BitVec 8

/-- A register or command word (10_state R22, 30_encoding R80). -/
abbrev Word := BitVec 32

/-- A byte address of the host port (20_memory R60). -/
abbrev Addr := BitVec 16

/-- A byte from a natural number, modulo 256. -/
abbrev byte (n : Nat) : Byte := BitVec.ofNat 8 n

end Sys2Proof
end

