-- ==== Sys2Proof/Config.lean ====
section
/-! DEFINITION. What the spec leaves open, as constants without a body: no proof can see their values.
The spec's own constants (00_scope R7) stand in Machine/QrTables.lean. -/

namespace Sys2Proof

/-- Free bytes, the spec's unconstrained draws (93_implementation_defined U5, U7, U9), one for each value of
the counter `State.draws`. -/
opaque Config.freeByte : Nat → Byte

/-- Free numbers: how many host events come between a command's acceptance and its engine step
(70_reset R312: finite but unspecified). -/
opaque Config.engineLatency : Nat → Nat

/-- What an EXP entry that holds no value would read as (10_state R40). The checks of rule R262 exclude such a read. -/
opaque Config.unwrittenExp : Nat → Byte

/-- What a LOG entry that holds no value would read as (10_state R41). No command reads one. -/
opaque Config.unwrittenLog : Nat → Byte

/-- What a GEN entry that holds no value would read as: degree, then index (10_state R42). No command reads one. -/
opaque Config.unwrittenGen : Nat → Nat → Byte

/-- `QRCORE_BASE`: where the block's port appears in a system's address space (20_memory R69, 92 D4). -/
opaque Config.qrcoreBase : Nat

/-- The system address of a port offset (10_state R22, 92_eei_decisions section 1). -/
def Config.systemAddress (offset : Addr) : Nat := Config.qrcoreBase + offset.toNat

end Sys2Proof
end

