-- ==== Sys2Proof/Machine/State.lean ====
section
/-! DEFINITION. The state of QRCORE (10_state), the reasons a step can stop, and the state after reset (R47). -/

namespace Sys2Proof.Machine

/-- The error codes of 60_exceptions R261. Codes 8–15 are never written, so they have no name. -/
inductive ErrCode where
  | none
  /-- Reserved: never raised (R261). -/
  | capacityOverflow
  | lengthMismatch
  | unsupportedDegree
  | outOfBounds
  | uninitializedTables
  | logOfZero
  | illegalCommand
deriving DecidableEq, Repr

/-- The fields of STATUS (10_state R24). Its reserved bits read 0 and take no write, so they need no storage. -/
structure Status where
  busy : Bool
  done : Bool
  err : Bool
  gfValid : Bool
  genValid : Bool
  cmdOvr : Bool
  errCode : ErrCode
  lastOp : Byte
deriving DecidableEq, Repr

/-- Bytes by address or index, in canonical form: keys strictly rising. A key that is not listed holds no value
(20_memory R70, 10_state R40, R41, R43, R47). -/
abbrev Memory := List Host.Cell

/-- The EXP and LOG tables (10_state R40, R41), as partial maps. -/
structure GfTables where
  exp : Memory
  log : Memory
deriving DecidableEq, Repr

/-- The GEN table (10_state R42): the rows that hold values, by degree, each with its entries `GEN[d][0..d]`. -/
abbrev GenTable := List (Nat × List Byte)

/-- The size of a host access (20_memory R60). -/
inductive AccessSize where
  | one
  | two
  | four
deriving DecidableEq, Repr

/-- What can arrive from outside: a port access (20_memory R60), one line of a host's wait loop (30_encoding R87),
or the level of the `rst` input (70_reset R300). -/
inductive HostEvent where
  /-- `MemRead(addr, n)` -/
  | read (addr : Addr) (size : AccessSize)
  /-- `MemWrite(addr, n, value)`; only the low n bytes of the value matter. -/
  | write (addr : Addr) (size : AccessSize) (value : Word)
  /-- `loop: rd32 STATUS; repeat while bit 0 (BUSY) = 1` -/
  | wait
  /-- The `rst` input takes this level. -/
  | setRst (level : Bool)
deriving DecidableEq, Repr

/-- The state of QRCORE (10_state R20) and, last, the model's own fields (INVENTORY.md). -/
structure State where
  /-- CMD (10_state R23) -/
  cmd : Word
  /-- STATUS (10_state R24) -/
  status : Status
  /-- RESULT.VALUE (10_state R25) -/
  result : Byte
  /-- CTRL.IRQ_EN (10_state R26) -/
  irqEn : Bool
  /-- DATA_LEN.LEN (10_state R27) -/
  dataLen : BitVec 12
  /-- STREAM_LEN.LEN (10_state R28) -/
  streamLen : BitVec 12
  /-- OUT_LEN.LEN (10_state R29) -/
  outLen : BitVec 16
  /-- GRID_SIDE.SIDE (10_state R30) -/
  gridSide : Byte
  /-- The six buffers, by port address (20_memory R61) -/
  mem : Memory
  /-- EXP and LOG (10_state R40, R41) -/
  gf : GfTables
  /-- GEN (10_state R42) -/
  gen : GenTable
  /-- WORK, by index (10_state R43) -/
  work : Memory
  /-- PEND (10_state R45) -/
  pend : Word
  /-- The level of the `rst` input (20_memory R60, 70_reset R300) -/
  rst : Bool
  /-- Model: the host events still to come, the next one first (log 1) -/
  inputs : List HostEvent
  /-- Model: host events still to come before the engine step (70_reset R312, log 2) -/
  engineDelay : Nat
  /-- Model: how many free values have been drawn (log 4) -/
  draws : Nat
  /-- Model: what the last host read returned (log 16) -/
  lastRead : Word
deriving DecidableEq, Repr

/-- The faults of the model, the two host-contract violations of 60_exceptions R268. Both are safe: hardware raises
no code for either and goes on with unspecified results, where the model stops. -/
inductive Fault where
  /-- The engine consumes a buffer byte that holds no value: POLY_DIV, ECC_ENCODE, INTERLEAVE, BUILD_MATRIX
  (20_memory R70). Safe. -/
  | unwrittenOperand
  /-- The host writes DATA_LEN, STREAM_LEN or a buffer byte while BUSY = 1 (20_memory R73). Safe. -/
  | hostWriteWhileBusy
deriving DecidableEq, Repr

/-- The refusals of the model. -/
inductive Refusal where
  /-- An instruction without a meaning, raised by an arm of `exec` only. Safe. No arm raises it now. -/
  | notModelled (mnemonic : String)
deriving DecidableEq, Repr

/-- STATUS after reset (10_state R24, R47). -/
def Status.reset : Status where
  busy := false
  done := false
  err := false
  gfValid := false
  genValid := false
  cmdOvr := false
  errCode := .none
  lastOp := 0

/-- The state right after reset (10_state R47, 70_reset R300): registers 0, tables and buffers without values,
`rst` released. The model's own fields are empty or 0 (DESIGN CHOICE, log 1, 2, 4, 14, 16). -/
def State.reset : State where
  cmd := 0
  status := Status.reset
  result := 0
  irqEn := false
  dataLen := 0
  streamLen := 0
  outLen := 0
  gridSide := 0
  mem := []
  gf := ⟨[], []⟩
  gen := []
  work := []
  pend := 0
  rst := false
  inputs := []
  engineDelay := 0
  draws := 0
  lastRead := 0

end Sys2Proof.Machine
end

