-- ==== Sys2Proof/Machine/AddressMap.lean ====
section
/-! DEFINITION. The address map of the host port (10_state R22, 20_memory R61). -/

namespace Sys2Proof.Machine

/-- The host-visible registers (10_state R22). -/
inductive Register where
  | cmd
  | status
  | result
  | ctrl
  | dataLen
  | streamLen
  | outLen
  | gridSide
deriving DecidableEq, Repr

/-- The byte offset of a register (10_state R22). -/
def Register.offset : Register → Nat
  | .cmd => 0x000
  | .status => 0x004
  | .result => 0x008
  | .ctrl => 0x00C
  | .dataLen => 0x010
  | .streamLen => 0x014
  | .outLen => 0x018
  | .gridSide => 0x01C

/-- The register at an offset, if one starts there (10_state R22). -/
def registerAt : Nat → Option Register
  | 0x000 => some .cmd
  | 0x004 => some .status
  | 0x008 => some .result
  | 0x00C => some .ctrl
  | 0x010 => some .dataLen
  | 0x014 => some .streamLen
  | 0x018 => some .outLen
  | 0x01C => some .gridSide
  | _ => none

/-- The six buffers (20_memory R61). -/
inductive Buffer where
  | bufA
  | bufB
  | bufOut
  | data
  | stream
  | grid
deriving DecidableEq, Repr

/-- The port address of a buffer's byte 0 (20_memory R61). -/
def Buffer.base : Buffer → Nat
  | .bufA => 0x0100
  | .bufB => 0x0200
  | .bufOut => 0x0300
  | .data => 0x1000
  | .stream => 0x2000
  | .grid => 0x4000

/-- The size of a buffer in bytes (20_memory R61). -/
def Buffer.size : Buffer → Nat
  | .bufA => 256
  | .bufB => 256
  | .bufOut => 256
  | .data => 4096
  | .stream => 4096
  | .grid => 177 * 177

/-- The address is a byte of this buffer (20_memory R61). -/
abbrev Buffer.holds (b : Buffer) (addr : Nat) : Prop := b.base ≤ addr ∧ addr < b.base + b.size

/-- The address is a byte of some buffer; every other address from 0x0020 on is reserved (20_memory R61). -/
abbrev isBufferByte (addr : Nat) : Prop :=
  Buffer.bufA.holds addr ∨ Buffer.bufB.holds addr ∨ Buffer.bufOut.holds addr ∨ Buffer.data.holds addr
    ∨ Buffer.stream.holds addr ∨ Buffer.grid.holds addr

/-- The address lies in the register range 0x0000–0x001F (20_memory R61). -/
abbrev isRegisterByte (addr : Nat) : Prop := addr < 0x20

end Sys2Proof.Machine
end

