-- ==== Sys2Proof/Machine/Flags.lean ====
section
/-! DEFINITION. STATUS: its word, its error codes, its updates, and the interrupt output (10_state R23, R24, R32;
60_exceptions R261, R262, R270, R275). -/

namespace Sys2Proof.Machine

/-- The number of an error code (60_exceptions R261). -/
def ErrCode.code : ErrCode → Nat
  | .none => 0
  | .capacityOverflow => 1
  | .lengthMismatch => 2
  | .unsupportedDegree => 3
  | .outOfBounds => 4
  | .uninitializedTables => 5
  | .logOfZero => 6
  | .illegalCommand => 7

/-- STATUS as the host reads it (10_state R24): reserved bits read 0. -/
def Status.toWord (st : Status) : Word :=
  BitVec.ofNat 32 (st.busy.toNat + st.done.toNat * 2 ^ 1 + st.err.toNat * 2 ^ 2 + st.gfValid.toNat * 2 ^ 3
    + st.genValid.toNat * 2 ^ 4 + st.cmdOvr.toNat * 2 ^ 5 + st.errCode.code * 2 ^ 8 + st.lastOp.toNat * 2 ^ 16)

/-- STATUS when a command word is accepted (10_state R23). -/
def Status.accept (w : Word) (st : Status) : Status :=
  { st with busy := true, done := false, err := false, cmdOvr := false, errCode := .none, lastOp := w.extractLsb' 0 8 }

/-- STATUS after a host write: 1 in bit 1, 2 or 5 clears DONE, ERR or CMD_OVR (10_state R24). -/
def Status.clear (w : Word) (st : Status) : Status :=
  { st with done := st.done && !w.getLsbD 1, err := st.err && !w.getLsbD 2, cmdOvr := st.cmdOvr && !w.getLsbD 5 }

/-- STATUS after a dropped command (60_exceptions R270). -/
def Status.overrun (st : Status) : Status := { st with cmdOvr := true }

/-- STATUS at a successful completion (60_exceptions R262). -/
def Status.succeed (st : Status) : Status :=
  { st with busy := false, done := true, err := false, errCode := .none }

/-- STATUS at an error completion (60_exceptions R262). -/
def Status.fail (code : ErrCode) (st : Status) : Status :=
  { st with busy := false, done := false, err := true, errCode := code }

/-- The interrupt output `irq` (60_exceptions R275). -/
def State.irq (s : State) : Bool := s.irqEn && (s.status.done || s.status.err)

end Sys2Proof.Machine
end

