-- ==== Sys2Proof/Syntax.lean ====
section
/-! DEFINITION. The commands of 30_encoding R83 and R86, one constructor for each row of the opcode table.
Operands are natural numbers, as an assembler line writes them; WellFormed.lean says which fit their fields (R86). -/

namespace Sys2Proof

/-- The error-correction level (30_encoding R82: 0 = LOW, 1 = MEDIUM, 2 = QUARTILE, 3 = HIGH). -/
inductive Level where
  | low
  | medium
  | quartile
  | high
deriving DecidableEq, Repr

/-- The two-bit LEVEL field's value (30_encoding R82). -/
def Level.code : Level → Nat
  | .low => 0
  | .medium => 1
  | .quartile => 2
  | .high => 3

/-- The eleven commands (30_encoding R83). -/
inductive Instr where
  /-- `GF_INIT` (R101) -/
  | gfInit
  /-- `GEN_INIT` (R121) -/
  | genInit
  /-- `INIT_TABLES` (R124) -/
  | initTables
  /-- `GF_MUL a, b` (R104) -/
  | gfMul (a b : Nat)
  /-- `GF_EXP e` (R105) -/
  | gfExp (e : Nat)
  /-- `GF_LOG v` (R106) -/
  | gfLog (v : Nat)
  /-- `GEN_GET d` (R122) -/
  | genGet (d : Nat)
  /-- `POLY_DIV a_deg, b_deg, a_shift` (R146) -/
  | polyDiv (aDeg bDeg aShift : Nat)
  /-- `ECC_ENCODE msg_len, ecc_count` (R150) -/
  | eccEncode (msgLen eccCount : Nat)
  /-- `INTERLEAVE version, level` (R173) -/
  | interleave (version : Nat) (level : Level)
  /-- `BUILD_MATRIX version, level, mask` (R201) -/
  | buildMatrix (version : Nat) (level : Level) (mask : Nat)
deriving DecidableEq, Repr

/-- The mnemonic of 30_encoding R83. -/
def Instr.mnemonic : Instr → String
  | .gfInit => "GF_INIT"
  | .genInit => "GEN_INIT"
  | .initTables => "INIT_TABLES"
  | .gfMul _ _ => "GF_MUL"
  | .gfExp _ => "GF_EXP"
  | .gfLog _ => "GF_LOG"
  | .genGet _ => "GEN_GET"
  | .polyDiv _ _ _ => "POLY_DIV"
  | .eccEncode _ _ => "ECC_ENCODE"
  | .interleave _ _ => "INTERLEAVE"
  | .buildMatrix _ _ _ => "BUILD_MATRIX"

end Sys2Proof
end

