-- ==== Sys2Proof/Machine/QrTables.lean ====
section
/-! DEFINITION. The parameters and constant tables of 00_scope R7, at the values the spec fixes (log 12). -/

namespace Sys2Proof.Machine

/-- `NVER`, the highest version (00_scope R7). -/
def maxVersion : Nat := 40

/-- `MAXDEG`, the highest generator degree (00_scope R7). -/
def maxDegree : Nat := 68

/-- `WORK_MAX`, the size of the working buffer (00_scope R7). -/
def workMax : Nat := 191

/-- `SIDE(v)` (00_scope R7). -/
def sideOf (v : Nat) : Nat := 4 * v + 17

/-- The block geometry of one version and level (43_interleaver R170). -/
structure BlockSpec where
  ecc : Nat
  g1b : Nat
  g1w : Nat
  g2b : Nat
  g2w : Nat
deriving DecidableEq, Repr

/-- The number of blocks, nb (43_interleaver R173). -/
def BlockSpec.blocks (b : BlockSpec) : Nat := b.g1b + b.g2b

/-- The capacity in data codewords (43_interleaver R170). -/
def BlockSpec.capacity (b : BlockSpec) : Nat := b.g1b * b.g1w + b.g2b * b.g2w

/-- The row of a version: its block geometry at levels L, M, Q, H. -/
structure BlockRow where
  low : BlockSpec
  medium : BlockSpec
  quartile : BlockSpec
  high : BlockSpec
deriving DecidableEq, Repr

/-- 43_interleaver R171, versions 1..10: ecc, g1b, g1w, g2b, g2w. -/
def blockRows1 : List BlockRow := [
  ⟨⟨7, 1, 19, 0, 0⟩, ⟨10, 1, 16, 0, 0⟩, ⟨13, 1, 13, 0, 0⟩, ⟨17, 1, 9, 0, 0⟩⟩,
  ⟨⟨10, 1, 34, 0, 0⟩, ⟨16, 1, 28, 0, 0⟩, ⟨22, 1, 22, 0, 0⟩, ⟨28, 1, 16, 0, 0⟩⟩,
  ⟨⟨15, 1, 55, 0, 0⟩, ⟨26, 1, 44, 0, 0⟩, ⟨18, 2, 17, 0, 0⟩, ⟨22, 2, 13, 0, 0⟩⟩,
  ⟨⟨20, 1, 80, 0, 0⟩, ⟨18, 2, 32, 0, 0⟩, ⟨26, 2, 24, 0, 0⟩, ⟨16, 4, 9, 0, 0⟩⟩,
  ⟨⟨26, 1, 108, 0, 0⟩, ⟨24, 2, 43, 0, 0⟩, ⟨18, 2, 15, 2, 16⟩, ⟨22, 2, 11, 2, 12⟩⟩,
  ⟨⟨18, 2, 68, 0, 0⟩, ⟨16, 4, 27, 0, 0⟩, ⟨24, 4, 19, 0, 0⟩, ⟨28, 4, 15, 0, 0⟩⟩,
  ⟨⟨20, 2, 78, 0, 0⟩, ⟨18, 4, 31, 0, 0⟩, ⟨18, 2, 14, 4, 15⟩, ⟨26, 4, 13, 1, 14⟩⟩,
  ⟨⟨24, 2, 97, 0, 0⟩, ⟨22, 2, 38, 2, 39⟩, ⟨22, 4, 18, 2, 19⟩, ⟨26, 4, 14, 2, 15⟩⟩,
  ⟨⟨30, 2, 116, 0, 0⟩, ⟨22, 3, 36, 2, 37⟩, ⟨20, 4, 16, 4, 17⟩, ⟨24, 4, 12, 4, 13⟩⟩,
  ⟨⟨18, 2, 68, 2, 69⟩, ⟨26, 4, 43, 1, 44⟩, ⟨24, 6, 19, 2, 20⟩, ⟨28, 6, 15, 2, 16⟩⟩]

/-- 43_interleaver R171, versions 11..20: ecc, g1b, g1w, g2b, g2w. -/
def blockRows11 : List BlockRow := [
  ⟨⟨20, 4, 81, 0, 0⟩, ⟨30, 1, 50, 4, 51⟩, ⟨28, 4, 22, 4, 23⟩, ⟨24, 3, 12, 8, 13⟩⟩,
  ⟨⟨24, 2, 92, 2, 93⟩, ⟨22, 6, 36, 2, 37⟩, ⟨26, 4, 20, 6, 21⟩, ⟨28, 7, 14, 4, 15⟩⟩,
  ⟨⟨26, 4, 107, 0, 0⟩, ⟨22, 8, 37, 1, 38⟩, ⟨24, 8, 20, 4, 21⟩, ⟨22, 12, 11, 4, 12⟩⟩,
  ⟨⟨30, 3, 115, 1, 116⟩, ⟨24, 4, 40, 5, 41⟩, ⟨20, 11, 16, 5, 17⟩, ⟨24, 11, 12, 5, 13⟩⟩,
  ⟨⟨22, 5, 87, 1, 88⟩, ⟨24, 5, 41, 5, 42⟩, ⟨30, 5, 24, 7, 25⟩, ⟨24, 11, 12, 7, 13⟩⟩,
  ⟨⟨24, 5, 98, 1, 99⟩, ⟨28, 7, 45, 3, 46⟩, ⟨24, 15, 19, 2, 20⟩, ⟨30, 3, 15, 13, 16⟩⟩,
  ⟨⟨28, 1, 107, 5, 108⟩, ⟨28, 10, 46, 1, 47⟩, ⟨28, 1, 22, 15, 23⟩, ⟨28, 2, 14, 17, 15⟩⟩,
  ⟨⟨30, 5, 120, 1, 121⟩, ⟨26, 9, 43, 4, 44⟩, ⟨28, 17, 22, 1, 23⟩, ⟨28, 2, 14, 19, 15⟩⟩,
  ⟨⟨28, 3, 113, 4, 114⟩, ⟨26, 3, 44, 11, 45⟩, ⟨26, 17, 21, 4, 22⟩, ⟨26, 9, 13, 16, 14⟩⟩,
  ⟨⟨28, 3, 107, 5, 108⟩, ⟨26, 3, 41, 13, 42⟩, ⟨30, 15, 24, 5, 25⟩, ⟨28, 15, 15, 10, 16⟩⟩]

/-- 43_interleaver R171, versions 21..30: ecc, g1b, g1w, g2b, g2w. -/
def blockRows21 : List BlockRow := [
  ⟨⟨28, 4, 116, 4, 117⟩, ⟨26, 17, 42, 0, 0⟩, ⟨28, 17, 22, 6, 23⟩, ⟨30, 19, 16, 6, 17⟩⟩,
  ⟨⟨28, 2, 111, 7, 112⟩, ⟨28, 17, 46, 0, 0⟩, ⟨30, 7, 24, 16, 25⟩, ⟨24, 34, 13, 0, 0⟩⟩,
  ⟨⟨30, 4, 121, 5, 122⟩, ⟨28, 4, 47, 14, 48⟩, ⟨30, 11, 24, 14, 25⟩, ⟨30, 16, 15, 14, 16⟩⟩,
  ⟨⟨30, 6, 117, 4, 118⟩, ⟨28, 6, 45, 14, 46⟩, ⟨30, 11, 24, 16, 25⟩, ⟨30, 30, 16, 2, 17⟩⟩,
  ⟨⟨26, 8, 106, 4, 107⟩, ⟨28, 8, 47, 13, 48⟩, ⟨30, 7, 24, 22, 25⟩, ⟨30, 22, 15, 13, 16⟩⟩,
  ⟨⟨28, 10, 114, 2, 115⟩, ⟨28, 19, 46, 4, 47⟩, ⟨28, 28, 22, 6, 23⟩, ⟨30, 33, 16, 4, 17⟩⟩,
  ⟨⟨30, 8, 122, 4, 123⟩, ⟨28, 22, 45, 3, 46⟩, ⟨30, 8, 23, 26, 24⟩, ⟨30, 12, 15, 28, 16⟩⟩,
  ⟨⟨30, 3, 117, 10, 118⟩, ⟨28, 3, 45, 23, 46⟩, ⟨30, 4, 24, 31, 25⟩, ⟨30, 11, 15, 31, 16⟩⟩,
  ⟨⟨30, 7, 116, 7, 117⟩, ⟨28, 21, 45, 7, 46⟩, ⟨30, 1, 23, 37, 24⟩, ⟨30, 19, 15, 26, 16⟩⟩,
  ⟨⟨30, 5, 115, 10, 116⟩, ⟨28, 19, 47, 10, 48⟩, ⟨30, 15, 24, 25, 25⟩, ⟨30, 23, 15, 25, 16⟩⟩]

/-- 43_interleaver R171, versions 31..40: ecc, g1b, g1w, g2b, g2w. -/
def blockRows31 : List BlockRow := [
  ⟨⟨30, 13, 115, 3, 116⟩, ⟨28, 2, 46, 29, 47⟩, ⟨30, 42, 24, 1, 25⟩, ⟨30, 23, 15, 28, 16⟩⟩,
  ⟨⟨30, 17, 115, 0, 0⟩, ⟨28, 10, 46, 23, 47⟩, ⟨30, 10, 24, 35, 25⟩, ⟨30, 19, 15, 35, 16⟩⟩,
  ⟨⟨30, 17, 115, 1, 116⟩, ⟨28, 14, 46, 21, 47⟩, ⟨30, 29, 24, 19, 25⟩, ⟨30, 11, 15, 46, 16⟩⟩,
  ⟨⟨30, 13, 115, 6, 116⟩, ⟨28, 14, 46, 23, 47⟩, ⟨30, 44, 24, 7, 25⟩, ⟨30, 59, 16, 1, 17⟩⟩,
  ⟨⟨30, 12, 121, 7, 122⟩, ⟨28, 12, 47, 26, 48⟩, ⟨30, 39, 24, 14, 25⟩, ⟨30, 22, 15, 41, 16⟩⟩,
  ⟨⟨30, 6, 121, 14, 122⟩, ⟨28, 6, 47, 34, 48⟩, ⟨30, 46, 24, 10, 25⟩, ⟨30, 2, 15, 64, 16⟩⟩,
  ⟨⟨30, 17, 122, 4, 123⟩, ⟨28, 29, 46, 14, 47⟩, ⟨30, 49, 24, 10, 25⟩, ⟨30, 24, 15, 46, 16⟩⟩,
  ⟨⟨30, 4, 122, 18, 123⟩, ⟨28, 13, 46, 32, 47⟩, ⟨30, 48, 24, 14, 25⟩, ⟨30, 42, 15, 32, 16⟩⟩,
  ⟨⟨30, 20, 117, 4, 118⟩, ⟨28, 40, 47, 7, 48⟩, ⟨30, 43, 24, 22, 25⟩, ⟨30, 10, 15, 67, 16⟩⟩,
  ⟨⟨30, 19, 118, 6, 119⟩, ⟨28, 18, 47, 31, 48⟩, ⟨30, 34, 24, 34, 25⟩, ⟨30, 20, 15, 61, 16⟩⟩]

/-- The rows of 43_interleaver R171, version 1 first. -/
def blockRows : List BlockRow := blockRows1 ++ (blockRows11 ++ (blockRows21 ++ blockRows31))

/-- The geometry of a version outside 1..40: never used, since the version check comes first (43_interleaver R173). -/
def noBlocks : BlockSpec := ⟨0, 0, 0, 0, 0⟩

/-- The geometry of a row at a level (30_encoding R82). -/
def BlockRow.at : BlockRow → Level → BlockSpec
  | row, .low => row.low
  | row, .medium => row.medium
  | row, .quartile => row.quartile
  | row, .high => row.high

/-- `BLOCKSPEC(v, l)` (43_interleaver R171). -/
def blockSpec (v : Nat) (l : Level) : BlockSpec :=
  (blockRows.getD (v - 1) ⟨noBlocks, noBlocks, noBlocks, noBlocks⟩).at l

/-- 44_matrix R207, versions 1..10. -/
def alignRows1 : List (List Nat) := [
  [],
  [6, 18],
  [6, 22],
  [6, 26],
  [6, 30],
  [6, 34],
  [6, 22, 38],
  [6, 24, 42],
  [6, 26, 46],
  [6, 28, 50]]

/-- 44_matrix R207, versions 11..20. -/
def alignRows11 : List (List Nat) := [
  [6, 30, 54],
  [6, 32, 58],
  [6, 34, 62],
  [6, 26, 46, 66],
  [6, 26, 48, 70],
  [6, 26, 50, 74],
  [6, 30, 54, 78],
  [6, 30, 56, 82],
  [6, 30, 58, 86],
  [6, 34, 62, 90]]

/-- 44_matrix R207, versions 21..30. -/
def alignRows21 : List (List Nat) := [
  [6, 28, 50, 72, 94],
  [6, 26, 50, 74, 98],
  [6, 30, 54, 78, 102],
  [6, 28, 54, 80, 106],
  [6, 32, 58, 84, 110],
  [6, 30, 58, 86, 114],
  [6, 34, 62, 90, 118],
  [6, 26, 50, 74, 98, 122],
  [6, 30, 54, 78, 102, 126],
  [6, 26, 52, 78, 104, 130]]

/-- 44_matrix R207, versions 31..40. -/
def alignRows31 : List (List Nat) := [
  [6, 30, 56, 82, 108, 134],
  [6, 34, 60, 86, 112, 138],
  [6, 30, 58, 86, 114, 142],
  [6, 34, 62, 90, 118, 146],
  [6, 30, 54, 78, 102, 126, 150],
  [6, 24, 50, 76, 102, 128, 154],
  [6, 28, 54, 80, 106, 132, 158],
  [6, 32, 58, 84, 110, 136, 162],
  [6, 26, 54, 82, 110, 138, 166],
  [6, 30, 58, 86, 114, 142, 170]]

/-- `ALIGN(v)`, the alignment-centre coordinates (44_matrix R207). -/
def align (v : Nat) : List Nat :=
  (alignRows1 ++ (alignRows11 ++ (alignRows21 ++ alignRows31))).getD (v - 1) []

/-- 44_matrix R212, versions 7..23. -/
def versionWords7 : List (BitVec 18) := [
  0x07C94, 0x085BC, 0x09A99, 0x0A4D3, 0x0BBF6, 0x0C762,
  0x0D847, 0x0E60D, 0x0F928, 0x10B78, 0x1145D, 0x12A17,
  0x13532, 0x149A6, 0x15683, 0x168C9, 0x177EC]

/-- 44_matrix R212, versions 24..40. -/
def versionWords24 : List (BitVec 18) := [
  0x18EC4, 0x191E1, 0x1AFAB, 0x1B08E, 0x1CC1A, 0x1D33F,
  0x1ED75, 0x1F250, 0x209D5, 0x216F0, 0x228BA, 0x2379F,
  0x24B0B, 0x2542E, 0x26A64, 0x27541, 0x28C69]

/-- `VERINFO[v−7]`, the version word of versions 7..40 (44_matrix R212). -/
def versionInfo (v : Nat) : BitVec 18 := (versionWords7 ++ versionWords24).getD (v - 7) 0

/-- `FMT`, the 32 format words (44_matrix R215). -/
def formatWords : List (BitVec 15) := [
  0x77C4, 0x72F3, 0x7DAA, 0x789D, 0x662F, 0x6318, 0x6C41, 0x6976,
  0x5412, 0x5125, 0x5E7C, 0x5B4B, 0x45F9, 0x40CE, 0x4F97, 0x4AA0,
  0x355F, 0x3068, 0x3F31, 0x3A06, 0x24B4, 0x2183, 0x2EDA, 0x2BED,
  0x1689, 0x13BE, 0x1CE7, 0x19D0, 0x0762, 0x0255, 0x0D0C, 0x083B]

/-- `FMT[l·8 + m]` (44_matrix R213, R215). -/
def formatInfo (l : Level) (m : Nat) : BitVec 15 := formatWords.getD (l.code * 8 + m) 0

/-- `MASKPRED[m](r, c)` (44_matrix R221). MASK is a 3-bit field, so 7 is the last index. -/
def maskPred (m r c : Nat) : Bool :=
  match m with
  | 0 => (r + c) % 2 == 0
  | 1 => r % 2 == 0
  | 2 => c % 3 == 0
  | 3 => (r + c) % 3 == 0
  | 4 => (r / 2 + c / 3) % 2 == 0
  | 5 => r * c % 2 + r * c % 3 == 0
  | 6 => (r * c % 2 + r * c % 3) % 2 == 0
  | _ => ((r + c) % 2 + r * c % 3) % 2 == 0

/-- `RAW(v)`, the number of data cells (44_matrix R225). -/
def rawCells (v : Nat) : Nat :=
  (16 * v + 128) * v + 64
    - (if 2 ≤ v then (25 * (v / 7 + 2) - 10) * (v / 7 + 2) - 55 else 0)
    - (if 7 ≤ v then 36 else 0)

/-- `TOTAL_CW(v)`, the number of codewords (44_matrix R225). -/
def totalCodewords (v : Nat) : Nat := rawCells v / 8

/-- `REMBITS(v)`, the number of remainder bits (44_matrix R226). -/
def remainderBits (v : Nat) : Nat := rawCells v % 8

end Sys2Proof.Machine
end

