-- ==== Sys2Proof/Machine/Ops.lean ====
section
/-! DEFINITION. The shared operations: memory, register updates, the checks and the completion of a command
(60_exceptions R260–R266), and the acceptance of one (10_state R23). -/

namespace Sys2Proof.Machine

/-! ## Memory -/

/-- The byte at a key, if it holds a value (20_memory R70). -/
def Memory.read : Memory → Nat → Option Byte
  | [], _ => none
  | c :: rest, a => if c.1 = a then some c.2 else Memory.read rest a

/-- The memory with one byte written, in canonical form. -/
def Memory.write : Memory → Nat → Byte → Memory
  | [], a, v => [(a, v)]
  | c :: rest, a, v =>
    if a < c.1 then (a, v) :: c :: rest
    else if a = c.1 then (a, v) :: rest
    else c :: Memory.write rest a v

/-- Consecutive cells from a base. -/
def Memory.cells : Nat → List Byte → Memory
  | _, [] => []
  | a, v :: vs => (a, v) :: Memory.cells (a + 1) vs

/-- The memory with consecutive bytes written from a base: the bytes of the block replace what the memory held
there. -/
def Memory.writeBlock (m : Memory) (base : Nat) (vs : List Byte) : Memory :=
  m.filter (fun c => decide (c.1 < base)) ++ (Memory.cells base vs
    ++ m.filter (fun c => decide (base + vs.length ≤ c.1)))

/-- The memory in which no key from `lo` up to, not including, `hi` holds a value. -/
def Memory.forget (m : Memory) (lo hi : Nat) : Memory :=
  m.filter (fun c => decide (c.1 < lo) || decide (hi ≤ c.1))

/-- `n` consecutive bytes from a base, if all of them hold a value. -/
def Memory.readBlock (m : Memory) : Nat → Nat → Option (List Byte)
  | _, 0 => some []
  | base, n + 1 =>
    match m.read base, Memory.readBlock m (base + 1) n with
    | some v, some vs => some (v :: vs)
    | _, _ => none

/-- The canonical form: keys strictly rising. -/
abbrev Memory.wf (m : Memory) : Prop := m.Pairwise (fun c d => c.1 < d.1)

/-! ## Register and buffer updates -/

/-- STATUS replaced. -/
def State.setStatus (st : Status) (s : State) : State := { s with status := st }

/-- RESULT.VALUE replaced (10_state R25). -/
def State.setResult (v : Byte) (s : State) : State := { s with result := v }

/-- STREAM_LEN.LEN replaced (10_state R28). -/
def State.setStreamLen (n : Nat) (s : State) : State := { s with streamLen := BitVec.ofNat 12 n }

/-- GRID_SIDE.SIDE replaced (10_state R30). -/
def State.setGridSide (side : Nat) (s : State) : State := { s with gridSide := byte side }

/-- The buffers replaced. -/
def State.setMem (m : Memory) (s : State) : State := { s with mem := m }

/-- Bytes written to a buffer from its byte 0 on (20_memory R62). -/
def State.writeBuffer (b : Buffer) (vs : List Byte) (s : State) : State :=
  s.setMem (s.mem.writeBlock b.base vs)

/-- EXP and LOG replaced, GF_VALID set (40_gf R101). -/
def State.installGf (t : GfTables) (s : State) : State :=
  { s with gf := t, status := { s.status with gfValid := true } }

/-- GEN replaced, GEN_VALID set (41_generator R121). -/
def State.installGen (g : GenTable) (s : State) : State :=
  { s with gen := g, status := { s.status with genValid := true } }

/-- WORK after a command that used it: unspecified contents (10_state R43), so a free value in each byte (log 5). -/
def State.releaseWork (s : State) : State :=
  { s with
    work := Memory.cells 0 ((List.range workMax).map fun i => Config.freeByte (s.draws + i))
    draws := s.draws + workMax }

/-! ## The end of a command -/

/-- The successful completion (60_exceptions R262), with the OUT_LEN of 10_state R29. -/
def State.complete (outLen : Nat) (s : State) : State :=
  { s with status := s.status.succeed, outLen := BitVec.ofNat 16 outLen }

/-- The error completion `raise Err(code)` (60_exceptions R262): this is all that "taking an exception" is in
QRCORE, and there is no return from it (R264, R265). -/
def State.raiseErr (code : ErrCode) (s : State) : State :=
  { s with result := 0, outLen := 0, status := s.status.fail code }

/-- The code of the first check that fails (60_exceptions R263). -/
def firstError : List (Bool × ErrCode) → Option ErrCode
  | [] => none
  | (fails, code) :: rest => if fails then some code else firstError rest

/-- A command's checks, all before its first write (60_exceptions R260, R262): the first that fails ends the
command, and if none does the body runs. -/
def checked (checks : List (Bool × ErrCode)) (s : State) (body : Host.Outcome State Fault Refusal) :
    Host.Outcome State Fault Refusal :=
  match firstError checks with
  | some code => .next (s.raiseErr code)
  | none => body

/-! ## Acceptance -/

/-- The writes of an acceptance (10_state R23): the word goes to CMD and PEND, and BUSY rises. -/
def State.latchCommand (w : Word) (s : State) : State :=
  { s with cmd := w, pend := w, status := s.status.accept w }

/-- An accepted command: the number of host events before its engine step is a free value (70_reset R312, log 2). -/
def State.acceptCommand (w : Word) (s : State) : State :=
  { s.latchCommand w with engineDelay := Config.engineLatency s.draws, draws := s.draws + 1 }

/-- The state while `rst` is asserted and right after its release (70_reset R300): every spec field at its reset
value. The host's events to come, the count of draws and the last read value are not the block's (log 14). -/
def State.resetBlock (level : Bool) (s : State) : State :=
  { State.reset with rst := level, inputs := s.inputs, draws := s.draws, lastRead := s.lastRead }

end Sys2Proof.Machine
end

