-- ==== Sys2Proof/Machine/Operands.lean ====
section
/-! DEFINITION. How a command reaches its operands (10_state R21, 20_memory R62, R64, R70; 30_encoding R82). -/

namespace Sys2Proof.Machine

/-- A command reads the first `n` bytes of a buffer as an operand. A byte among them that holds no value is the
fault UNWRITTEN_OPERAND (20_memory R70). -/
def State.withOperand (b : Buffer) (n : Nat) (s : State)
    (body : List Byte → Host.Outcome State Fault Refusal) : Host.Outcome State Fault Refusal :=
  match s.mem.readBlock b.base n with
  | some vs => body vs
  | none => .fault .unwrittenOperand

/-- A field element operand: an 8-bit field of the command word (30_encoding R82). -/
abbrev elementOperand (n : Nat) : Byte := byte n

/-- The length register operand of INTERLEAVE (10_state R27). -/
abbrev State.dataLength (s : State) : Nat := s.dataLen.toNat

/-- The length register operand of BUILD_MATRIX (10_state R28). -/
abbrev State.streamLength (s : State) : Nat := s.streamLen.toNat

/-- A degree outside 1..68 (41_generator R122, 42_division R146, R150). -/
def badDegree (d : Nat) : Bool := decide (d < 1) || decide (maxDegree < d)

/-- A version outside 1..40 (43_interleaver R173, 44_matrix R201). -/
def badVersion (v : Nat) : Bool := decide (v < 1) || decide (maxVersion < v)

/-- The check of the EXP and LOG tables' readiness (60_exceptions R261). -/
def State.needsGf (s : State) : Bool × ErrCode := (!s.status.gfValid, .uninitializedTables)

/-- The check of the GEN table's readiness (60_exceptions R261). -/
def State.needsGen (s : State) : Bool × ErrCode := (!s.status.genValid, .uninitializedTables)

/-- Bit `k` of a codeword sequence, most significant bit first; 0 past its end (20_memory R64, 44_matrix R222). -/
def streamBit (vs : List Byte) (k : Nat) : Bool := (vs.getD (k / 8) 0).getLsbD (7 - k % 8)

end Sys2Proof.Machine
end

