-- ==== Sys2Proof/Machine/Gf.lean ====
section
/-! DEFINITION. GF(256) tables and arithmetic (40_gf): GF_INIT, GF_MUL, GF_EXP, GF_LOG. -/

namespace Sys2Proof.Machine

/-! ## The field (R100–R108) -/

/-- `EXP[i]` (10_state R40). -/
def GfTables.expAt (t : GfTables) (i : Nat) : Byte := (t.exp.read i).getD (Config.unwrittenExp i)

/-- `LOG[v]` (10_state R41). -/
def GfTables.logAt (t : GfTables) (v : Byte) : Byte := (t.log.read v.toNat).getD (Config.unwrittenLog v.toNat)

/-- `mul(a, b)`: a zero operand yields 0 without a read of `LOG[0]` (R104). -/
def GfTables.mul (t : GfTables) (a b : Byte) : Byte :=
  if a = 0 ∨ b = 0 then 0 else t.expAt (((t.logAt a).toNat + (t.logAt b).toNat) % 255)

/-- `scale(f, e)`, with the exponent a natural number (R108). -/
def GfTables.scale (t : GfTables) (f : Byte) (e : Nat) : Byte :=
  if f = 0 then 0 else t.expAt (((t.logAt f).toNat + e) % 255)

/-- One doubling of R101: shift left, and reduce with 0x1D when the pre-shift degree-7 bit is set. -/
def gfDouble (x : Byte) : Byte := if x.getLsbD 7 then (x <<< 1) ^^^ 0x1D else x <<< 1

/-- The variables of R101's loop. -/
structure GfLoop where
  x : Byte
  tables : GfTables

/-- One turn of R101's loop. -/
def gfLoopTurn (g : GfLoop) (i : Nat) : GfLoop where
  x := gfDouble g.x
  tables := ⟨g.tables.exp.write i g.x, g.tables.log.write g.x.toNat (byte i)⟩

/-- The body of GF_INIT on the tables: `EXP[0..254]` and `LOG[1..255]` (R101). -/
def gfBuild (t : GfTables) : GfTables := ((List.range 255).foldl gfLoopTurn ⟨1, t⟩).tables

/-! ## The commands -/

/-- The body of GF_INIT on the state (R101), shared with INIT_TABLES (41_generator R124). -/
def State.buildGf (s : State) : State := s.installGf (gfBuild s.gf)

/-- GF_INIT (R101): no precondition. -/
def execGfInit (s : State) : Host.Outcome State Fault Refusal := .next (s.buildGf.complete 0)

/-- GF_MUL a, b (R104). -/
def execGfMul (a b : Nat) (s : State) : Host.Outcome State Fault Refusal :=
  checked [s.needsGf] s
    (.next ((s.setResult (s.gf.mul (elementOperand a) (elementOperand b))).complete 0))

/-- GF_EXP e (R105). -/
def execGfExp (e : Nat) (s : State) : Host.Outcome State Fault Refusal :=
  checked [s.needsGf, (decide (254 < e), .outOfBounds)] s
    (.next ((s.setResult (s.gf.expAt e)).complete 0))

/-- GF_LOG v (R106). -/
def execGfLog (v : Nat) (s : State) : Host.Outcome State Fault Refusal :=
  checked [s.needsGf, (decide (elementOperand v = 0), .logOfZero)] s
    (.next ((s.setResult (s.gf.logAt (elementOperand v))).complete 0))

end Sys2Proof.Machine
end

