-- ==== Sys2Proof/Machine/Generator.lean ====
section
/-! DEFINITION. Reed–Solomon generator polynomials (41_generator): GEN_INIT, GEN_GET, INIT_TABLES. -/

namespace Sys2Proof.Machine

/-- `GEN[d][j]` (10_state R42). -/
def genAt (g : GenTable) (d j : Nat) : Byte :=
  match g.find? (fun row => row.1 == d) with
  | some row => row.2.getD j (Config.unwrittenGen d j)
  | none => Config.unwrittenGen d j

/-- The row `GEN[d][0..d]` (10_state R42). -/
def genRow (g : GenTable) (d : Nat) : List Byte := (List.range (d + 1)).map (genAt g d)

/-- The interior entry `GEN[d][j]` of R121 from the previous row's entries j−1 and j, with r = d − 1. -/
def genInterior (t : GfTables) (r : Nat) (left here : Byte) : Byte :=
  t.logAt (t.expAt here.toNat ^^^ t.expAt ((left.toNat + r) % 255))

/-- The entries of a row after its first, from the previous row (R121): the interior entries, then the end entry. -/
def genTail (t : GfTables) (r : Nat) : List Byte → List Byte
  | left :: here :: rest => genInterior t r left here :: genTail t r (here :: rest)
  | [last] => [byte ((last.toNat + r) % 255)]
  | [] => []

/-- Row d from row d−1, with r = d − 1 (R121). -/
def genNext (t : GfTables) (r : Nat) (previous : List Byte) : List Byte :=
  previous.take 1 ++ genTail t r previous

/-- The rows of degrees d, d+1, … from row d, `count` of them after it (R121). -/
def genRowsFrom (t : GfTables) : Nat → List Byte → Nat → GenTable
  | d, row, 0 => [(d, row)]
  | d, row, count + 1 => (d, row) :: genRowsFrom t (d + 1) (genNext t d row) count

/-- The whole GEN table: `g_1 = x + 1`, then degrees 2..68 (R121). -/
def genBuild (t : GfTables) : GenTable := genRowsFrom t 1 [0, 0] (maxDegree - 1)

/-- The body of GEN_INIT without its check (R121, R124). -/
def State.buildGen (s : State) : State := s.installGen (genBuild s.gf)

/-- GEN_INIT (R121). -/
def execGenInit (s : State) : Host.Outcome State Fault Refusal :=
  checked [s.needsGf] s (.next (s.buildGen.complete 0))

/-- INIT_TABLES (R124): the body of GF_INIT, then the body of GEN_INIT. -/
def execInitTables (s : State) : Host.Outcome State Fault Refusal := .next (s.buildGf.buildGen.complete 0)

/-- GEN_GET d (R122). -/
def execGenGet (d : Nat) (s : State) : Host.Outcome State Fault Refusal :=
  checked [s.needsGen, (badDegree d, .unsupportedDegree)] s
    (.next ((s.writeBuffer .bufOut (genRow s.gen d)).complete (d + 1)))

end Sys2Proof.Machine
end

