-- ==== Sys2Proof/Machine/Division.lean ====
section
/-! DEFINITION. Polynomial division and one-block Reed–Solomon encoding (42_division): POLY_DIV, ECC_ENCODE. -/

namespace Sys2Proof.Machine

/-- `WORK[off+j] <- WORK[off+j] ⊕ ds[j]` for each j (R141). -/
def xorInto : Nat → List Byte → List Byte → List Byte
  | 0, d :: ds, w :: ws => (w ^^^ d) :: xorInto 0 ds ws
  | off + 1, ds, w :: ws => w :: xorInto off ds ws
  | 0, [], ws => ws
  | _, _, [] => []

/-- Step `off` of the division: the divisor, scaled by the leading coefficient f, XORed in at `off`; nothing when
f = 0 (R141). -/
def divStep (t : GfTables) (e : List Byte) (work : List Byte) (off : Nat) : List Byte :=
  let f := work.getD off 0
  if f = 0 then work else xorInto off (e.map fun x => t.scale f x.toNat) work

/-- WORK before the first step: the dividend and `a_shift` appended zeros (R141). -/
def divLoad (a : List Byte) (shift : Nat) : List Byte := a ++ List.replicate shift 0

/-- WORK after the last step; the divisor's degree is `e.length − 1` (R141). -/
def divRun (t : GfTables) (a : List Byte) (shift : Nat) (e : List Byte) : List Byte :=
  (List.range (a.length + shift - (e.length - 1))).foldl (divStep t e) (divLoad a shift)

/-- The last `b_deg` coefficients of WORK, padded with zeros on the left when there are fewer (R141). -/
def divTake (work : List Byte) (bDeg : Nat) : List Byte :=
  List.replicate (bDeg - work.length) 0 ++ work.drop (work.length - bDeg)

/-- `DIVREM(a, s, e)`, with `e = e[0..b_deg]` (R141). A divisor exponent 0 is the coefficient 1 (R140, C2). -/
def divRem (t : GfTables) (a : List Byte) (shift : Nat) (e : List Byte) : List Byte :=
  divTake (divRun t a shift e) (e.length - 1)

/-- `ECC(m, k) = DIVREM(m, k, GEN[k])` (R150). -/
def eccOf (t : GfTables) (g : GenTable) (m : List Byte) (k : Nat) : List Byte := divRem t m k (genRow g k)

/-- POLY_DIV a_deg, b_deg, a_shift (R146). -/
def execPolyDiv (aDeg bDeg aShift : Nat) (s : State) : Host.Outcome State Fault Refusal :=
  checked [s.needsGf, (badDegree bDeg, .unsupportedDegree),
      (decide (workMax < aDeg + 1 + aShift), .outOfBounds)] s
    (s.withOperand .bufA (aDeg + 1) fun a =>
      s.withOperand .bufB (bDeg + 1) fun e =>
        .next (((s.writeBuffer .bufOut (divRem s.gf a aShift e)).releaseWork).complete bDeg))

/-- ECC_ENCODE msg_len, ecc_count (R150). -/
def execEccEncode (msgLen eccCount : Nat) (s : State) : Host.Outcome State Fault Refusal :=
  checked [s.needsGen, (badDegree eccCount, .unsupportedDegree), (decide (msgLen = 0), .lengthMismatch),
      (decide (workMax < msgLen + eccCount), .outOfBounds)] s
    (s.withOperand .bufA msgLen fun m =>
      .next (((s.writeBuffer .bufOut (eccOf s.gf s.gen m eccCount)).releaseWork).complete eccCount))

end Sys2Proof.Machine
end

