-- ==== Sys2Proof/Machine/Interleaver.lean ====
section
/-! DEFINITION. Block splitting and interleaving (43_interleaver): INTERLEAVE. -/

namespace Sys2Proof.Machine

/-- `count` consecutive blocks of `size` codewords (R173). -/
def takeBlocks (size : Nat) : Nat → List Byte → List (List Byte)
  | 0, _ => []
  | count + 1, data => data.take size :: takeBlocks size count (data.drop size)

/-- The data blocks: g1b blocks of g1w codewords, then g2b blocks of g2w (R173). -/
def splitBlocks (b : BlockSpec) (data : List Byte) : List (List Byte) :=
  takeBlocks b.g1w b.g1b data ++ takeBlocks b.g2w b.g2b (data.drop (b.g1b * b.g1w))

/-- Column i: codeword i of every block, in block order (R173). -/
def column (blocks : List (List Byte)) (i : Nat) : List Byte := blocks.map fun blk => blk.getD i 0

/-- Columns 0..n−1, one after another (R173). -/
def columns (blocks : List (List Byte)) (n : Nat) : List Byte := (List.range n).flatMap (column blocks)

/-- The interleaved stream: the data columns, the trailing codewords of the group-2 blocks, the ECC columns (R173). -/
def interleave (t : GfTables) (g : GenTable) (b : BlockSpec) (data : List Byte) : List Byte :=
  let blk := splitBlocks b data
  let eccb := blk.map fun m => eccOf t g m b.ecc
  columns blk b.g1w ++ (column (blk.drop b.g1b) b.g1w ++ columns eccb b.ecc)

/-- INTERLEAVE version, level (R173). -/
def execInterleave (version : Nat) (level : Level) (s : State) : Host.Outcome State Fault Refusal :=
  let b := blockSpec version level
  checked [s.needsGen, (badVersion version, .unsupportedDegree),
      (decide (s.dataLength ≠ b.capacity), .lengthMismatch)] s
    (s.withOperand .data s.dataLength fun data =>
      let out := interleave s.gf s.gen b data
      .next ((((s.writeBuffer .stream out).releaseWork).setStreamLen out.length).complete out.length))

end Sys2Proof.Machine
end

