-- ==== Sys2Proof/Machine/Matrix.lean ====
section
/-! DEFINITION. Symbol-matrix construction (44_matrix): BUILD_MATRIX. Cells are (row, column) pairs (00_scope R10). -/

namespace Sys2Proof.Machine

/-! ## The grid inside a command step (R202) -/

/-- A square grid, its cells row after row (10_state R44). It exists only inside a command step (R229). -/
structure Grid where
  side : Nat
  cells : Array Byte

/-- A write of one cell: row, column, value. -/
abbrev CellWrite := Nat × Nat × Byte

/-- The value 2, "unset" (R202). -/
def unsetCell : Byte := 2

/-- A colour as a cell value: black = 1, white = 0 (10_state R44). -/
def cellOf (black : Bool) : Byte := if black then 1 else 0

/-- The grid before phase A: every cell unset (R202). -/
def Grid.blank (side : Nat) : Grid := ⟨side, Array.replicate (side * side) unsetCell⟩

/-- `G[r][c]` (10_state R44). -/
def Grid.get (g : Grid) (r c : Nat) : Byte := g.cells.getD (r * g.side + c) unsetCell

/-- `G[r][c] <- v`, for a cell inside the grid. -/
def Grid.put (g : Grid) (w : CellWrite) : Grid :=
  if w.1 < g.side ∧ w.2.1 < g.side then ⟨g.side, g.cells.setIfInBounds (w.1 * g.side + w.2.1) w.2.2⟩ else g

/-- Writes in order, a later one overwriting an earlier one (R208). -/
def Grid.apply (g : Grid) (ws : List CellWrite) : Grid := ws.foldl Grid.put g

/-! ## Phase A: function patterns (R203–R209) -/

/-- The distance of i from the centre index m. -/
def distance (i m : Nat) : Nat := (i - m) + (m - i)

/-- The finder whose top-left cell is (top, left): rings 3, 1 and 0 black, ring 2 white (R203). -/
def finder (top left : Nat) : List CellWrite :=
  (List.range 7).flatMap fun i => (List.range 7).map fun j =>
    (top + i, left + j, cellOf (max (distance i 3) (distance j 3) ≠ 2))

/-- The three finders (R203). -/
def finders (side : Nat) : List CellWrite := finder 0 0 ++ (finder 0 (side - 7) ++ finder (side - 7) 0)

/-- The separators (R204). -/
def separators (side : Nat) : List CellWrite :=
  (List.range 8).flatMap fun k =>
    [(7, k, 0), (k, 7, 0), (7, side - 1 - k, 0), (k, side - 8, 0), (side - 8, k, 0), (side - 1 - k, 7, 0)]

/-- The dark module (R205). -/
def darkModule (side : Nat) : List CellWrite := [(side - 8, 8, 1)]

/-- The box of rows r−2..r+2 and columns c−2..c+2 meets a reserved zone (R206). -/
def meetsZone (side r c : Nat) : Bool :=
  (decide (r - 2 ≤ 8) && decide (c - 2 ≤ 8))
    || (decide (r - 2 ≤ 8) && decide (side - 8 ≤ c + 2))
    || (decide (side - 8 ≤ r + 2) && decide (c - 2 ≤ 8))

/-- One alignment pattern: the outer ring and the centre black, the ring between white (R206). -/
def alignmentPattern (r c : Nat) : List CellWrite :=
  (List.range 5).flatMap fun i => (List.range 5).map fun j =>
    (r - 2 + i, c - 2 + j, cellOf (max (distance i 2) (distance j 2) ≠ 1))

/-- The alignment centres, in order of placement (R206). -/
def alignmentCentres (v : Nat) : List (Nat × Nat) :=
  (align v).flatMap fun r => ((align v).filter fun c => !meetsZone (sideOf v) r c).map fun c => (r, c)

/-- The alignment patterns; none for version 1, whose table row is empty (R206, R207). -/
def alignmentPatterns (v : Nat) : List CellWrite :=
  (alignmentCentres v).flatMap fun rc => alignmentPattern rc.1 rc.2

/-- The timing patterns, k = 8..side−9, dark where k is even (R209). -/
def timing (side : Nat) : List CellWrite :=
  (List.range (side - 16)).flatMap fun i => [(6, 8 + i, cellOf (i % 2 = 0)), (8 + i, 6, cellOf (i % 2 = 0))]

/-- Phase A in the order of R208. -/
def phaseA (v : Nat) : List CellWrite :=
  finders (sideOf v) ++ (separators (sideOf v) ++ (darkModule (sideOf v)
    ++ (alignmentPatterns v ++ timing (sideOf v))))

/-! ## Phases B and C: version and format information (R211–R214) -/

/-- Phase B for v ≥ 7: the bottom-left and the top-right version blocks (R211). -/
def phaseB (v : Nat) : List CellWrite :=
  (List.range 18).flatMap fun i =>
    let b := cellOf ((versionInfo v).getLsbD i)
    [(sideOf v - 11 + i % 3, i / 3, b), (i / 3, sideOf v - 11 + i % 3, b)]

/-- The cell of format bit i in copy 1, around the top-left finder (R214). -/
def formatCell1 (i : Nat) : Nat × Nat :=
  if i < 6 then (i, 8) else if i = 6 then (7, 8) else if i = 7 then (8, 8) else if i = 8 then (8, 7) else (8, 14 - i)

/-- The cell of format bit i in copy 2, top-right row and bottom-left column (R214). -/
def formatCell2 (side i : Nat) : Nat × Nat :=
  if i < 8 then (8, side - 1 - i) else (side - 15 + i, 8)

/-- Phase C: every format bit, in both copies (R213, R214). -/
def phaseC (v : Nat) (l : Level) (m : Nat) : List CellWrite :=
  (List.range 15).flatMap fun i =>
    let b := cellOf ((formatInfo l m).getLsbD i)
    [((formatCell1 i).1, (formatCell1 i).2, b), ((formatCell2 (sideOf v) i).1, (formatCell2 (sideOf v) i).2, b)]

/-- The writes of phases A, B and C (R201): they do not depend on the stream (R227). -/
def functionWrites (v : Nat) (l : Level) (m : Nat) : List CellWrite :=
  phaseA v ++ ((if 7 ≤ v then phaseB v else []) ++ phaseC v l m)

/-- The grid after phases A–C (R201). -/
def functionGrid (v : Nat) (l : Level) (m : Nat) : Grid := (Grid.blank (sideOf v)).apply (functionWrites v l m)

/-! ## Phase D: data placement and masking (R220–R223) -/

/-- The rows of a lane in scan direction (R220). -/
def laneRows (side : Nat) (upward : Bool) : List Nat := if upward then (List.range side).reverse else List.range side

/-- The cells of the lane with right column `right`: row after row, right column first (R220). -/
def laneCells (side right : Nat) (upward : Bool) : List (Nat × Nat) :=
  (laneRows side upward).flatMap fun r => [(r, right), (r, right - 1)]

/-- The scan from the lane at `right` on; column 6 is skipped (R220). The fuel bounds the number of lanes. -/
def scanFrom (side : Nat) : Nat → Nat → Bool → List (Nat × Nat)
  | 0, _, _ => []
  | fuel + 1, right, upward =>
    if right < 1 then []
    else
      let lane := if right = 6 then 5 else right
      laneCells side lane upward ++ scanFrom side fuel (lane - 2) (!upward)

/-- The whole boustrophedon scan, over set and unset cells (R220). -/
def scan (side : Nat) : List (Nat × Nat) := scanFrom side side (side - 1) true

/-- `ORDER`: the cells still unset, in scan order (R220). -/
def dataOrder (g : Grid) : List (Nat × Nat) := (scan g.side).filter fun rc => g.get rc.1 rc.2 = unsetCell

/-- The bit of phase D at position idx: the stream's bit, or 0 after its end (R222, R223). -/
def dataBit (v : Nat) (stream : List Byte) (idx : Nat) : Bool :=
  if idx < 8 * totalCodewords v then streamBit stream idx else false

/-- Phase D's writes: each data cell gets its bit, masked (R222). -/
def phaseD (v m : Nat) (stream : List Byte) (order : List (Nat × Nat)) : List CellWrite :=
  order.zipIdx.map fun p => (p.1.1, p.1.2, cellOf (dataBit v stream p.2 ^^ maskPred m p.1.1 p.1.2))

/-- The finished grid (R201). -/
def buildGrid (v : Nat) (l : Level) (m : Nat) (stream : List Byte) : Grid :=
  (functionGrid v l m).apply (phaseD v m stream (dataOrder (functionGrid v l m)))

/-! ## The command -/

/-- The grid goes to GRID, row after row with stride side; bytes of GRID at offsets ≥ side² are unspecified
afterwards, so they hold no value (10_state R44, 44_matrix R201, log 6). -/
def State.writeGrid (g : Grid) (s : State) : State :=
  s.setMem ((s.mem.forget Buffer.grid.base (Buffer.grid.base + Buffer.grid.size)).writeBlock Buffer.grid.base
    g.cells.toList)

/-- BUILD_MATRIX version, level, mask (R201): no table is needed. -/
def execBuildMatrix (version : Nat) (level : Level) (mask : Nat) (s : State) : Host.Outcome State Fault Refusal :=
  let side := sideOf version
  checked [(badVersion version, .unsupportedDegree),
      (decide (totalCodewords version < s.streamLength), .outOfBounds),
      (decide (s.streamLength < totalCodewords version), .lengthMismatch)] s
    (s.withOperand .stream s.streamLength fun stream =>
      .next (((s.writeGrid (buildGrid version level mask stream)).setGridSide side).complete (side * side)))

end Sys2Proof.Machine
end

