-- ==== Sys2Proof/Machine/Dispatch.lean ====
section
/-! DEFINITION. One arm for each command (30_encoding R83, 70_reset R310). -/

namespace Sys2Proof.Machine

def exec (i : Instr) (s : State) : Host.Outcome State Fault Refusal :=
  match i with
  | .gfInit => Sys2Proof.Machine.execGfInit s
  | .genInit => Sys2Proof.Machine.execGenInit s
  | .initTables => Sys2Proof.Machine.execInitTables s
  | .gfMul a b => Sys2Proof.Machine.execGfMul a b s
  | .gfExp e => Sys2Proof.Machine.execGfExp e s
  | .gfLog v => Sys2Proof.Machine.execGfLog v s
  | .genGet d => Sys2Proof.Machine.execGenGet d s
  | .polyDiv aDeg bDeg aShift => Sys2Proof.Machine.execPolyDiv aDeg bDeg aShift s
  | .eccEncode msgLen eccCount => Sys2Proof.Machine.execEccEncode msgLen eccCount s
  | .interleave version level => Sys2Proof.Machine.execInterleave version level s
  | .buildMatrix version level mask => Sys2Proof.Machine.execBuildMatrix version level mask s

end Sys2Proof.Machine
end

