-- ==== Sys2Proof/WellFormed.lean ====
section
/-! DEFINITION. Which commands spell a command word: every operand fits its field (30_encoding R81, R82, R86). -/

namespace Sys2Proof

/-- The value fits an 8-bit operand field (30_encoding R82). -/
def fitsByteField (n : Nat) : Bool := decide (n < 256)

/-- The value fits the 3-bit MASK field (30_encoding R82). -/
def fitsMaskField (n : Nat) : Bool := decide (n < 8)

/-- Every operand is inside its field width; LEVEL is so by its type (30_encoding R86). -/
def Instr.wf : Instr → Bool
  | .gfInit => true
  | .genInit => true
  | .initTables => true
  | .gfMul a b => fitsByteField a && fitsByteField b
  | .gfExp e => fitsByteField e
  | .gfLog v => fitsByteField v
  | .genGet d => fitsByteField d
  | .polyDiv aDeg bDeg aShift => fitsByteField aDeg && fitsByteField bDeg && fitsByteField aShift
  | .eccEncode msgLen eccCount => fitsByteField msgLen && fitsByteField eccCount
  | .interleave version _ => fitsByteField version
  | .buildMatrix version _ mask => fitsByteField version && fitsMaskField mask

end Sys2Proof
end

