-- ==== Sys2Proof/Decode.lean ====
section
/-! DEFINITION. The decoder of 30_encoding R81–R84 and, after it, the encoder of R86. -/

namespace Sys2Proof

/-- `w[lo+len-1:lo]`, zero-extended to a natural number (00_scope R8). -/
def field (w : Word) (lo len : Nat) : Nat := (w.extractLsb' lo len).toNat

/-- The level a two-bit LEVEL field stands for (30_encoding R82). -/
def levelOfCode : Nat → Level
  | 0 => .low
  | 1 => .medium
  | 2 => .quartile
  | _ => .high

/-- A row of the opcode map: it selects the words `w` with `(w & mask) = pattern` (30_encoding R83). -/
structure OpcodeRow where
  mnemonic : String
  mask : Word
  pattern : Word
  build : Word → Instr

/-- The row selects this word (30_encoding R83). -/
def rowSelects (row : OpcodeRow) (w : Word) : Bool := w &&& row.mask == row.pattern

/-- The opcode map with the masks of 30_encoding R83 and the fields of R81. -/
def opcodeTable : List OpcodeRow := [
  { mnemonic := "GF_INIT", mask := 0xFFFFFFFF, pattern := 0x01, build := fun _ => .gfInit },
  { mnemonic := "GEN_INIT", mask := 0xFFFFFFFF, pattern := 0x02, build := fun _ => .genInit },
  { mnemonic := "INIT_TABLES", mask := 0xFFFFFFFF, pattern := 0x03, build := fun _ => .initTables },
  { mnemonic := "GF_MUL", mask := 0xFF0000FF, pattern := 0x10,
    build := fun w => .gfMul (field w 8 8) (field w 16 8) },
  { mnemonic := "GF_EXP", mask := 0xFFFF00FF, pattern := 0x11, build := fun w => .gfExp (field w 8 8) },
  { mnemonic := "GF_LOG", mask := 0xFFFF00FF, pattern := 0x12, build := fun w => .gfLog (field w 8 8) },
  { mnemonic := "GEN_GET", mask := 0xFFFF00FF, pattern := 0x20, build := fun w => .genGet (field w 8 8) },
  { mnemonic := "POLY_DIV", mask := 0x000000FF, pattern := 0x30,
    build := fun w => .polyDiv (field w 8 8) (field w 16 8) (field w 24 8) },
  { mnemonic := "ECC_ENCODE", mask := 0xFF0000FF, pattern := 0x31,
    build := fun w => .eccEncode (field w 8 8) (field w 16 8) },
  { mnemonic := "INTERLEAVE", mask := 0xFFFC00FF, pattern := 0x40,
    build := fun w => .interleave (field w 8 8) (levelOfCode (field w 16 2)) },
  { mnemonic := "BUILD_MATRIX", mask := 0xFFE000FF, pattern := 0x50,
    build := fun w => .buildMatrix (field w 8 8) (levelOfCode (field w 16 2)) (field w 18 3) }]

/-- Why a word is illegal (30_encoding R84). -/
inductive DecodeReject where
  /-- The OPC is not in the opcode map. -/
  | unassignedOpcode (opc : Nat)
  /-- The OPC is this command's, but one of its fixed-zero bits is 1. -/
  | fixedZeroBitSet (mnemonic : String)
deriving DecidableEq, Repr

/-- The name under which an unselected word is rejected (30_encoding R84). -/
def rejectReason (w : Word) : DecodeReject :=
  match opcodeTable.find? (fun row => field row.pattern 0 8 == field w 0 8) with
  | some row => .fixedZeroBitSet row.mnemonic
  | none => .unassignedOpcode (field w 0 8)

/-- The decoder: the row that selects the word builds the command (30_encoding R83, R84). -/
def decode (w : Word) : Except DecodeReject Instr :=
  match opcodeTable.find? (fun row => rowSelects row w) with
  | some row => .ok (row.build w)
  | none => .error (rejectReason w)

/-- The decoder on a table word of `nbits` bits; the bits above are 0. The one word of a command is the whole
instruction (30_encoding R80), and a register write carries it as one 32-bit value (20_memory R63). -/
def decodeTableWord (nbits w : Nat) : Option Instr :=
  (decode (BitVec.ofNat 32 (w % 2 ^ nbits))).toOption

/-- A command word from OPC and the fields that start at bits 8, 16 and 24 (30_encoding R81). For values inside
their fields the sum is R86's `|`, since the fields do not overlap. -/
def fieldsWord (opc f8 f16 f24 : Nat) : Word :=
  BitVec.ofNat 32 (opc + f8 * 2 ^ 8 + f16 * 2 ^ 16 + f24 * 2 ^ 24)

/-- The encoder of 30_encoding R86. In format S, LEVEL is bits 17:16 and MASK bits 20:18 (R81). -/
def encode : Instr → Word
  | .gfInit => fieldsWord 0x01 0 0 0
  | .genInit => fieldsWord 0x02 0 0 0
  | .initTables => fieldsWord 0x03 0 0 0
  | .gfMul a b => fieldsWord 0x10 a b 0
  | .gfExp e => fieldsWord 0x11 e 0 0
  | .gfLog v => fieldsWord 0x12 v 0 0
  | .genGet d => fieldsWord 0x20 d 0 0
  | .polyDiv aDeg bDeg aShift => fieldsWord 0x30 aDeg bDeg aShift
  | .eccEncode msgLen eccCount => fieldsWord 0x31 msgLen eccCount 0
  | .interleave version level => fieldsWord 0x40 version level.code 0
  | .buildMatrix version level mask => fieldsWord 0x50 version (level.code + mask * 2 ^ 2) 0

/-- The assembler: a command with an operand outside its field width spells no word (30_encoding R86). -/
def assemble (i : Instr) : Option Word := if i.wf then some (encode i) else none

end Sys2Proof
end

