-- ==== Sys2Proof/Machine/HostPort.lean ====
section
/-! DEFINITION. The host port (20_memory R60–R77): reads, writes, and the events of the host and of `rst`. -/

namespace Sys2Proof.Machine

/-- The number of bytes of an access (20_memory R60). -/
def AccessSize.bytes : AccessSize → Nat
  | .one => 1
  | .two => 2
  | .four => 4

/-- The byte addresses of an access, lowest first. -/
def accessBytes (addr : Nat) (size : AccessSize) : List Nat := (List.range size.bytes).map (addr + ·)

/-! ## Reads -/

/-- The 32-bit value of a register; reserved fields read 0 (10_state R22–R30). -/
def State.readRegister (s : State) : Register → Word
  | .cmd => s.cmd
  | .status => s.status.toWord
  | .result => s.result.setWidth 32
  | .ctrl => (BitVec.ofBool s.irqEn).setWidth 32
  | .dataLen => s.dataLen.setWidth 32
  | .streamLen => s.streamLen.setWidth 32
  | .outLen => s.outLen.setWidth 32
  | .gridSide => s.gridSide.setWidth 32

/-- How many bytes from byte 0 of this buffer a command's "writes" set holds (20_memory R62, log 8). -/
def writesSet : Instr → Buffer → Nat
  | .genGet d, .bufOut => d + 1
  | .polyDiv _ bDeg _, .bufOut => bDeg
  | .eccEncode _ eccCount, .bufOut => eccCount
  | .interleave version _, .stream => if badVersion version then 0 else totalCodewords version
  | .buildMatrix _ _ _, .grid => Buffer.grid.size
  | _, _ => 0

/-- The byte lies in this buffer's part of the command's "writes" set (20_memory R62). -/
def inWritesSet (i : Instr) (addr : Nat) (b : Buffer) : Bool :=
  decide (b.base ≤ addr) && decide (addr < b.base + writesSet i b)

/-- The command in flight, if BUSY = 1, may write this buffer byte (20_memory R62, R74). -/
def State.inFlight (s : State) (addr : Nat) : Bool :=
  s.status.busy && match decode s.pend with
    | .ok i => inWritesSet i addr .bufOut || inWritesSet i addr .stream || inWritesSet i addr .grid
    | .error _ => false

/-- A free value for a read that the spec leaves open (20_memory R70, R74). -/
def State.drawByte (s : State) : Byte × State := (Config.freeByte s.draws, { s with draws := s.draws + 1 })

/-- A host read of one byte outside the registers: a reserved byte reads 0 (20_memory R67), a byte the running
command writes or one that holds no value reads as a free value (R70, R74). -/
def State.readByte (addr : Nat) (s : State) : Byte × State :=
  if isBufferByte addr then
    if s.inFlight addr then s.drawByte
    else match s.mem.read addr with
      | some v => (v, s)
      | none => s.drawByte
  else (0, s)

/-- The bytes at these addresses as one value, the first the least significant (20_memory R63). -/
def State.readBytes : List Nat → State → Word × State
  | [], s => (0, s)
  | a :: rest, s =>
    let low := s.readByte a
    let high := State.readBytes rest low.2
    (low.1.setWidth 32 ||| (high.1 <<< 8), high.2)

/-- `MemRead(addr, n)` (20_memory R60, R65–R67); while `rst` is asserted a read returns 0 (70_reset R300). -/
def State.memRead (addr : Addr) (size : AccessSize) (s : State) : Word × State :=
  if s.rst then (0, s)
  else if isRegisterByte addr.toNat then
    match size, registerAt addr.toNat with
    | .four, some reg => (s.readRegister reg, s)
    | _, _ => (0, s)
  else if addr.toNat % size.bytes ≠ 0 then (0, s)
  else s.readBytes (accessBytes addr.toNat size)

/-! ## Writes -/

/-- A host write to a register (10_state R22–R30, 20_memory R73, 60_exceptions R270). -/
def State.writeRegister (w : Word) (s : State) : Register → Host.Outcome State Fault Refusal
  | .cmd => .next (if s.status.busy then s.setStatus s.status.overrun else s.acceptCommand w)
  | .status => .next (s.setStatus (s.status.clear w))
  | .ctrl => .next { s with irqEn := w.getLsbD 0 }
  | .dataLen => if s.status.busy then .fault .hostWriteWhileBusy else .next { s with dataLen := w.extractLsb' 0 12 }
  | .streamLen =>
    if s.status.busy then .fault .hostWriteWhileBusy else .next { s with streamLen := w.extractLsb' 0 12 }
  | .result => .next s
  | .outLen => .next s
  | .gridSide => .next s

/-- The bytes of a value that go to buffer bytes, with their addresses: byte k goes to addr + k (20_memory R63), and
bytes for reserved addresses are dropped (R66, R67). -/
def bufferWrites (addr : Nat) (size : AccessSize) (w : Word) : List (Nat × Byte) :=
  ((List.range size.bytes).map fun k => (addr + k, w.extractLsb' (8 * k) 8)).filter fun c => isBufferByte c.1

/-- Bytes written one after another. -/
def Memory.writeEach (m : Memory) (ws : List (Nat × Byte)) : Memory := ws.foldl (fun n c => n.write c.1 c.2) m

/-- `MemWrite(addr, n, v)` (20_memory R60, R65–R67, R73); while `rst` is asserted it has no effect (70_reset R300). -/
def State.memWrite (addr : Addr) (size : AccessSize) (w : Word) (s : State) : Host.Outcome State Fault Refusal :=
  if s.rst then .next s
  else if isRegisterByte addr.toNat then
    match size, registerAt addr.toNat with
    | .four, some reg => s.writeRegister w reg
    | _, _ => .next s
  else if addr.toNat % size.bytes ≠ 0 then .next s
  else
    let ws := bufferWrites addr.toNat size w
    if s.status.busy ∧ ws ≠ [] then .fault .hostWriteWhileBusy
    else .next (s.setMem (s.mem.writeEach ws))

/-! ## Events -/

/-- The host has got its read data (log 16). -/
def State.deliver (r : Word × State) : State := { r.2 with lastRead := r.1 }

/-- The address of STATUS. -/
def statusAddr : Addr := 0x004

/-- One event. A wait line reads STATUS and stays next in line while it reads BUSY = 1 (30_encoding R87, log 18). -/
def State.hostEvent (e : HostEvent) (s : State) : Host.Outcome State Fault Refusal :=
  match e with
  | .read addr size => .next (State.deliver (s.memRead addr size))
  | .write addr size w => s.memWrite addr size w
  | .wait =>
    let r := s.memRead statusAddr .four
    .next (if r.1.getLsbD 0 then { State.deliver r with inputs := .wait :: s.inputs } else State.deliver r)
  | .setRst level => .next (if s.rst || level then s.resetBlock level else s)

/-- The next event leaves the line and counts towards the engine's delay (70_reset R312, log 2). -/
def State.takeEvent (rest : List HostEvent) (s : State) : State :=
  { s with inputs := rest, engineDelay := s.engineDelay - 1 }

/-- A step of the outside world: the next event, if there is one (20_memory R68, 60_exceptions R285). -/
def State.hostStep (s : State) : Host.Outcome State Fault Refusal :=
  match s.inputs with
  | [] => .next s
  | e :: rest => (s.takeEvent rest).hostEvent e

end Sys2Proof.Machine
end

