-- ==== Sys2Proof/Machine/Engine.lean ====
section
/-! DEFINITION. The engine step and the choice of the agent that moves (70_reset R310, R312). -/

namespace Sys2Proof.Machine

/-- The agents (00_scope R13), and no one. -/
inductive Agent where
  | engine
  | host
  | nobody
deriving DecidableEq, Repr

/-- The engine has a command to perform, and its delay is over: no host event is to come before its step, or none is
left (70_reset R312, log 2). -/
def State.engineReady (s : State) : Bool :=
  !s.rst && s.status.busy && (decide (s.engineDelay = 0) || s.inputs.isEmpty)

/-- Who moves next (00_scope R13, 20_memory R71). -/
def State.nextAgent (s : State) : Agent :=
  if s.engineReady then .engine else if s.inputs.isEmpty then .nobody else .host

/-- The engine step: PEND is decoded, an illegal word ends with ILLEGAL_COMMAND, a legal one runs its command
(70_reset R310, 30_encoding R84). -/
def State.engineStep (s : State) : Host.Outcome State Fault Refusal :=
  match decode s.pend with
  | .ok i => exec i s
  | .error _ => .next (s.raiseErr .illegalCommand)

end Sys2Proof.Machine
end

