-- ==== Sys2Proof/Machine/Step.lean ====
section
/-! DEFINITION. One step of the machine (00_scope R13, 70_reset R310): one agent moves, or no one does. -/

namespace Sys2Proof.Machine

/-- One step. An idle block with no host event to come stays as it is (60_exceptions R285). -/
def step (s : State) : Host.Outcome State Fault Refusal :=
  match s.nextAgent with
  | .engine => s.engineStep
  | .host => s.hostStep
  | .nobody => .next s

/-- The state with this table word accepted and its engine step due: QRCORE fetches nothing (10_state R31), a command
arrives in PEND by an acceptance (R23). `rst` is released and no host event comes before the step (log 1). -/
def State.withFetchWord (s : State) (nbits w : Nat) : State :=
  { s.latchCommand (BitVec.ofNat 32 (w % 2 ^ nbits)) with rst := false, engineDelay := 0 }

end Sys2Proof.Machine
end

