-- ==== Sys2Proof/Machine/HostProgram.lean ====
section
/-! DEFINITION. Host programs: their lines and pseudo-instructions as host events (30_encoding R86, R87). -/

namespace Sys2Proof.Machine

/-- A line of a host program (30_encoding R87). -/
inductive HostLine where
  | wr32 (addr : Addr) (v : Word)
  | wr16 (addr : Addr) (v : BitVec 16)
  | wr8 (addr : Addr) (v : Byte)
  | rd32 (addr : Addr)
  | rd8 (addr : Addr)
  /-- A command line of rule R86. -/
  | command (i : Instr)
  | wait
  /-- A command line, then `wait`. -/
  | exec (i : Instr)
  /-- `load X, [...]`. DESIGN CHOICE (log 22): X is a buffer name; R87 does not say what else it may be. -/
  | load (b : Buffer) (vs : List Byte)
  | clear
deriving DecidableEq, Repr

/-- The port address of a register's name (30_encoding R87). -/
def Register.addr (r : Register) : Addr := BitVec.ofNat 16 r.offset

/-- `wr8 X+0, b0; wr8 X+1, b1; …` (30_encoding R87). -/
def loadEvents : Nat → List Byte → List HostEvent
  | _, [] => []
  | a, v :: vs => .write (BitVec.ofNat 16 a) .one (v.setWidth 32) :: loadEvents (a + 1) vs

/-- The expansion of a line; a command line whose operand does not fit its field is rejected (30_encoding R86, R87).
DESIGN CHOICE (log 22): a `load` list that passes the last port address is rejected; R87 gives it no meaning. -/
def HostLine.expand : HostLine → Option (List HostEvent)
  | .wr32 addr v => some [.write addr .four v]
  | .wr16 addr v => some [.write addr .two (v.setWidth 32)]
  | .wr8 addr v => some [.write addr .one (v.setWidth 32)]
  | .rd32 addr => some [.read addr .four]
  | .rd8 addr => some [.read addr .one]
  | .command i => (assemble i).map fun w => [.write Register.cmd.addr .four w]
  | .wait => some [.wait]
  | .exec i => (assemble i).map fun w => [.write Register.cmd.addr .four w, .wait]
  | .load b vs => if b.base + vs.length ≤ 2 ^ 16 then some (loadEvents b.base vs) else none
  | .clear => some [.write Register.status.addr .four 0x00000026]

/-- The events of a program, if every line is accepted (30_encoding R87). -/
def hostProgram : List HostLine → Option (List HostEvent)
  | [] => some []
  | l :: rest =>
    match l.expand, hostProgram rest with
    | some es, some more => some (es ++ more)
    | _, _ => none

end Sys2Proof.Machine
end

