-- ==== Sys2Proof/Reference.lean ====
section
/-! DEFINITION. The notions of the spec's laws, written without the machine's tables, for the statements to compare the
machine with: the field GF(256) (40_gf R100, R103), polynomials (42_division R140, R142, R151), the block positions
(43_interleaver R175), the scan of the grid (44_matrix R220), and the tables of errors and output lengths (60_exceptions R261, 10_state R29). -/

namespace Sys2Proof.Machine

/-! ## The field -/

/-- The product of a field element with x: shifted up one degree, less 0x11D when degree 8 appears (R100). -/
def timesX (a : Byte) : Byte := byte (if a.toNat < 128 then 2 * a.toNat else (2 * a.toNat) ^^^ 0x11D)

/-- `α^i`, α = x (R100). -/
def alpha : Nat → Byte
  | 0 => 1
  | i + 1 => timesX (alpha i)

/-- The product of two field elements as polynomials modulo 0x11D, by Horner's scheme over the bits of b (R100). -/
def fieldProduct (a b : Byte) : Byte :=
  (List.range 8).foldl (fun acc i => timesX acc ^^^ (if b.getLsbD (7 - i) then a else 0)) 0

/-! ## Polynomials, the highest-degree coefficient first -/

/-- The value of a polynomial at a point (42_division R140, R151). -/
def polyEval (cs : List Byte) (x : Byte) : Byte := cs.foldl (fun acc c => fieldProduct acc x ^^^ c) 0

/-- The coefficients of a polynomial in exponent form (42_division R140). -/
def fromExponents (e : List Byte) : List Byte := e.map fun x => alpha x.toNat

/-- `q·d + r` for a quotient q and a divisor d of degree `r.length` (42_division R142 law 2). -/
def quotientTimesPlus (d : List Byte) : List Byte → List Byte → List Byte
  | [], r => r
  | q :: qs, r => List.zipWith (· ^^^ ·) (0 :: quotientTimesPlus d qs r)
      (d.map (fieldProduct q) ++ List.replicate qs.length 0)

/-! ## Blocks and their places in the stream -/

/-- The first data codeword of block b (43_interleaver R173). -/
def blockStart (bs : BlockSpec) (b : Nat) : Nat :=
  if b < bs.g1b then b * bs.g1w else bs.g1b * bs.g1w + (b - bs.g1b) * bs.g2w

/-- The number of data codewords of block b (43_interleaver R173). -/
def blockLength (bs : BlockSpec) (b : Nat) : Nat := if b < bs.g1b then bs.g1w else bs.g2w

/-! ## The boustrophedon scan -/

/-- The lane of a column, counted from the right: pairs of columns, and column 6 in no lane (44_matrix R220). -/
def laneOf (side c : Nat) : Nat := if 6 < c then (side - 1 - c) / 2 else (side - 2 - c) / 2

/-- Where the scan meets a cell outside column 6: lane after lane, the even lanes upward and the odd ones downward, and
in a row the right column first; the lanes are (side−1, side−2), …, (8, 7), (5, 4), (3, 2), (1, 0) (44_matrix R220). -/
def scanPosition (side : Nat) (cell : Nat × Nat) : Nat :=
  laneOf side cell.2 * (2 * side)
    + 2 * (if laneOf side cell.2 % 2 = 0 then side - 1 - cell.1 else cell.1)
    + (if 6 < cell.2 then cell.2 % 2 else 1 - cell.2 % 2)

/-! ## Errors, completions and output lengths -/

/-- STATUS after a successful completion: the values R262 gives (60_exceptions R262). -/
def successStatus (st : Status) : Status :=
  { busy := false, done := true, err := false, gfValid := st.gfValid, genValid := st.genValid, cmdOvr := st.cmdOvr,
    errCode := .none, lastOp := st.lastOp }

/-- The state after an error completion: the values R262 gives, all else as it was (60_exceptions R262). -/
def errorCompletion (s : State) (code : ErrCode) : State :=
  { s with
    result := 0
    outLen := 0
    status :=
      { busy := false, done := false, err := true, gfValid := s.status.gfValid, genValid := s.status.genValid,
        cmdOvr := s.status.cmdOvr, errCode := code, lastOp := s.status.lastOp } }

/-- The error of a command, if it ends with one: the causes of R261 in the priority of R263. -/
def specError (s : State) : Instr → Option ErrCode
  | .gfInit => none
  | .initTables => none
  | .genInit => if s.status.gfValid = false then some .uninitializedTables else none
  | .gfMul _ _ => if s.status.gfValid = false then some .uninitializedTables else none
  | .gfExp e =>
    if s.status.gfValid = false then some .uninitializedTables
    else if e = 255 then some .outOfBounds else none
  | .gfLog v =>
    if s.status.gfValid = false then some .uninitializedTables
    else if v = 0 then some .logOfZero else none
  | .genGet d =>
    if s.status.genValid = false then some .uninitializedTables
    else if d = 0 ∨ 68 < d then some .unsupportedDegree else none
  | .polyDiv aDeg bDeg aShift =>
    if s.status.gfValid = false then some .uninitializedTables
    else if bDeg = 0 ∨ 68 < bDeg then some .unsupportedDegree
    else if 191 < aDeg + 1 + aShift then some .outOfBounds else none
  | .eccEncode msgLen eccCount =>
    if s.status.genValid = false then some .uninitializedTables
    else if eccCount = 0 ∨ 68 < eccCount then some .unsupportedDegree
    else if msgLen = 0 then some .lengthMismatch
    else if 191 < msgLen + eccCount then some .outOfBounds else none
  | .interleave v l =>
    if s.status.genValid = false then some .uninitializedTables
    else if v = 0 ∨ 40 < v then some .unsupportedDegree
    else if s.dataLen.toNat ≠ (blockSpec v l).capacity then some .lengthMismatch else none
  | .buildMatrix v _ _ =>
    if v = 0 ∨ 40 < v then some .unsupportedDegree
    else if totalCodewords v < s.streamLen.toNat then some .outOfBounds
    else if s.streamLen.toNat < totalCodewords v then some .lengthMismatch else none

/-- OUT_LEN after a command that completes without error (10_state R29). -/
def outputLength : Instr → Nat
  | .genGet d => d + 1
  | .polyDiv _ bDeg _ => bDeg
  | .eccEncode _ eccCount => eccCount
  | .interleave v _ => totalCodewords v
  | .buildMatrix v _ _ => sideOf v * sideOf v
  | .gfInit => 0
  | .genInit => 0
  | .initTables => 0
  | .gfMul _ _ => 0
  | .gfExp _ => 0
  | .gfLog _ => 0

/-- The buffer bytes a command reads: `n` bytes from byte 0 of each of these buffers (20_memory R62). -/
def operandBytes (s : State) : Instr → List (Buffer × Nat)
  | .polyDiv aDeg bDeg _ => [(.bufA, aDeg + 1), (.bufB, bDeg + 1)]
  | .eccEncode msgLen _ => [(.bufA, msgLen)]
  | .interleave _ _ => [(.data, s.dataLen.toNat)]
  | .buildMatrix _ _ _ => [(.stream, s.streamLen.toNat)]
  | .gfInit => []
  | .genInit => []
  | .initTables => []
  | .gfMul _ _ => []
  | .gfExp _ => []
  | .gfLog _ => []
  | .genGet _ => []

/-- The buffer bytes a command writes: `n` bytes from byte 0 of this buffer (20_memory R62; 44_matrix R201 for GRID). -/
def resultBytes : Instr → List (Buffer × Nat)
  | .genGet d => [(.bufOut, d + 1)]
  | .polyDiv _ bDeg _ => [(.bufOut, bDeg)]
  | .eccEncode _ eccCount => [(.bufOut, eccCount)]
  | .interleave v _ => [(.stream, totalCodewords v)]
  | .buildMatrix _ _ _ => [(.grid, Buffer.grid.size)]
  | .gfInit => []
  | .genInit => []
  | .initTables => []
  | .gfMul _ _ => []
  | .gfExp _ => []
  | .gfLog _ => []

end Sys2Proof.Machine
end

