-- ==== Sys2Proof/Safety.lean ====
section
/-! DEFINITION. What a safe run of QRCORE is: the contract a host must keep (70_reset R302, R311; 60_exceptions R268), and
the invariants of the machine. -/

namespace Sys2Proof.Machine

/-! ## The host's contract -/

/-- Every buffer byte the command reads holds a value (20_memory R70, 70_reset R311 item 8). -/
def OperandsWritten (i : Instr) (s : State) : Prop :=
  ∀ p ∈ operandBytes s i, ∀ k < p.2, (s.mem.read (p.1.base + k)).isSome

/-- The command meets the contract: it ends with an error before it reads an operand, or its operands are written. -/
def CommandSafe (i : Instr) (s : State) : Prop := (specError s i).isSome ∨ OperandsWritten i s

/-- A step that does not end the run. -/
def StepSafe (s : State) : Prop := ∃ t, step s = .next t

/-- A run of k steps that does not end early. -/
def RunSafe (k : Nat) (s : State) : Prop := ∃ t, Sys2Proof.core.run k s = .next t

/-! ## Invariants -/

/-- What 10_state R23, R24 and R45 say of STATUS, CMD and PEND in every state. -/
structure StatusOk (s : State) : Prop where
  notBoth : s.status.done = true → s.status.err = false
  busyQuiet : s.status.busy = true → s.status.done = false ∧ s.status.err = false ∧ s.status.errCode = .none
  doneHasNoCode : s.status.done = true → s.status.errCode = .none
  errHasCode : s.status.err = true → s.status.errCode ≠ .none
  neverOverflow : s.status.errCode ≠ .capacityOverflow
  pendIsCmd : s.status.busy = true → s.pend = s.cmd
  lastOpOfCmd : s.status.lastOp = s.cmd.extractLsb' 0 8
  genNeedsGf : s.status.genValid = true → s.status.gfValid = true
  rstIdle : s.rst = true → s.status.busy = false

/-- The tables hold the built values when their valid bit is 1, and no value before (10_state R24, R40–R42). -/
structure TablesOk (s : State) : Prop where
  gfBuilt : s.status.gfValid = true → s.gf = gfBuild ⟨[], []⟩
  gfEmpty : s.status.gfValid = false → s.gf = ⟨[], []⟩
  genBuilt : s.status.genValid = true → s.gen = genBuild (gfBuild ⟨[], []⟩)
  genEmpty : s.status.genValid = false → s.gen = []

/-- Every partial map is in its canonical form and inside its range (20_memory R61, 10_state R40–R43). -/
structure MemoryOk (s : State) : Prop where
  memWf : s.mem.wf
  memInBuffers : ∀ c ∈ s.mem, isBufferByte c.1
  expWf : s.gf.exp.wf
  expRange : ∀ c ∈ s.gf.exp, c.1 < 255
  logWf : s.gf.log.wf
  logRange : ∀ c ∈ s.gf.log, 0 < c.1 ∧ c.1 < 256
  workWf : s.work.wf
  workRange : ∀ c ∈ s.work, c.1 < 191

end Sys2Proof.Machine
end

