-- ==== Sys2Proof/Certificates/Slice0/Obligations.lean ====
section
/-! DEFINITION. The statements for the provers. Premises named TablesOk, StatusOk or MemoryOk are invariants of the machine,
stated as such below. -/

open Sys2Proof Sys2Proof.Machine

/-! ## Encoding (30_encoding) -/

/-- R81–R86: decoding the word of a well-formed command gives the command back, for all operands. -/
def Obligations.EncodedCommandsDecodeBack : Prop :=
  ∀ i : Instr, i.wf = true → decode (encode i) = .ok i

/-- R83: a decoded word is the word of the command it decodes to, and that command is well formed. -/
def Obligations.DecodedWordsEncodeBack : Prop :=
  ∀ (w : Word) (i : Instr), decode w = .ok i → encode i = w ∧ i.wf = true

/-- R84: a word is legal exactly when its OPC is in the map and the row's fixed-zero bits are 0. -/
def Obligations.LegalWordsAreThoseOfTheOpcodeMap : Prop :=
  ∀ w : Word, (∃ i, decode w = .ok i) ↔
    ((w.toNat % 256 = 0x01 ∨ w.toNat % 256 = 0x02 ∨ w.toNat % 256 = 0x03) ∧ w.toNat / 2 ^ 8 = 0)
      ∨ ((w.toNat % 256 = 0x10 ∨ w.toNat % 256 = 0x31) ∧ w.toNat / 2 ^ 24 = 0)
      ∨ ((w.toNat % 256 = 0x11 ∨ w.toNat % 256 = 0x12 ∨ w.toNat % 256 = 0x20) ∧ w.toNat / 2 ^ 16 = 0)
      ∨ w.toNat % 256 = 0x30
      ∨ (w.toNat % 256 = 0x40 ∧ w.toNat / 2 ^ 18 = 0)
      ∨ (w.toNat % 256 = 0x50 ∧ w.toNat / 2 ^ 21 = 0)

/-- R88: the worked encodings decode to their commands, and 0x00040540 is illegal. -/
def Obligations.WorkedEncodingsDecode : Prop :=
  decode 0x00000003 = .ok .initTables ∧ decode 0x00800210 = .ok (.gfMul 0x02 0x80)
    ∧ decode 0x00000A20 = .ok (.genGet 10) ∧ decode 0x0A0A0F30 = .ok (.polyDiv 15 10 10)
    ∧ decode 0x000A1031 = .ok (.eccEncode 16 10) ∧ decode 0x00020540 = .ok (.interleave 5 .quartile)
    ∧ decode 0x00010150 = .ok (.buildMatrix 1 .medium 0) ∧ decode 0x000C0750 = .ok (.buildMatrix 7 .low 3)
    ∧ decode 0x00040540 = .error (.fixedZeroBitSet "INTERLEAVE")

/-! ## The step (70_reset R310, R312) -/

/-- R310: when the engine's step is due, the step decodes PEND and runs that command; an illegal word ends with
ILLEGAL_COMMAND (R84). Whose step is due is the model's choice (log 2). In the model's form of an acceptance (log 1),
the step after it runs the accepted table word. -/
def Obligations.EngineStepRunsTheDecodedCommand : Prop :=
  (∀ s : State, s.rst = false → s.status.busy = true → (s.engineDelay = 0 ∨ s.inputs = []) →
      (∀ i, decode s.pend = .ok i → step s = exec i s)
        ∧ (∀ e, decode s.pend = .error e → step s = .next (errorCompletion s .illegalCommand)))
    ∧ (∀ (s : State) (nbits w : Nat) (i : Instr), decodeTableWord nbits w = some i →
      step (s.withFetchWord nbits w) = exec i (s.withFetchWord nbits w))

/-- R285 and the model's line of host events (log 1, log 2): when the engine's step is not due, the step performs the
next host event, and without one an idle block stays as it is. A write event is the port write, a read event the port
read with its value delivered (log 16), a wait line one read of STATUS that stays in line while bit 0 is 1 (R87, log 18),
and a low level of a released `rst` changes nothing. -/
def Obligations.OtherStepsAreTheHosts : Prop :=
  (∀ s : State, (s.status.busy = false ∨ s.rst = true ∨ (s.engineDelay ≠ 0 ∧ s.inputs ≠ [])) →
    (∀ e rest, s.inputs = e :: rest →
        step s = State.hostEvent e { s with inputs := rest, engineDelay := s.engineDelay - 1 })
      ∧ (s.inputs = [] → step s = .next s))
    ∧ (∀ (s : State) (a : Addr) (n : AccessSize) (w : Word), s.hostEvent (.write a n w) = s.memWrite a n w
      ∧ s.hostEvent (.read a n) = .next { (s.memRead a n).2 with lastRead := (s.memRead a n).1 })
    ∧ (∀ s : State, s.hostEvent .wait = .next { s with
      lastRead := (s.memRead 0x004 .four).1
      inputs := if (s.memRead 0x004 .four).1.getLsbD 0 then .wait :: s.inputs else s.inputs })
    ∧ (∀ s : State, s.rst = false → s.hostEvent (.setRst false) = .next s)

/-- R312: a host that waits reaches the engine's step after finitely many accesses. That they are at most the free
delay, and that every event counts towards it, is the model's choice (log 2). -/
def Obligations.WaitingReachesTheEngineStep : Prop :=
  ∀ (s : State) (rest : List HostEvent), s.rst = false → s.status.busy = true → s.inputs = .wait :: rest →
    ∃ k t, k ≤ s.engineDelay ∧ Sys2Proof.core.run k s = .next t ∧ t.engineReady = true ∧ t.pend = s.pend
      ∧ t.inputs = s.inputs ∧ t.mem = s.mem ∧ t.status = s.status

/-- R87, R312: a wait line ends, and its last read of STATUS shows BUSY = 0, when the command in flight keeps to the
contract (70_reset R311 item 8). -/
def Obligations.WaitLoopsEnd : Prop :=
  ∀ (s : State) (rest : List HostEvent), s.rst = false → s.inputs = .wait :: rest →
    (s.status.busy = true → ∀ i, decode s.pend = .ok i → CommandSafe i s) →
    ∃ k t, Sys2Proof.core.run k s = .next t ∧ t.inputs = rest ∧ t.status.busy = false ∧ t.lastRead.getLsbD 0 = false

/-! ## Reset (10_state R47, 70_reset R300) -/

/-- R47: the reset values. -/
def Obligations.ResetLeavesTheStatedValues : Prop :=
  let s := State.reset
  s.cmd = 0 ∧ s.status.toWord = 0 ∧ s.result = 0 ∧ s.irqEn = false ∧ s.dataLen = 0 ∧ s.streamLen = 0 ∧ s.outLen = 0
    ∧ s.gridSide = 0 ∧ s.pend = 0 ∧ s.irq = false
    ∧ (∀ a, s.mem.read a = none) ∧ (∀ a, s.work.read a = none) ∧ (∀ a, s.gf.exp.read a = none)
    ∧ (∀ a, s.gf.log.read a = none) ∧ s.gen = []

/-- R300: `rst` puts every spec field at its reset value, in the middle of a command too; while it is asserted reads
return 0 and writes have no effect; its release leaves the block idle. The model's own fields stay (log 14). -/
def Obligations.RstResetsTheBlock : Prop :=
  (∀ (s : State) (rest : List HostEvent), s.inputs = .setRst true :: rest → s.engineReady = false →
      step s = .next { State.reset with rst := true, inputs := rest, draws := s.draws, lastRead := s.lastRead })
    ∧ (∀ (s : State) (rest : List HostEvent), s.inputs = .setRst false :: rest → s.rst = true →
      step s = .next { State.reset with inputs := rest, draws := s.draws, lastRead := s.lastRead })
    ∧ (∀ (s : State) (a : Addr) (n : AccessSize) (w : Word), s.rst = true →
      s.memRead a n = (0, s) ∧ s.memWrite a n w = .next s)

/-! ## CMD, STATUS, CTRL and the other registers (10_state) -/

/-- R23: a CMD write with BUSY = 0 accepts the command, and CMD reads back as the word; one with BUSY = 1 changes
CMD_OVR only. The engine's delay and the draw count are the model's (log 2). -/
def Obligations.CmdWriteAcceptsOrIsDropped : Prop :=
  ∀ (s : State) (w : Word), s.rst = false →
    (s.status.busy = false → ∃ t, s.memWrite 0x000 .four w = .next t
        ∧ t = { s with
          cmd := w
          pend := w
          status := { s.status with
            busy := true, done := false, err := false, cmdOvr := false, errCode := .none, lastOp := w.extractLsb' 0 8 }
          engineDelay := t.engineDelay
          draws := t.draws }
        ∧ t.memRead 0x000 .four = (w, t))
      ∧ (s.status.busy = true →
        s.memWrite 0x000 .four w = .next { s with status := { s.status with cmdOvr := true } })

/-- R270: a CMD write while BUSY = 1 sets CMD_OVR and is no error; an accepted command and a STATUS write with bit 5
clear it; no other host write, no host read and no engine step does. -/
def Obligations.CmdOvrIsStickyUntilClearedOrAccepted : Prop :=
  (∀ (s : State) (w : Word), s.rst = false → s.status.busy = true →
      ∃ t, s.memWrite 0x000 .four w = .next t ∧ t.status.cmdOvr = true ∧ t.cmd = s.cmd ∧ t.pend = s.pend
        ∧ t.status.err = s.status.err ∧ t.status.errCode = s.status.errCode ∧ t.irq = s.irq)
    ∧ (∀ (s : State) (w : Word), s.rst = false → s.status.busy = false →
      ∃ t, s.memWrite 0x000 .four w = .next t ∧ t.status.cmdOvr = false)
    ∧ (∀ (s : State) (w : Word), s.rst = false → ∃ t, s.memWrite 0x004 .four w = .next t
      ∧ t.status.cmdOvr = (s.status.cmdOvr && !w.getLsbD 5))
    ∧ (∀ (s t : State) (a : Addr) (n : AccessSize) (w : Word), s.memWrite a n w = .next t → s.status.cmdOvr = true →
      t.status.cmdOvr = false → n = .four ∧ ((a = 0x000 ∧ s.status.busy = false) ∨ (a = 0x004 ∧ w.getLsbD 5 = true)))
    ∧ (∀ (s : State) (a : Addr) (n : AccessSize), (s.memRead a n).2.status = s.status)
    ∧ (∀ (i : Instr) (s t : State), exec i s = .next t → t.status.cmdOvr = s.status.cmdOvr)

/-- R24, R261: each field of STATUS is at its bits, ERRCODE by the numbers of R261, and the reserved bits read 0. -/
def Obligations.StatusReadsItsFieldsAtTheirBits : Prop :=
  ∀ s : State, s.rst = false → ∃ w, s.memRead 0x004 .four = (w, s)
    ∧ w.getLsbD 0 = s.status.busy ∧ w.getLsbD 1 = s.status.done ∧ w.getLsbD 2 = s.status.err
    ∧ w.getLsbD 3 = s.status.gfValid ∧ w.getLsbD 4 = s.status.genValid ∧ w.getLsbD 5 = s.status.cmdOvr
    ∧ w.extractLsb' 6 2 = 0 ∧ w.extractLsb' 12 4 = 0
    ∧ (w.extractLsb' 8 4).toNat = (match s.status.errCode with
      | .none => 0
      | .capacityOverflow => 1
      | .lengthMismatch => 2
      | .unsupportedDegree => 3
      | .outOfBounds => 4
      | .uninitializedTables => 5
      | .logOfZero => 6
      | .illegalCommand => 7)
    ∧ w.extractLsb' 16 8 = s.status.lastOp ∧ w.extractLsb' 24 8 = 0

/-- R24: a STATUS write clears DONE, ERR and CMD_OVR where it writes 1, and changes nothing else, busy or not. -/
def Obligations.StatusWriteClearsOnlyWrittenOnes : Prop :=
  ∀ (s : State) (w : Word), s.rst = false → s.memWrite 0x004 .four w = .next { s with
    status := { s.status with
      done := if w.getLsbD 1 then false else s.status.done
      err := if w.getLsbD 2 then false else s.status.err
      cmdOvr := if w.getLsbD 5 then false else s.status.cmdOvr } }

/-- R22, R25–R30: CTRL takes bit 0 of a write and the length registers bits 11:0 (when no command is in flight, R73),
RESULT, OUT_LEN and GRID_SIDE take no write (log 10), and every register reads its field with 0 above it. -/
def Obligations.RegistersTakeAndReadTheirFields : Prop :=
  ∀ (s : State) (w : Word), s.rst = false →
    s.memWrite 0x00C .four w = .next { s with irqEn := w.getLsbD 0 }
      ∧ (s.status.busy = false → s.memWrite 0x010 .four w = .next { s with dataLen := w.extractLsb' 0 12 }
        ∧ s.memWrite 0x014 .four w = .next { s with streamLen := w.extractLsb' 0 12 })
      ∧ s.memWrite 0x008 .four w = .next s ∧ s.memWrite 0x018 .four w = .next s ∧ s.memWrite 0x01C .four w = .next s
      ∧ s.memRead 0x008 .four = (BitVec.ofNat 32 s.result.toNat, s)
      ∧ s.memRead 0x00C .four = (if s.irqEn then 1 else 0, s)
      ∧ s.memRead 0x010 .four = (BitVec.ofNat 32 s.dataLen.toNat, s)
      ∧ s.memRead 0x014 .four = (BitVec.ofNat 32 s.streamLen.toNat, s)
      ∧ s.memRead 0x018 .four = (BitVec.ofNat 32 s.outLen.toNat, s)
      ∧ s.memRead 0x01C .four = (BitVec.ofNat 32 s.gridSide.toNat, s)

/-- R275: the interrupt output; it is 0 while BUSY = 1, after a STATUS write with bits 1 and 2 set and after an
acceptance, and with a completion recorded it follows a CTRL write at once. -/
def Obligations.IrqIsEnabledCompletion : Prop :=
  ∀ s : State, (s.irq = true ↔ s.irqEn = true ∧ (s.status.done = true ∨ s.status.err = true))
    ∧ (StatusOk s → s.status.busy = true → s.irq = false)
    ∧ (s.rst = false → ∀ w : Word,
      (w.getLsbD 1 = true → w.getLsbD 2 = true → ∃ t, s.memWrite 0x004 .four w = .next t ∧ t.irq = false)
        ∧ (s.status.busy = false → ∃ t, s.memWrite 0x000 .four w = .next t ∧ t.irq = false)
        ∧ ((s.status.done = true ∨ s.status.err = true) → ∃ t, s.memWrite 0x00C .four w = .next t
          ∧ t.irq = w.getLsbD 0 ∧ t.status.done = s.status.done ∧ t.status.err = s.status.err))

/-! ## The host port (20_memory) -/

/-- R63, R66, R67: an aligned write outside the registers puts byte k of the value at address + k where that is a buffer
byte, drops the bytes for reserved addresses, and changes nothing else; the same read returns the value, the first
byte least significant, with 0 for reserved bytes. -/
def Obligations.AlignedAccessesAreLittleEndian : Prop :=
  ∀ (s : State) (a : Addr) (n : AccessSize) (w : Word), s.rst = false → s.status.busy = false →
    0x20 ≤ a.toNat → a.toNat % n.bytes = 0 →
    ∃ t v, s.memWrite a n w = .next t ∧ t = { s with mem := t.mem }
      ∧ (∀ k < n.bytes, isBufferByte (a.toNat + k) → t.mem.read (a.toNat + k) = some (w.extractLsb' (8 * k) 8))
      ∧ (∀ x, (x < a.toNat ∨ a.toNat + n.bytes ≤ x ∨ ¬ isBufferByte x) → t.mem.read x = s.mem.read x)
      ∧ t.memRead a n = (v, t) ∧ v.toNat < 2 ^ (8 * n.bytes)
      ∧ (∀ k < n.bytes, v.extractLsb' (8 * k) 8 = if isBufferByte (a.toNat + k) then w.extractLsb' (8 * k) 8 else 0)

/-- R65, R66: a register access that is not 4 bytes wide or not aligned, and any other unaligned access, has no effect
and reads 0. That this is so while BUSY = 1 (log 9), and for an unaligned access outside the registers whatever it
covers (log 11), is deduced. -/
def Obligations.IllPlacedAccessesAreIgnored : Prop :=
  ∀ (s : State) (a : Addr) (n : AccessSize) (w : Word),
    ((a.toNat < 0x20 ∧ n ≠ .four) ∨ a.toNat % n.bytes ≠ 0) →
    s.memRead a n = (0, s) ∧ s.memWrite a n w = .next s

/-- R67: reserved addresses read 0 and ignore writes. -/
def Obligations.ReservedAddressesReadZeroAndIgnoreWrites : Prop :=
  ∀ (s : State) (a : Addr) (n : AccessSize) (w : Word), 0x20 ≤ a.toNat →
    (∀ k < n.bytes, ¬ isBufferByte (a.toNat + k)) → s.memRead a n = (0, s) ∧ s.memWrite a n w = .next s

/-- R73: while BUSY = 1 a write to DATA_LEN, STREAM_LEN or a buffer byte is the fault HOST_WRITE_WHILE_BUSY. That no other
write faults, also none that is ignored while BUSY = 1, is deduced (log 9). -/
def Obligations.HostWriteFaultsExactlyOnBusyOperands : Prop :=
  ∀ (s : State) (a : Addr) (n : AccessSize) (w : Word), s.rst = false →
    (s.memWrite a n w = .fault .hostWriteWhileBusy ↔
        s.status.busy = true ∧ ((n = .four ∧ (a = 0x010 ∨ a = 0x014))
          ∨ (a.toNat % n.bytes = 0 ∧ ∃ k < n.bytes, isBufferByte (a.toNat + k))))
      ∧ (s.memWrite a n w ≠ .fault .hostWriteWhileBusy → ∃ t, s.memWrite a n w = .next t)

/-- R63, R66, R68, R70, R74: a host read changes nothing but the model's count of draws (log 4). An aligned read outside
the registers whose buffer bytes hold values and are not being written by a command in flight changes nothing at all
and returns these bytes, the first least significant, with 0 for reserved bytes. -/
def Obligations.HostReadsReturnHeldBytesAndChangeNothing : Prop :=
  (∀ (s : State) (a : Addr) (n : AccessSize), (s.memRead a n).2 = { s with draws := (s.memRead a n).2.draws })
    ∧ (∀ (s : State) (a : Addr) (n : AccessSize), s.rst = false → 0x20 ≤ a.toNat → a.toNat % n.bytes = 0 →
      (∀ k < n.bytes, isBufferByte (a.toNat + k) → (s.mem.read (a.toNat + k)).isSome
        ∧ (s.status.busy = true → ∀ i, decode s.pend = .ok i → ∀ p ∈ resultBytes i,
          a.toNat + k < p.1.base ∨ p.1.base + p.2 ≤ a.toNat + k)) →
      ∃ w, s.memRead a n = (w, s) ∧ w.toNat < 2 ^ (8 * n.bytes)
        ∧ (∀ k < n.bytes, if isBufferByte (a.toNat + k) then s.mem.read (a.toNat + k) = some (w.extractLsb' (8 * k) 8)
          else w.extractLsb' (8 * k) 8 = 0))

/-! ## Completion (60_exceptions R260–R263) -/

/-- R262, R263: a command whose first failing check has a code ends with the error completion of that code and
changes nothing else. -/
def Obligations.FailingCommandsOnlyReportTheirFirstError : Prop :=
  ∀ (i : Instr) (s : State) (c : ErrCode), i.wf = true → specError s i = some c →
    exec i s = .next (errorCompletion s c)

/-- R262, R29, R174: a command without an error, its operands written, completes, with DONE, its OUT_LEN, and the valid
bits of the tables it builds; CMD, PEND, CTRL and DATA_LEN are unchanged. For all eleven commands. -/
def Obligations.CommandsWithoutErrorComplete : Prop :=
  ∀ (i : Instr) (s : State), i.wf = true → specError s i = none → OperandsWritten i s →
    ∃ t, exec i s = .next t ∧ t.outLen.toNat = outputLength i
      ∧ t.status = successStatus { s.status with
          gfValid := s.status.gfValid || decide (i = .gfInit ∨ i = .initTables)
          genValid := s.status.genValid || decide (i = .genInit ∨ i = .initTables) }
      ∧ t.cmd = s.cmd ∧ t.pend = s.pend ∧ t.irqEn = s.irqEn ∧ t.dataLen = s.dataLen

/-- R70, R268: a command without an error faults exactly when an operand byte holds no value. -/
def Obligations.UnwrittenOperandsFault : Prop :=
  ∀ (i : Instr) (s : State), i.wf = true → specError s i = none →
    (exec i s = .fault .unwrittenOperand ↔ ¬ OperandsWritten i s)

/-- R262, R24, R45: whatever the engine's step does, it ends with BUSY = 0 and exactly one of DONE and ERR, and leaves CMD,
PEND, CTRL, DATA_LEN, LAST_OP, CMD_OVR, `rst` and the host's side alone. -/
def Obligations.EngineStepsLeaveTheHostsRegistersAlone : Prop :=
  ∀ (i : Instr) (s t : State), exec i s = .next t →
    t.status.busy = false ∧ t.status.done = !t.status.err ∧ t.status.lastOp = s.status.lastOp
      ∧ t.status.cmdOvr = s.status.cmdOvr ∧ t.cmd = s.cmd ∧ t.pend = s.pend ∧ t.irqEn = s.irqEn ∧ t.dataLen = s.dataLen
      ∧ t.rst = s.rst ∧ t.inputs = s.inputs ∧ t.engineDelay = s.engineDelay ∧ t.lastRead = s.lastRead

/-- R125: only GF_INIT, GEN_INIT and INIT_TABLES write the internal tables or the valid bits. -/
def Obligations.OnlyInitCommandsWriteTables : Prop :=
  ∀ (i : Instr) (s t : State), i ≠ .gfInit → i ≠ .genInit → i ≠ .initTables → exec i s = .next t →
    t.gf = s.gf ∧ t.gen = s.gen ∧ t.status.gfValid = s.status.gfValid ∧ t.status.genValid = s.status.genValid

/-- R62: a command writes no buffer byte outside its "writes" set. -/
def Obligations.CommandsWriteOnlyTheirResultBytes : Prop :=
  ∀ (i : Instr) (s t : State) (x : Nat), i.wf = true → exec i s = .next t →
    (∀ p ∈ resultBytes i, x < p.1.base ∨ p.1.base + p.2 ≤ x) → t.mem.read x = s.mem.read x

/-- R25, R28, R30: who writes RESULT, STREAM_LEN and GRID_SIDE. -/
def Obligations.ResultRegistersHaveTheirOwnWriters : Prop :=
  ∀ (i : Instr) (s t : State), i.wf = true → exec i s = .next t →
    ((specError s i).isSome → t.result = 0 ∧ t.streamLen = s.streamLen ∧ t.gridSide = s.gridSide)
      ∧ (specError s i = none →
        ((∀ a b, i ≠ .gfMul a b) → (∀ e, i ≠ .gfExp e) → (∀ v, i ≠ .gfLog v) → t.result = s.result)
          ∧ ((∀ v l, i ≠ .interleave v l) → t.streamLen = s.streamLen)
          ∧ ((∀ v l m, i ≠ .buildMatrix v l m) → t.gridSide = s.gridSide)
          ∧ (∀ v l m, i = .buildMatrix v l m → t.gridSide.toNat = sideOf v))

/-! ## GF(256) (40_gf) -/

/-- R101: GF_INIT, in every state, writes α^i to EXP[i] and i to LOG[α^i], leaves LOG[0] alone, sets GF_VALID, and
changes no other state but the completion's. -/
def Obligations.GfInitBuildsThePowersOfAlpha : Prop :=
  ∀ s : State, ∃ t, exec .gfInit s = .next t
    ∧ t = { s with gf := t.gf, outLen := 0, status := successStatus { s.status with gfValid := true } }
    ∧ (∀ i < 255, t.gf.exp.read i = some (alpha i) ∧ t.gf.log.read (alpha i).toNat = some (byte i))
    ∧ (∀ i, 255 ≤ i → t.gf.exp.read i = s.gf.exp.read i) ∧ t.gf.log.read 0 = s.gf.log.read 0

/-- R102: with the tables built, EXP and LOG are inverse to each other, and EXP is a permutation of 1..255. -/
def Obligations.TablesAreInverse : Prop :=
  ∀ s : State, TablesOk s → s.status.gfValid = true →
    (∀ e : Byte, e ≠ 0 → (s.gf.logAt e).toNat < 255 ∧ s.gf.expAt (s.gf.logAt e).toNat = e)
      ∧ (∀ i < 255, s.gf.expAt i ≠ 0 ∧ s.gf.logAt (s.gf.expAt i) = byte i)

/-- R104: GF_MUL, with the tables built, gives the product of the field for all operands that fit their fields. That it
reads the low 8 bits of larger numbers, which no word encodes, is the model's choice (log 15). -/
def Obligations.GfMulGivesTheFieldProduct : Prop :=
  ∀ (a b : Nat) (s : State), TablesOk s → s.status.gfValid = true →
    exec (.gfMul a b) s = .next { s with
      result := fieldProduct (byte a) (byte b), outLen := 0, status := successStatus s.status }

/-- R107: the laws of the multiply, for all bytes, with the tables built. -/
def Obligations.MultiplyIsAFieldMultiply : Prop :=
  ∀ s : State, TablesOk s → s.status.gfValid = true → ∀ a b c : Byte,
    s.gf.mul a b = s.gf.mul b a ∧ s.gf.mul a 1 = a ∧ s.gf.mul a 0 = 0
      ∧ s.gf.mul (s.gf.mul a b) c = s.gf.mul a (s.gf.mul b c)
      ∧ s.gf.mul a (b ^^^ c) = s.gf.mul a b ^^^ s.gf.mul a c

/-- R108: `scale(f, e)` by its formula, and its laws: it is the product with α^e, and depends on e modulo 255 only. -/
def Obligations.ScaleMultipliesByAPowerOfAlpha : Prop :=
  ∀ s : State, TablesOk s → s.status.gfValid = true → ∀ (f : Byte) (e : Nat),
    s.gf.scale f e = (if f = 0 then 0 else s.gf.expAt (((s.gf.logAt f).toNat + e) % 255))
      ∧ s.gf.scale f e = s.gf.mul f (alpha e) ∧ s.gf.scale f e = s.gf.scale f (e % 255) ∧ s.gf.scale f 0 = f

/-- R105: GF_EXP e gives α^e for e up to 254, and OUT_OF_BOUNDS for 255; without tables UNINITIALIZED_TABLES. -/
def Obligations.GfExpGivesAPowerOfAlpha : Prop :=
  ∀ (e : Nat) (s : State), e < 256 → TablesOk s →
    (s.status.gfValid = false → exec (.gfExp e) s = .next (errorCompletion s .uninitializedTables))
      ∧ (s.status.gfValid = true → e = 255 → exec (.gfExp e) s = .next (errorCompletion s .outOfBounds))
      ∧ (s.status.gfValid = true → e < 255 → exec (.gfExp e) s = .next { s with
        result := alpha e, outLen := 0, status := successStatus s.status })

/-- R106: GF_LOG v gives the exponent of v, below 255, for v ≠ 0, and LOG_OF_ZERO for 0; without tables
UNINITIALIZED_TABLES. -/
def Obligations.GfLogGivesTheExponent : Prop :=
  ∀ (v : Nat) (s : State), v < 256 → TablesOk s →
    (s.status.gfValid = false → exec (.gfLog v) s = .next (errorCompletion s .uninitializedTables))
      ∧ (s.status.gfValid = true → v = 0 → exec (.gfLog v) s = .next (errorCompletion s .logOfZero))
      ∧ (s.status.gfValid = true → v ≠ 0 → ∃ i < 255, alpha i = byte v ∧ exec (.gfLog v) s = .next { s with
        result := byte i, outLen := 0, status := successStatus s.status })

/-! ## Generator polynomials (41_generator) -/

/-- R121: GEN_INIT, its table ready, completes, sets GEN_VALID and writes the rows of the recursion, and changes no
other state but the completion's. -/
def Obligations.GenInitBuildsTheRecursion : Prop :=
  ∀ s : State, TablesOk s → s.status.gfValid = true →
    ∃ t, exec .genInit s = .next t
      ∧ t = { s with gen := t.gen, outLen := 0, status := successStatus { s.status with genValid := true } }
      ∧ genAt t.gen 1 0 = 0 ∧ genAt t.gen 1 1 = 0
      ∧ (∀ d, 2 ≤ d → d ≤ 68 → genAt t.gen d 0 = 0
        ∧ (∀ j, 1 ≤ j → j < d → alpha (genAt t.gen d j).toNat
          = alpha (genAt t.gen (d - 1) j).toNat
            ^^^ fieldProduct (alpha (d - 1)) (alpha (genAt t.gen (d - 1) (j - 1)).toNat))
        ∧ genAt t.gen d d = byte (((genAt t.gen (d - 1) (d - 1)).toNat + (d - 1)) % 255))

/-- R123: with the GEN table built, each row starts with 0, ends with d(d−1)/2 mod 255, has every entry in 0..254, and
its polynomial has the roots α^0..α^(d−1). -/
def Obligations.GeneratorsHaveTheirRoots : Prop :=
  ∀ s : State, TablesOk s → s.status.genValid = true → ∀ d, 1 ≤ d → d ≤ 68 →
    genAt s.gen d 0 = 0 ∧ genAt s.gen d d = byte (d * (d - 1) / 2 % 255)
      ∧ (∀ j ≤ d, (genAt s.gen d j).toNat < 255)
      ∧ (∀ k < d, polyEval (fromExponents (genRow s.gen d)) (alpha k) = 0)

/-- R122: GEN_GET d writes the d+1 entries of row d to BUF_OUT and OUT_LEN = d+1, and changes no other state. -/
def Obligations.GenGetWritesTheRow : Prop :=
  ∀ (d : Nat) (s : State), 1 ≤ d → d ≤ 68 → s.status.genValid = true →
    ∃ t, exec (.genGet d) s = .next t
      ∧ t = { s with mem := t.mem, outLen := BitVec.ofNat 16 (d + 1), status := successStatus s.status }
      ∧ (∀ j ≤ d, t.mem.read (0x0300 + j) = some (genAt s.gen d j))
      ∧ (∀ x, (x < 0x0300 ∨ 0x0300 + d < x) → t.mem.read x = s.mem.read x)

/-- R124: INIT_TABLES, in every state, is GF_INIT and then GEN_INIT in one step, and ends with both valid bits. -/
def Obligations.InitTablesIsBothInits : Prop :=
  ∀ s : State, ∃ t u, exec .gfInit s = .next t ∧ exec .genInit t = .next u ∧ exec .initTables s = .next u
    ∧ u = { s with
      gf := u.gf, gen := u.gen, outLen := 0, status := successStatus { s.status with gfValid := true, genValid := true } }

/-- R101, R121 with 92 D18: a second initialisation rewrites identical values. -/
def Obligations.RepeatedInitsRewriteTheSameValues : Prop :=
  ∀ s : State, TablesOk s →
    (s.status.gfValid = true → ∃ t, exec .gfInit s = .next t ∧ t.gf = s.gf ∧ t.gen = s.gen
        ∧ t.status.genValid = s.status.genValid)
      ∧ (s.status.gfValid = true → s.status.genValid = true → ∃ t, exec .genInit s = .next t ∧ t.gf = s.gf ∧ t.gen = s.gen)
      ∧ (s.status.gfValid = true → s.status.genValid = true →
        ∃ t, exec .initTables s = .next t ∧ t.gf = s.gf ∧ t.gen = s.gen)

/-! ## Division and block encoding (42_division) -/

/-- R141, R142 laws 1, 4 and 5: the remainder does not depend on the divisor's first exponent, an exponent counts modulo
255, a zero dividend leaves a zero remainder, and a dividend shorter than the divisor's degree is returned shifted and
padded with zeros on the left. For any contents of the tables. -/
def Obligations.RemainderLawsOfTheDivision : Prop :=
  ∀ (t : GfTables) (a : List Byte) (shift : Nat),
    (∀ (e e' : Byte) (es : List Byte), divRem t a shift (e :: es) = divRem t a shift (e' :: es))
      ∧ (∀ es : List Byte, divRem t a shift (es.map fun x => if x = 255 then 0 else x) = divRem t a shift es)
      ∧ (∀ es : List Byte, (∀ x ∈ a, x = 0) → divRem t a shift es = List.replicate (es.length - 1) 0)
      ∧ (∀ (e : Byte) (es : List Byte), a.length + shift ≤ es.length → divRem t a shift (e :: es)
        = List.replicate (es.length - (a.length + shift)) 0 ++ (a ++ List.replicate shift 0))

/-- R142 law 2: with the tables built and a monic divisor, the remainder is the one R of degree below b_deg for which
the shifted dividend is q·D + R. -/
def Obligations.DivisionGivesTheUniqueRemainder : Prop :=
  ∀ s : State, TablesOk s → s.status.gfValid = true → ∀ (a : List Byte) (shift : Nat) (es : List Byte),
    es.length ≤ a.length + shift →
    (divRem s.gf a shift (0 :: es)).length = es.length
      ∧ (∃ q, a ++ List.replicate shift 0
        = quotientTimesPlus (fromExponents (0 :: es)) q (divRem s.gf a shift (0 :: es)))
      ∧ (∀ q r, r.length = es.length → a ++ List.replicate shift 0 = quotientTimesPlus (fromExponents (0 :: es)) q r →
        r = divRem s.gf a shift (0 :: es))

/-- R146: POLY_DIV, its operands written and in range, writes the remainder to BUF_OUT[0..B_DEG−1] and OUT_LEN = B_DEG; no
other byte and no other state changes, but WORK, whose contents are unspecified (R43, log 5). -/
def Obligations.PolyDivWritesTheRemainder : Prop :=
  ∀ (aDeg bDeg aShift : Nat) (s : State) (a e : List Byte), s.status.gfValid = true →
    1 ≤ bDeg → bDeg ≤ 68 → aDeg + 1 + aShift ≤ 191 →
    a.length = aDeg + 1 → (∀ k ≤ aDeg, s.mem.read (0x0100 + k) = some (a.getD k 0)) →
    e.length = bDeg + 1 → (∀ k ≤ bDeg, s.mem.read (0x0200 + k) = some (e.getD k 0)) →
    ∃ t, exec (.polyDiv aDeg bDeg aShift) s = .next t
      ∧ t = { s with
        mem := t.mem, work := t.work, draws := t.draws, outLen := BitVec.ofNat 16 bDeg
        status := successStatus s.status }
      ∧ (∀ k < bDeg, t.mem.read (0x0300 + k) = some ((divRem s.gf a aShift e).getD k 0))
      ∧ (∀ x, (x < 0x0300 ∨ 0x0300 + bDeg ≤ x) → t.mem.read x = s.mem.read x)

/-- R150, R151: ECC_ENCODE, its message written and its operands in range, writes ECC_COUNT bytes to BUF_OUT that make
message ‖ ECC a codeword with the roots α^0..α^(ECC_COUNT−1); no other byte and no other state changes, but WORK. -/
def Obligations.EccEncodeGivesACodeword : Prop :=
  ∀ (msgLen eccCount : Nat) (s : State) (m : List Byte), TablesOk s → StatusOk s → s.status.genValid = true →
    1 ≤ eccCount → eccCount ≤ 68 → 1 ≤ msgLen → msgLen + eccCount ≤ 191 →
    m.length = msgLen → (∀ k < msgLen, s.mem.read (0x0100 + k) = some (m.getD k 0)) →
    ∃ t ecc, exec (.eccEncode msgLen eccCount) s = .next t ∧ ecc.length = eccCount
      ∧ t = { s with
        mem := t.mem, work := t.work, draws := t.draws, outLen := BitVec.ofNat 16 eccCount
        status := successStatus s.status }
      ∧ (∀ k < eccCount, t.mem.read (0x0300 + k) = some (ecc.getD k 0))
      ∧ (∀ x, (x < 0x0300 ∨ 0x0300 + eccCount ≤ x) → t.mem.read x = s.mem.read x)
      ∧ (∀ i < eccCount, polyEval (m ++ ecc) (alpha i) = 0)

/-- R150: ECC_ENCODE is POLY_DIV of the message by the generator's row in BUF_B, shifted by ECC_COUNT: the same bytes in
BUF_OUT and the same OUT_LEN. That WORK is also the same, which R43 leaves unspecified, and the count of draws, is the
model's choice: the same free values at the same count (log 4, log 5). -/
def Obligations.EccEncodeIsDivisionByTheGenerator : Prop :=
  ∀ (msgLen eccCount : Nat) (s : State), s.status.gfValid = true → s.status.genValid = true →
    1 ≤ eccCount → eccCount ≤ 68 → 1 ≤ msgLen → msgLen + eccCount ≤ 191 →
    (∀ k < msgLen, (s.mem.read (0x0100 + k)).isSome) →
    (∀ j ≤ eccCount, s.mem.read (0x0200 + j) = some (genAt s.gen eccCount j)) →
    ∃ t, exec (.eccEncode msgLen eccCount) s = .next t
      ∧ exec (.polyDiv (msgLen - 1) eccCount eccCount) s = .next t

/-! ## Interleaving (43_interleaver) -/

/-- R172: the laws of the block geometry, for all 160 versions and levels. -/
def Obligations.BlockGeometryKeepsItsLaws : Prop :=
  ∀ v, 1 ≤ v → v ≤ 40 → ∀ l : Level,
    (blockSpec v l).g1b * (blockSpec v l).g1w + (blockSpec v l).g2b * (blockSpec v l).g2w = (blockSpec v l).capacity
      ∧ (0 < (blockSpec v l).g2b → (blockSpec v l).g2w = (blockSpec v l).g1w + 1)
      ∧ (blockSpec v l).g1b * ((blockSpec v l).g1w + (blockSpec v l).ecc)
        + (blockSpec v l).g2b * ((blockSpec v l).g2w + (blockSpec v l).ecc) = totalCodewords v
      ∧ 1 ≤ (blockSpec v l).g1b ∧ 7 ≤ (blockSpec v l).ecc ∧ (blockSpec v l).ecc ≤ 30
      ∧ (blockSpec v l).g1w + (blockSpec v l).ecc ≤ 153 ∧ (blockSpec v l).g2w + (blockSpec v l).ecc ≤ 153

/-- R173, R174: INTERLEAVE, its data written and their number the capacity, completes with STREAM_LEN = OUT_LEN = TOTAL_CW,
fills STREAM[0..TOTAL_CW−1], and changes no other byte and no other state but WORK. -/
def Obligations.InterleaveFillsTheStream : Prop :=
  ∀ (v : Nat) (l : Level) (s : State), s.status.genValid = true → 1 ≤ v → v ≤ 40 →
    s.dataLen.toNat = (blockSpec v l).capacity → (∀ k < s.dataLen.toNat, (s.mem.read (0x1000 + k)).isSome) →
    ∃ t, exec (.interleave v l) s = .next t
      ∧ t = { s with
        mem := t.mem, work := t.work, draws := t.draws
        streamLen := BitVec.ofNat 12 (totalCodewords v), outLen := BitVec.ofNat 16 (totalCodewords v)
        status := successStatus s.status }
      ∧ t.streamLen.toNat = totalCodewords v ∧ t.outLen.toNat = totalCodewords v
      ∧ (∀ q < totalCodewords v, (t.mem.read (0x2000 + q)).isSome)
      ∧ (∀ x, (x < 0x2000 ∨ 0x2000 + totalCodewords v ≤ x) → t.mem.read x = s.mem.read x)

/-- R175: where each data byte and each ECC byte of each block stands in the stream. -/
def Obligations.InterleavePlacesEveryByte : Prop :=
  ∀ (v : Nat) (l : Level) (s : State) (data : List Byte), s.status.genValid = true → 1 ≤ v → v ≤ 40 →
    data.length = (blockSpec v l).capacity → s.dataLen.toNat = data.length →
    (∀ k < data.length, s.mem.read (0x1000 + k) = some (data.getD k 0)) →
    ∃ t, exec (.interleave v l) s = .next t ∧ ∀ b < (blockSpec v l).blocks,
      (∀ i < (blockSpec v l).g1w, t.mem.read (0x2000 + (i * (blockSpec v l).blocks + b))
          = some (data.getD (blockStart (blockSpec v l) b + i) 0))
        ∧ ((blockSpec v l).g1b ≤ b →
          t.mem.read (0x2000 + ((blockSpec v l).g1w * (blockSpec v l).blocks + (b - (blockSpec v l).g1b)))
            = some (data.getD (blockStart (blockSpec v l) b + (blockSpec v l).g1w) 0))
        ∧ (∀ i < (blockSpec v l).ecc,
          t.mem.read (0x2000 + ((blockSpec v l).capacity + i * (blockSpec v l).blocks + b))
            = some ((eccOf s.gf s.gen ((data.drop (blockStart (blockSpec v l) b)).take (blockLength (blockSpec v l) b))
                (blockSpec v l).ecc).getD i 0))

/-! ## The symbol matrix (44_matrix) -/

/-- R201, R229: BUILD_MATRIX, with a stream of TOTAL_CW(v) written bytes, completes; GRID holds the side × side cells of
the finished grid, row after row, and each is 0 or 1; no byte outside GRID and no other state but GRID_SIDE and OUT_LEN
changes. -/
def Obligations.BuildMatrixGivesABinaryGrid : Prop :=
  ∀ (v : Nat) (l : Level) (m : Nat) (s : State) (stream : List Byte), 1 ≤ v → v ≤ 40 → m < 8 →
    s.streamLen.toNat = totalCodewords v → stream.length = totalCodewords v →
    (∀ k < totalCodewords v, s.mem.read (0x2000 + k) = some (stream.getD k 0)) →
    ∃ t, exec (.buildMatrix v l m) s = .next t
      ∧ t = { s with
        mem := t.mem, gridSide := BitVec.ofNat 8 (4 * v + 17)
        outLen := BitVec.ofNat 16 ((4 * v + 17) * (4 * v + 17)), status := successStatus s.status }
      ∧ (∀ r < 4 * v + 17, ∀ c < 4 * v + 17,
        t.mem.read (0x4000 + (r * (4 * v + 17) + c)) = some ((buildGrid v l m stream).get r c)
          ∧ ((buildGrid v l m stream).get r c = 0 ∨ (buildGrid v l m stream).get r c = 1))
      ∧ (∀ x, (x < 0x4000 ∨ 0x4000 + 177 * 177 ≤ x) → t.mem.read x = s.mem.read x)

/-- R227: the grid depends on the operands and the stream only, never on earlier GRID contents or on the tables. -/
def Obligations.GridDependsOnOperandsAndStreamOnly : Prop :=
  ∀ (v : Nat) (l : Level) (m : Nat) (s s' : State), 1 ≤ v → v ≤ 40 → m < 8 →
    s.streamLen.toNat = totalCodewords v → s'.streamLen.toNat = totalCodewords v →
    (∀ k < totalCodewords v, (s.mem.read (0x2000 + k)).isSome ∧ s.mem.read (0x2000 + k) = s'.mem.read (0x2000 + k)) →
    ∃ t t', exec (.buildMatrix v l m) s = .next t ∧ exec (.buildMatrix v l m) s' = .next t'
      ∧ t.gridSide = t'.gridSide ∧ t.outLen = t'.outLen
      ∧ (∀ k < (4 * v + 17) * (4 * v + 17), t.mem.read (0x4000 + k) = t'.mem.read (0x4000 + k))

/-- R203–R205, R209: the finders, the separators, the dark module and the timing strips stand in the finished grid. -/
def Obligations.FunctionPatternsStandInTheGrid : Prop :=
  ∀ (v : Nat) (l : Level) (m : Nat) (stream : List Byte), 1 ≤ v → v ≤ 40 → m < 8 →
    let g := buildGrid v l m stream
    let side := 4 * v + 17
    (∀ p ∈ [(0, 0), (0, side - 7), (side - 7, 0)], ∀ i < 7, ∀ j < 7,
        g.get (p.1 + i) (p.2 + j)
          = if (i = 1 ∨ i = 5 ∨ j = 1 ∨ j = 5) ∧ 1 ≤ i ∧ i ≤ 5 ∧ 1 ≤ j ∧ j ≤ 5 then 0 else 1)
      ∧ (∀ k < 8, g.get 7 k = 0 ∧ g.get k 7 = 0 ∧ g.get 7 (side - 1 - k) = 0 ∧ g.get k (side - 8) = 0
        ∧ g.get (side - 8) k = 0 ∧ g.get (side - 1 - k) 7 = 0)
      ∧ g.get (side - 8) 8 = 1
      ∧ (∀ k, 8 ≤ k → k < side - 8 → g.get 6 k = (if k % 2 = 0 then 1 else 0) ∧ g.get k 6 = (if k % 2 = 0 then 1 else 0))

/-- R211, R213, R214: the version word (v ≥ 7) and both copies of the format word stand in the finished grid. -/
def Obligations.VersionAndFormatWordsStandInTheGrid : Prop :=
  ∀ (v : Nat) (l : Level) (m : Nat) (stream : List Byte), 1 ≤ v → v ≤ 40 → m < 8 →
    let g := buildGrid v l m stream
    let side := 4 * v + 17
    let f := fun i => cellOf ((formatInfo l m).getLsbD i)
    (7 ≤ v → ∀ i < 18, g.get (side - 11 + i % 3) (i / 3) = cellOf ((versionInfo v).getLsbD i)
        ∧ g.get (i / 3) (side - 11 + i % 3) = cellOf ((versionInfo v).getLsbD i))
      ∧ (∀ i < 6, g.get i 8 = f i) ∧ g.get 7 8 = f 6 ∧ g.get 8 8 = f 7 ∧ g.get 8 7 = f 8
      ∧ (∀ i, 9 ≤ i → i < 15 → g.get 8 (14 - i) = f i)
      ∧ (∀ i < 8, g.get 8 (side - 1 - i) = f i) ∧ (∀ i, 8 ≤ i → i < 15 → g.get (side - 15 + i) 8 = f i)

/-- R206, R207: the alignment coordinates follow R207's closed form, version 1 has none, and the alignment patterns stand
in the finished grid at every pair of them but the three at the finders. -/
def Obligations.AlignmentPatternsStandInTheGrid : Prop :=
  align 1 = []
    ∧ (∀ v, 2 ≤ v → v ≤ 40 →
      let k := v / 7 + 2
      let step := if v = 32 then 26 else 2 * ((4 * v + 2 * k + 1) / (2 * k - 2))
      (align v).length = k ∧ (align v).getD 0 0 = 6 ∧ (align v).getD (k - 1) 0 = 4 * v + 10
        ∧ ∀ i, 1 ≤ i → i < k → (align v).getD i 0 = 4 * v + 10 - step * (k - 1 - i))
    ∧ ∀ (v : Nat) (l : Level) (m : Nat) (stream : List Byte), 1 ≤ v → v ≤ 40 → m < 8 →
      ∀ r ∈ align v, ∀ c ∈ align v, ¬ ((r = 6 ∧ c = 6) ∨ (r = 6 ∧ c = 4 * v + 10) ∨ (r = 4 * v + 10 ∧ c = 6)) →
      ∀ i < 5, ∀ j < 5, (buildGrid v l m stream).get (r - 2 + i) (c - 2 + j)
        = if (i = 1 ∨ i = 3 ∨ j = 1 ∨ j = 3) ∧ 1 ≤ i ∧ i ≤ 3 ∧ 1 ≤ j ∧ j ≤ 3 then 0 else 1

/-- R220–R223: ORDER holds exactly the cells of the grid that phases A–C leave unset, none of column 6, none twice, in
the order of the scan, and its cell at position idx holds the stream's bit, or 0 after its end, masked by R221's
predicate. -/
def Obligations.DataCellsHoldTheMaskedStream : Prop :=
  ∀ (v : Nat) (l : Level) (m : Nat) (stream : List Byte), 1 ≤ v → v ≤ 40 → m < 8 →
    let side := 4 * v + 17
    let order := dataOrder (functionGrid v l m)
    let inverted := fun r c : Nat =>
      (m = 0 ∧ (r + c) % 2 = 0) ∨ (m = 1 ∧ r % 2 = 0) ∨ (m = 2 ∧ c % 3 = 0) ∨ (m = 3 ∧ (r + c) % 3 = 0)
        ∨ (m = 4 ∧ (r / 2 + c / 3) % 2 = 0) ∨ (m = 5 ∧ (r * c) % 2 + (r * c) % 3 = 0)
        ∨ (m = 6 ∧ ((r * c) % 2 + (r * c) % 3) % 2 = 0) ∨ (m = 7 ∧ ((r + c) % 2 + (r * c) % 3) % 2 = 0)
    (∀ r c, (r, c) ∈ order ↔ r < side ∧ c < side ∧ (functionGrid v l m).get r c = 2)
      ∧ (∀ r c, (r, c) ∈ order → c ≠ 6)
      ∧ order.Nodup ∧ order.Pairwise (fun p q => scanPosition side p < scanPosition side q)
      ∧ ∀ idx (h : idx < order.length), (buildGrid v l m stream).get order[idx].1 order[idx].2
        = cellOf ((if idx < 8 * totalCodewords v then (stream.getD (idx / 8) 0).getLsbD (7 - idx % 8) else false)
            ^^ decide (inverted order[idx].1 order[idx].2))

/-- R223, R225, R226: the number of data cells of every version, with its whole codewords and its remainder bits. -/
def Obligations.RemainderBitsOfEveryVersion : Prop :=
  ∀ v, 1 ≤ v → v ≤ 40 → (∀ (l : Level) (m : Nat), m < 8 → (dataOrder (functionGrid v l m)).length = rawCells v)
    ∧ rawCells v = 8 * totalCodewords v + remainderBits v
    ∧ remainderBits v = rawCells v % 8 ∧ remainderBits v =
    if v = 1 then 0 else if v ≤ 6 then 7 else if v ≤ 13 then 0 else if v ≤ 20 then 3 else if v ≤ 27 then 4
    else if v ≤ 34 then 3 else 0

/-- R212, R215: the version and format words are those of their BCH codes: the data bits are in place, and the word
(the format word less its mask 0x5412) is a multiple of the code's generator. -/
def Obligations.VersionAndFormatWordsAreBchWords : Prop :=
  (∀ v, 7 ≤ v → v ≤ 40 → (versionInfo v).toNat / 2 ^ 12 = v
      ∧ ∃ q < 2 ^ 6, (List.range 6).foldl (fun acc i => acc ^^^ (if q.testBit i then 0x1F25 <<< i else 0)) 0
        = (versionInfo v).toNat)
    ∧ (∀ (l : Level) (m : Nat), m < 8 → ((formatInfo l m).toNat ^^^ 0x5412) / 2 ^ 10
        = (match l with | .low => 1 | .medium => 0 | .quartile => 3 | .high => 2) * 8 + m
      ∧ ∃ q < 2 ^ 5, (List.range 5).foldl (fun acc i => acc ^^^ (if q.testBit i then 0x537 <<< i else 0)) 0
        = (formatInfo l m).toNat ^^^ 0x5412)

/-! ## Invariants -/

/-- The reset state meets the three invariants. -/
def Obligations.ResetMeetsTheInvariants : Prop :=
  StatusOk State.reset ∧ TablesOk State.reset ∧ MemoryOk State.reset

/-- R23, R24, R45, R261: every step keeps what the spec says of STATUS, CMD and PEND in every state. -/
def Obligations.StepKeepsStatusOk : Prop :=
  ∀ s t : State, StatusOk s → step s = .next t → StatusOk t

/-- R24, R40–R42: every step keeps the tables built while their valid bit is 1 and without values before. -/
def Obligations.StepKeepsTablesOk : Prop :=
  ∀ s t : State, TablesOk s → step s = .next t → TablesOk t

/-- R61, R70: every step keeps every partial map canonical and inside its range. -/
def Obligations.StepKeepsMemoryOk : Prop :=
  ∀ s t : State, MemoryOk s → step s = .next t → MemoryOk t
end

