-- ==== Sys2Proof/Laws/Encoding.lean ====
section
/-! SUPPORT. Fields of command words as arithmetic, and the masks of the opcode map (30_encoding R81, R83). -/

namespace Sys2Proof

theorem field_eq (w : Word) (lo len : Nat) : field w lo len = w.toNat / 2 ^ lo % 2 ^ len := by
  simp [field, BitVec.extractLsb'_toNat, Nat.shiftRight_eq_div_pow]

/-- Fields inside their widths leave no carry: the word's number is their sum. -/
theorem fieldsWord_toNat (opc f8 f16 f24 : Nat) (h0 : opc < 256) (h8 : f8 < 256) (h16 : f16 < 256) (h24 : f24 < 256) :
    (fieldsWord opc f8 f16 f24).toNat = opc + f8 * 2 ^ 8 + f16 * 2 ^ 16 + f24 * 2 ^ 24 := by
  rw [fieldsWord, BitVec.toNat_ofNat, Nat.mod_eq_of_lt (by omega)]

theorem low_and_high (n k : Nat) (hk : 8 ≤ k) (hn : n < 2 ^ 32) :
    n &&& (2 ^ 32 - 2 ^ k + 255) = n % 256 + n / 2 ^ k * 2 ^ k ∨ 32 < k := by
  by_cases h : k ≤ 32
  · left
    apply Nat.eq_of_testBit_eq
    intro i
    have e1 : (2 ^ 32 - 2 ^ k + 255 : Nat) = 2 ^ k * (2 ^ (32 - k) - 1) + 255 := by
      rw [Nat.mul_sub, ← Nat.pow_add, Nat.add_sub_cancel' h, Nat.mul_one]
    have e2 : n % 256 + n / 2 ^ k * 2 ^ k = 2 ^ k * (n / 2 ^ k) + n % 256 := by rw [Nat.mul_comm, Nat.add_comm]
    have hp : 256 ≤ 2 ^ k := Nat.pow_le_pow_right (n := 2) (by omega) hk
    rw [Nat.testBit_and, e1, e2, Nat.testBit_two_pow_mul_add _ (by omega), Nat.testBit_two_pow_mul_add _ (by omega)]
    by_cases hi : i < k
    · rw [if_pos hi, if_pos hi]
      rw [show (255 : Nat) = 2 ^ 8 - 1 by decide, show (256 : Nat) = 2 ^ 8 by decide,
        Nat.testBit_two_pow_sub_one, Nat.testBit_mod_two_pow, Bool.and_comm]
    · rw [if_neg hi, if_neg hi, Nat.testBit_two_pow_sub_one, Nat.testBit_div_two_pow]
      by_cases h32 : i - k < 32 - k
      · simp [h32, show i - k + k = i by omega]
      · have : n.testBit i = false := Nat.testBit_lt_two_pow (Nat.lt_of_lt_of_le hn (Nat.pow_le_pow_right (by omega) (by omega)))
        simp [this, show i - k + k = i by omega]
  · right; omega

/-- A row whose mask is OPC and the bits from k up selects the words with that OPC and zeros from bit k up. -/
theorem rowSelects_high (name : String) (k opc : Nat) (build : Word → Instr) (w : Word) (hk : 8 ≤ k) (hk' : k ≤ 32)
    (ho : opc < 256) :
    rowSelects ⟨name, BitVec.ofNat 32 (2 ^ 32 - 2 ^ k + 255), BitVec.ofNat 32 opc, build⟩ w = true
      ↔ w.toNat % 256 = opc ∧ w.toNat / 2 ^ k = 0 := by
  have hp : 256 ≤ 2 ^ k := Nat.pow_le_pow_right (n := 2) (by omega) hk
  have hp' : 2 ^ k ≤ 2 ^ 32 := Nat.pow_le_pow_right (n := 2) (by omega) hk'
  have hw := w.isLt
  have hm : (2 ^ 32 - 2 ^ k + 255) < 2 ^ 32 := by omega
  rw [rowSelects, beq_iff_eq, ← BitVec.toNat_inj, BitVec.toNat_and, BitVec.toNat_ofNat, BitVec.toNat_ofNat,
    Nat.mod_eq_of_lt hm, Nat.mod_eq_of_lt (show opc < 2 ^ 32 by omega),
    (low_and_high w.toNat k hk hw).resolve_right (by omega)]
  constructor
  · intro h
    have : w.toNat / 2 ^ k = 0 := by
      rcases Nat.eq_zero_or_pos (w.toNat / 2 ^ k) with h0 | hpos
      · exact h0
      · have := Nat.le_mul_of_pos_left (2 ^ k) hpos
        omega
    rw [this] at h
    exact ⟨by omega, this⟩
  · rintro ⟨h1, h2⟩
    rw [h2]
    omega

theorem Level.code_lt (l : Level) : l.code < 4 := by cases l <;> decide

end Sys2Proof
end

