-- ==== Sys2Proof/Laws/State.lean ====
section
/-! SUPPORT. One lemma for each field of State under each named update, and for each field of STATUS under each of its
updates, so that no proof unfolds an update. -/

namespace Sys2Proof.Machine

/-! ### State.setStatus -/

@[simp] theorem State.setStatus_cmd (st : Status) (s : State) : (s.setStatus st).cmd = s.cmd := rfl
@[simp] theorem State.setStatus_status (st : Status) (s : State) : (s.setStatus st).status = st := rfl
@[simp] theorem State.setStatus_result (st : Status) (s : State) : (s.setStatus st).result = s.result := rfl
@[simp] theorem State.setStatus_irqEn (st : Status) (s : State) : (s.setStatus st).irqEn = s.irqEn := rfl
@[simp] theorem State.setStatus_dataLen (st : Status) (s : State) : (s.setStatus st).dataLen = s.dataLen := rfl
@[simp] theorem State.setStatus_streamLen (st : Status) (s : State) : (s.setStatus st).streamLen = s.streamLen := rfl
@[simp] theorem State.setStatus_outLen (st : Status) (s : State) : (s.setStatus st).outLen = s.outLen := rfl
@[simp] theorem State.setStatus_gridSide (st : Status) (s : State) : (s.setStatus st).gridSide = s.gridSide := rfl
@[simp] theorem State.setStatus_mem (st : Status) (s : State) : (s.setStatus st).mem = s.mem := rfl
@[simp] theorem State.setStatus_gf (st : Status) (s : State) : (s.setStatus st).gf = s.gf := rfl
@[simp] theorem State.setStatus_gen (st : Status) (s : State) : (s.setStatus st).gen = s.gen := rfl
@[simp] theorem State.setStatus_work (st : Status) (s : State) : (s.setStatus st).work = s.work := rfl
@[simp] theorem State.setStatus_pend (st : Status) (s : State) : (s.setStatus st).pend = s.pend := rfl
@[simp] theorem State.setStatus_rst (st : Status) (s : State) : (s.setStatus st).rst = s.rst := rfl
@[simp] theorem State.setStatus_inputs (st : Status) (s : State) : (s.setStatus st).inputs = s.inputs := rfl
@[simp] theorem State.setStatus_engineDelay (st : Status) (s : State) :
    (s.setStatus st).engineDelay = s.engineDelay := rfl
@[simp] theorem State.setStatus_draws (st : Status) (s : State) : (s.setStatus st).draws = s.draws := rfl
@[simp] theorem State.setStatus_lastRead (st : Status) (s : State) : (s.setStatus st).lastRead = s.lastRead := rfl

/-! ### State.setResult -/

@[simp] theorem State.setResult_cmd (v : Byte) (s : State) : (s.setResult v).cmd = s.cmd := rfl
@[simp] theorem State.setResult_status (v : Byte) (s : State) : (s.setResult v).status = s.status := rfl
@[simp] theorem State.setResult_result (v : Byte) (s : State) : (s.setResult v).result = v := rfl
@[simp] theorem State.setResult_irqEn (v : Byte) (s : State) : (s.setResult v).irqEn = s.irqEn := rfl
@[simp] theorem State.setResult_dataLen (v : Byte) (s : State) : (s.setResult v).dataLen = s.dataLen := rfl
@[simp] theorem State.setResult_streamLen (v : Byte) (s : State) : (s.setResult v).streamLen = s.streamLen := rfl
@[simp] theorem State.setResult_outLen (v : Byte) (s : State) : (s.setResult v).outLen = s.outLen := rfl
@[simp] theorem State.setResult_gridSide (v : Byte) (s : State) : (s.setResult v).gridSide = s.gridSide := rfl
@[simp] theorem State.setResult_mem (v : Byte) (s : State) : (s.setResult v).mem = s.mem := rfl
@[simp] theorem State.setResult_gf (v : Byte) (s : State) : (s.setResult v).gf = s.gf := rfl
@[simp] theorem State.setResult_gen (v : Byte) (s : State) : (s.setResult v).gen = s.gen := rfl
@[simp] theorem State.setResult_work (v : Byte) (s : State) : (s.setResult v).work = s.work := rfl
@[simp] theorem State.setResult_pend (v : Byte) (s : State) : (s.setResult v).pend = s.pend := rfl
@[simp] theorem State.setResult_rst (v : Byte) (s : State) : (s.setResult v).rst = s.rst := rfl
@[simp] theorem State.setResult_inputs (v : Byte) (s : State) : (s.setResult v).inputs = s.inputs := rfl
@[simp] theorem State.setResult_engineDelay (v : Byte) (s : State) :
    (s.setResult v).engineDelay = s.engineDelay := rfl
@[simp] theorem State.setResult_draws (v : Byte) (s : State) : (s.setResult v).draws = s.draws := rfl
@[simp] theorem State.setResult_lastRead (v : Byte) (s : State) : (s.setResult v).lastRead = s.lastRead := rfl

/-! ### State.setStreamLen -/

@[simp] theorem State.setStreamLen_cmd (n : Nat) (s : State) : (s.setStreamLen n).cmd = s.cmd := rfl
@[simp] theorem State.setStreamLen_status (n : Nat) (s : State) : (s.setStreamLen n).status = s.status := rfl
@[simp] theorem State.setStreamLen_result (n : Nat) (s : State) : (s.setStreamLen n).result = s.result := rfl
@[simp] theorem State.setStreamLen_irqEn (n : Nat) (s : State) : (s.setStreamLen n).irqEn = s.irqEn := rfl
@[simp] theorem State.setStreamLen_dataLen (n : Nat) (s : State) : (s.setStreamLen n).dataLen = s.dataLen := rfl
@[simp] theorem State.setStreamLen_streamLen (n : Nat) (s : State) :
    (s.setStreamLen n).streamLen = BitVec.ofNat 12 n := rfl
@[simp] theorem State.setStreamLen_outLen (n : Nat) (s : State) : (s.setStreamLen n).outLen = s.outLen := rfl
@[simp] theorem State.setStreamLen_gridSide (n : Nat) (s : State) : (s.setStreamLen n).gridSide = s.gridSide := rfl
@[simp] theorem State.setStreamLen_mem (n : Nat) (s : State) : (s.setStreamLen n).mem = s.mem := rfl
@[simp] theorem State.setStreamLen_gf (n : Nat) (s : State) : (s.setStreamLen n).gf = s.gf := rfl
@[simp] theorem State.setStreamLen_gen (n : Nat) (s : State) : (s.setStreamLen n).gen = s.gen := rfl
@[simp] theorem State.setStreamLen_work (n : Nat) (s : State) : (s.setStreamLen n).work = s.work := rfl
@[simp] theorem State.setStreamLen_pend (n : Nat) (s : State) : (s.setStreamLen n).pend = s.pend := rfl
@[simp] theorem State.setStreamLen_rst (n : Nat) (s : State) : (s.setStreamLen n).rst = s.rst := rfl
@[simp] theorem State.setStreamLen_inputs (n : Nat) (s : State) : (s.setStreamLen n).inputs = s.inputs := rfl
@[simp] theorem State.setStreamLen_engineDelay (n : Nat) (s : State) :
    (s.setStreamLen n).engineDelay = s.engineDelay := rfl
@[simp] theorem State.setStreamLen_draws (n : Nat) (s : State) : (s.setStreamLen n).draws = s.draws := rfl
@[simp] theorem State.setStreamLen_lastRead (n : Nat) (s : State) : (s.setStreamLen n).lastRead = s.lastRead := rfl

/-! ### State.setGridSide -/

@[simp] theorem State.setGridSide_cmd (side : Nat) (s : State) : (s.setGridSide side).cmd = s.cmd := rfl
@[simp] theorem State.setGridSide_status (side : Nat) (s : State) : (s.setGridSide side).status = s.status := rfl
@[simp] theorem State.setGridSide_result (side : Nat) (s : State) : (s.setGridSide side).result = s.result := rfl
@[simp] theorem State.setGridSide_irqEn (side : Nat) (s : State) : (s.setGridSide side).irqEn = s.irqEn := rfl
@[simp] theorem State.setGridSide_dataLen (side : Nat) (s : State) : (s.setGridSide side).dataLen = s.dataLen := rfl
@[simp] theorem State.setGridSide_streamLen (side : Nat) (s : State) :
    (s.setGridSide side).streamLen = s.streamLen := rfl
@[simp] theorem State.setGridSide_outLen (side : Nat) (s : State) : (s.setGridSide side).outLen = s.outLen := rfl
@[simp] theorem State.setGridSide_gridSide (side : Nat) (s : State) : (s.setGridSide side).gridSide = byte side := rfl
@[simp] theorem State.setGridSide_mem (side : Nat) (s : State) : (s.setGridSide side).mem = s.mem := rfl
@[simp] theorem State.setGridSide_gf (side : Nat) (s : State) : (s.setGridSide side).gf = s.gf := rfl
@[simp] theorem State.setGridSide_gen (side : Nat) (s : State) : (s.setGridSide side).gen = s.gen := rfl
@[simp] theorem State.setGridSide_work (side : Nat) (s : State) : (s.setGridSide side).work = s.work := rfl
@[simp] theorem State.setGridSide_pend (side : Nat) (s : State) : (s.setGridSide side).pend = s.pend := rfl
@[simp] theorem State.setGridSide_rst (side : Nat) (s : State) : (s.setGridSide side).rst = s.rst := rfl
@[simp] theorem State.setGridSide_inputs (side : Nat) (s : State) : (s.setGridSide side).inputs = s.inputs := rfl
@[simp] theorem State.setGridSide_engineDelay (side : Nat) (s : State) :
    (s.setGridSide side).engineDelay = s.engineDelay := rfl
@[simp] theorem State.setGridSide_draws (side : Nat) (s : State) : (s.setGridSide side).draws = s.draws := rfl
@[simp] theorem State.setGridSide_lastRead (side : Nat) (s : State) :
    (s.setGridSide side).lastRead = s.lastRead := rfl

/-! ### State.setMem -/

@[simp] theorem State.setMem_cmd (m : Memory) (s : State) : (s.setMem m).cmd = s.cmd := rfl
@[simp] theorem State.setMem_status (m : Memory) (s : State) : (s.setMem m).status = s.status := rfl
@[simp] theorem State.setMem_result (m : Memory) (s : State) : (s.setMem m).result = s.result := rfl
@[simp] theorem State.setMem_irqEn (m : Memory) (s : State) : (s.setMem m).irqEn = s.irqEn := rfl
@[simp] theorem State.setMem_dataLen (m : Memory) (s : State) : (s.setMem m).dataLen = s.dataLen := rfl
@[simp] theorem State.setMem_streamLen (m : Memory) (s : State) : (s.setMem m).streamLen = s.streamLen := rfl
@[simp] theorem State.setMem_outLen (m : Memory) (s : State) : (s.setMem m).outLen = s.outLen := rfl
@[simp] theorem State.setMem_gridSide (m : Memory) (s : State) : (s.setMem m).gridSide = s.gridSide := rfl
@[simp] theorem State.setMem_mem (m : Memory) (s : State) : (s.setMem m).mem = m := rfl
@[simp] theorem State.setMem_gf (m : Memory) (s : State) : (s.setMem m).gf = s.gf := rfl
@[simp] theorem State.setMem_gen (m : Memory) (s : State) : (s.setMem m).gen = s.gen := rfl
@[simp] theorem State.setMem_work (m : Memory) (s : State) : (s.setMem m).work = s.work := rfl
@[simp] theorem State.setMem_pend (m : Memory) (s : State) : (s.setMem m).pend = s.pend := rfl
@[simp] theorem State.setMem_rst (m : Memory) (s : State) : (s.setMem m).rst = s.rst := rfl
@[simp] theorem State.setMem_inputs (m : Memory) (s : State) : (s.setMem m).inputs = s.inputs := rfl
@[simp] theorem State.setMem_engineDelay (m : Memory) (s : State) : (s.setMem m).engineDelay = s.engineDelay := rfl
@[simp] theorem State.setMem_draws (m : Memory) (s : State) : (s.setMem m).draws = s.draws := rfl
@[simp] theorem State.setMem_lastRead (m : Memory) (s : State) : (s.setMem m).lastRead = s.lastRead := rfl

/-! ### State.writeBuffer -/

@[simp] theorem State.writeBuffer_cmd (b : Buffer) (vs : List Byte) (s : State) :
    (s.writeBuffer b vs).cmd = s.cmd := rfl
@[simp] theorem State.writeBuffer_status (b : Buffer) (vs : List Byte) (s : State) :
    (s.writeBuffer b vs).status = s.status := rfl
@[simp] theorem State.writeBuffer_result (b : Buffer) (vs : List Byte) (s : State) :
    (s.writeBuffer b vs).result = s.result := rfl
@[simp] theorem State.writeBuffer_irqEn (b : Buffer) (vs : List Byte) (s : State) :
    (s.writeBuffer b vs).irqEn = s.irqEn := rfl
@[simp] theorem State.writeBuffer_dataLen (b : Buffer) (vs : List Byte) (s : State) :
    (s.writeBuffer b vs).dataLen = s.dataLen := rfl
@[simp] theorem State.writeBuffer_streamLen (b : Buffer) (vs : List Byte) (s : State) :
    (s.writeBuffer b vs).streamLen = s.streamLen := rfl
@[simp] theorem State.writeBuffer_outLen (b : Buffer) (vs : List Byte) (s : State) :
    (s.writeBuffer b vs).outLen = s.outLen := rfl
@[simp] theorem State.writeBuffer_gridSide (b : Buffer) (vs : List Byte) (s : State) :
    (s.writeBuffer b vs).gridSide = s.gridSide := rfl
@[simp] theorem State.writeBuffer_mem (b : Buffer) (vs : List Byte) (s : State) :
    (s.writeBuffer b vs).mem = s.mem.writeBlock b.base vs := rfl
@[simp] theorem State.writeBuffer_gf (b : Buffer) (vs : List Byte) (s : State) : (s.writeBuffer b vs).gf = s.gf := rfl
@[simp] theorem State.writeBuffer_gen (b : Buffer) (vs : List Byte) (s : State) :
    (s.writeBuffer b vs).gen = s.gen := rfl
@[simp] theorem State.writeBuffer_work (b : Buffer) (vs : List Byte) (s : State) :
    (s.writeBuffer b vs).work = s.work := rfl
@[simp] theorem State.writeBuffer_pend (b : Buffer) (vs : List Byte) (s : State) :
    (s.writeBuffer b vs).pend = s.pend := rfl
@[simp] theorem State.writeBuffer_rst (b : Buffer) (vs : List Byte) (s : State) :
    (s.writeBuffer b vs).rst = s.rst := rfl
@[simp] theorem State.writeBuffer_inputs (b : Buffer) (vs : List Byte) (s : State) :
    (s.writeBuffer b vs).inputs = s.inputs := rfl
@[simp] theorem State.writeBuffer_engineDelay (b : Buffer) (vs : List Byte) (s : State) :
    (s.writeBuffer b vs).engineDelay = s.engineDelay := rfl
@[simp] theorem State.writeBuffer_draws (b : Buffer) (vs : List Byte) (s : State) :
    (s.writeBuffer b vs).draws = s.draws := rfl
@[simp] theorem State.writeBuffer_lastRead (b : Buffer) (vs : List Byte) (s : State) :
    (s.writeBuffer b vs).lastRead = s.lastRead := rfl

/-! ### State.installGf -/

@[simp] theorem State.installGf_cmd (t : GfTables) (s : State) : (s.installGf t).cmd = s.cmd := rfl
@[simp] theorem State.installGf_status (t : GfTables) (s : State) :
    (s.installGf t).status = { s.status with gfValid := true } := rfl
@[simp] theorem State.installGf_result (t : GfTables) (s : State) : (s.installGf t).result = s.result := rfl
@[simp] theorem State.installGf_irqEn (t : GfTables) (s : State) : (s.installGf t).irqEn = s.irqEn := rfl
@[simp] theorem State.installGf_dataLen (t : GfTables) (s : State) : (s.installGf t).dataLen = s.dataLen := rfl
@[simp] theorem State.installGf_streamLen (t : GfTables) (s : State) : (s.installGf t).streamLen = s.streamLen := rfl
@[simp] theorem State.installGf_outLen (t : GfTables) (s : State) : (s.installGf t).outLen = s.outLen := rfl
@[simp] theorem State.installGf_gridSide (t : GfTables) (s : State) : (s.installGf t).gridSide = s.gridSide := rfl
@[simp] theorem State.installGf_mem (t : GfTables) (s : State) : (s.installGf t).mem = s.mem := rfl
@[simp] theorem State.installGf_gf (t : GfTables) (s : State) : (s.installGf t).gf = t := rfl
@[simp] theorem State.installGf_gen (t : GfTables) (s : State) : (s.installGf t).gen = s.gen := rfl
@[simp] theorem State.installGf_work (t : GfTables) (s : State) : (s.installGf t).work = s.work := rfl
@[simp] theorem State.installGf_pend (t : GfTables) (s : State) : (s.installGf t).pend = s.pend := rfl
@[simp] theorem State.installGf_rst (t : GfTables) (s : State) : (s.installGf t).rst = s.rst := rfl
@[simp] theorem State.installGf_inputs (t : GfTables) (s : State) : (s.installGf t).inputs = s.inputs := rfl
@[simp] theorem State.installGf_engineDelay (t : GfTables) (s : State) :
    (s.installGf t).engineDelay = s.engineDelay := rfl
@[simp] theorem State.installGf_draws (t : GfTables) (s : State) : (s.installGf t).draws = s.draws := rfl
@[simp] theorem State.installGf_lastRead (t : GfTables) (s : State) : (s.installGf t).lastRead = s.lastRead := rfl

/-! ### State.installGen -/

@[simp] theorem State.installGen_cmd (g : GenTable) (s : State) : (s.installGen g).cmd = s.cmd := rfl
@[simp] theorem State.installGen_status (g : GenTable) (s : State) :
    (s.installGen g).status = { s.status with genValid := true } := rfl
@[simp] theorem State.installGen_result (g : GenTable) (s : State) : (s.installGen g).result = s.result := rfl
@[simp] theorem State.installGen_irqEn (g : GenTable) (s : State) : (s.installGen g).irqEn = s.irqEn := rfl
@[simp] theorem State.installGen_dataLen (g : GenTable) (s : State) : (s.installGen g).dataLen = s.dataLen := rfl
@[simp] theorem State.installGen_streamLen (g : GenTable) (s : State) :
    (s.installGen g).streamLen = s.streamLen := rfl
@[simp] theorem State.installGen_outLen (g : GenTable) (s : State) : (s.installGen g).outLen = s.outLen := rfl
@[simp] theorem State.installGen_gridSide (g : GenTable) (s : State) : (s.installGen g).gridSide = s.gridSide := rfl
@[simp] theorem State.installGen_mem (g : GenTable) (s : State) : (s.installGen g).mem = s.mem := rfl
@[simp] theorem State.installGen_gf (g : GenTable) (s : State) : (s.installGen g).gf = s.gf := rfl
@[simp] theorem State.installGen_gen (g : GenTable) (s : State) : (s.installGen g).gen = g := rfl
@[simp] theorem State.installGen_work (g : GenTable) (s : State) : (s.installGen g).work = s.work := rfl
@[simp] theorem State.installGen_pend (g : GenTable) (s : State) : (s.installGen g).pend = s.pend := rfl
@[simp] theorem State.installGen_rst (g : GenTable) (s : State) : (s.installGen g).rst = s.rst := rfl
@[simp] theorem State.installGen_inputs (g : GenTable) (s : State) : (s.installGen g).inputs = s.inputs := rfl
@[simp] theorem State.installGen_engineDelay (g : GenTable) (s : State) :
    (s.installGen g).engineDelay = s.engineDelay := rfl
@[simp] theorem State.installGen_draws (g : GenTable) (s : State) : (s.installGen g).draws = s.draws := rfl
@[simp] theorem State.installGen_lastRead (g : GenTable) (s : State) : (s.installGen g).lastRead = s.lastRead := rfl

/-! ### State.releaseWork -/

@[simp] theorem State.releaseWork_cmd (s : State) : (s.releaseWork).cmd = s.cmd := rfl
@[simp] theorem State.releaseWork_status (s : State) : (s.releaseWork).status = s.status := rfl
@[simp] theorem State.releaseWork_result (s : State) : (s.releaseWork).result = s.result := rfl
@[simp] theorem State.releaseWork_irqEn (s : State) : (s.releaseWork).irqEn = s.irqEn := rfl
@[simp] theorem State.releaseWork_dataLen (s : State) : (s.releaseWork).dataLen = s.dataLen := rfl
@[simp] theorem State.releaseWork_streamLen (s : State) : (s.releaseWork).streamLen = s.streamLen := rfl
@[simp] theorem State.releaseWork_outLen (s : State) : (s.releaseWork).outLen = s.outLen := rfl
@[simp] theorem State.releaseWork_gridSide (s : State) : (s.releaseWork).gridSide = s.gridSide := rfl
@[simp] theorem State.releaseWork_mem (s : State) : (s.releaseWork).mem = s.mem := rfl
@[simp] theorem State.releaseWork_gf (s : State) : (s.releaseWork).gf = s.gf := rfl
@[simp] theorem State.releaseWork_gen (s : State) : (s.releaseWork).gen = s.gen := rfl
@[simp] theorem State.releaseWork_work (s : State) :
    (s.releaseWork).work = Memory.cells 0 ((List.range workMax).map fun i => Config.freeByte (s.draws + i)) := rfl
@[simp] theorem State.releaseWork_pend (s : State) : (s.releaseWork).pend = s.pend := rfl
@[simp] theorem State.releaseWork_rst (s : State) : (s.releaseWork).rst = s.rst := rfl
@[simp] theorem State.releaseWork_inputs (s : State) : (s.releaseWork).inputs = s.inputs := rfl
@[simp] theorem State.releaseWork_engineDelay (s : State) : (s.releaseWork).engineDelay = s.engineDelay := rfl
@[simp] theorem State.releaseWork_draws (s : State) : (s.releaseWork).draws = s.draws + workMax := rfl
@[simp] theorem State.releaseWork_lastRead (s : State) : (s.releaseWork).lastRead = s.lastRead := rfl

/-! ### State.complete -/

@[simp] theorem State.complete_cmd (n : Nat) (s : State) : (s.complete n).cmd = s.cmd := rfl
@[simp] theorem State.complete_status (n : Nat) (s : State) : (s.complete n).status = s.status.succeed := rfl
@[simp] theorem State.complete_result (n : Nat) (s : State) : (s.complete n).result = s.result := rfl
@[simp] theorem State.complete_irqEn (n : Nat) (s : State) : (s.complete n).irqEn = s.irqEn := rfl
@[simp] theorem State.complete_dataLen (n : Nat) (s : State) : (s.complete n).dataLen = s.dataLen := rfl
@[simp] theorem State.complete_streamLen (n : Nat) (s : State) : (s.complete n).streamLen = s.streamLen := rfl
@[simp] theorem State.complete_outLen (n : Nat) (s : State) : (s.complete n).outLen = BitVec.ofNat 16 n := rfl
@[simp] theorem State.complete_gridSide (n : Nat) (s : State) : (s.complete n).gridSide = s.gridSide := rfl
@[simp] theorem State.complete_mem (n : Nat) (s : State) : (s.complete n).mem = s.mem := rfl
@[simp] theorem State.complete_gf (n : Nat) (s : State) : (s.complete n).gf = s.gf := rfl
@[simp] theorem State.complete_gen (n : Nat) (s : State) : (s.complete n).gen = s.gen := rfl
@[simp] theorem State.complete_work (n : Nat) (s : State) : (s.complete n).work = s.work := rfl
@[simp] theorem State.complete_pend (n : Nat) (s : State) : (s.complete n).pend = s.pend := rfl
@[simp] theorem State.complete_rst (n : Nat) (s : State) : (s.complete n).rst = s.rst := rfl
@[simp] theorem State.complete_inputs (n : Nat) (s : State) : (s.complete n).inputs = s.inputs := rfl
@[simp] theorem State.complete_engineDelay (n : Nat) (s : State) : (s.complete n).engineDelay = s.engineDelay := rfl
@[simp] theorem State.complete_draws (n : Nat) (s : State) : (s.complete n).draws = s.draws := rfl
@[simp] theorem State.complete_lastRead (n : Nat) (s : State) : (s.complete n).lastRead = s.lastRead := rfl

/-! ### State.raiseErr -/

@[simp] theorem State.raiseErr_cmd (c : ErrCode) (s : State) : (s.raiseErr c).cmd = s.cmd := rfl
@[simp] theorem State.raiseErr_status (c : ErrCode) (s : State) : (s.raiseErr c).status = s.status.fail c := rfl
@[simp] theorem State.raiseErr_result (c : ErrCode) (s : State) : (s.raiseErr c).result = 0 := rfl
@[simp] theorem State.raiseErr_irqEn (c : ErrCode) (s : State) : (s.raiseErr c).irqEn = s.irqEn := rfl
@[simp] theorem State.raiseErr_dataLen (c : ErrCode) (s : State) : (s.raiseErr c).dataLen = s.dataLen := rfl
@[simp] theorem State.raiseErr_streamLen (c : ErrCode) (s : State) : (s.raiseErr c).streamLen = s.streamLen := rfl
@[simp] theorem State.raiseErr_outLen (c : ErrCode) (s : State) : (s.raiseErr c).outLen = 0 := rfl
@[simp] theorem State.raiseErr_gridSide (c : ErrCode) (s : State) : (s.raiseErr c).gridSide = s.gridSide := rfl
@[simp] theorem State.raiseErr_mem (c : ErrCode) (s : State) : (s.raiseErr c).mem = s.mem := rfl
@[simp] theorem State.raiseErr_gf (c : ErrCode) (s : State) : (s.raiseErr c).gf = s.gf := rfl
@[simp] theorem State.raiseErr_gen (c : ErrCode) (s : State) : (s.raiseErr c).gen = s.gen := rfl
@[simp] theorem State.raiseErr_work (c : ErrCode) (s : State) : (s.raiseErr c).work = s.work := rfl
@[simp] theorem State.raiseErr_pend (c : ErrCode) (s : State) : (s.raiseErr c).pend = s.pend := rfl
@[simp] theorem State.raiseErr_rst (c : ErrCode) (s : State) : (s.raiseErr c).rst = s.rst := rfl
@[simp] theorem State.raiseErr_inputs (c : ErrCode) (s : State) : (s.raiseErr c).inputs = s.inputs := rfl
@[simp] theorem State.raiseErr_engineDelay (c : ErrCode) (s : State) :
    (s.raiseErr c).engineDelay = s.engineDelay := rfl
@[simp] theorem State.raiseErr_draws (c : ErrCode) (s : State) : (s.raiseErr c).draws = s.draws := rfl
@[simp] theorem State.raiseErr_lastRead (c : ErrCode) (s : State) : (s.raiseErr c).lastRead = s.lastRead := rfl

/-! ### State.latchCommand -/

@[simp] theorem State.latchCommand_cmd (w : Word) (s : State) : (s.latchCommand w).cmd = w := rfl
@[simp] theorem State.latchCommand_status (w : Word) (s : State) :
    (s.latchCommand w).status = s.status.accept w := rfl
@[simp] theorem State.latchCommand_result (w : Word) (s : State) : (s.latchCommand w).result = s.result := rfl
@[simp] theorem State.latchCommand_irqEn (w : Word) (s : State) : (s.latchCommand w).irqEn = s.irqEn := rfl
@[simp] theorem State.latchCommand_dataLen (w : Word) (s : State) : (s.latchCommand w).dataLen = s.dataLen := rfl
@[simp] theorem State.latchCommand_streamLen (w : Word) (s : State) :
    (s.latchCommand w).streamLen = s.streamLen := rfl
@[simp] theorem State.latchCommand_outLen (w : Word) (s : State) : (s.latchCommand w).outLen = s.outLen := rfl
@[simp] theorem State.latchCommand_gridSide (w : Word) (s : State) : (s.latchCommand w).gridSide = s.gridSide := rfl
@[simp] theorem State.latchCommand_mem (w : Word) (s : State) : (s.latchCommand w).mem = s.mem := rfl
@[simp] theorem State.latchCommand_gf (w : Word) (s : State) : (s.latchCommand w).gf = s.gf := rfl
@[simp] theorem State.latchCommand_gen (w : Word) (s : State) : (s.latchCommand w).gen = s.gen := rfl
@[simp] theorem State.latchCommand_work (w : Word) (s : State) : (s.latchCommand w).work = s.work := rfl
@[simp] theorem State.latchCommand_pend (w : Word) (s : State) : (s.latchCommand w).pend = w := rfl
@[simp] theorem State.latchCommand_rst (w : Word) (s : State) : (s.latchCommand w).rst = s.rst := rfl
@[simp] theorem State.latchCommand_inputs (w : Word) (s : State) : (s.latchCommand w).inputs = s.inputs := rfl
@[simp] theorem State.latchCommand_engineDelay (w : Word) (s : State) :
    (s.latchCommand w).engineDelay = s.engineDelay := rfl
@[simp] theorem State.latchCommand_draws (w : Word) (s : State) : (s.latchCommand w).draws = s.draws := rfl
@[simp] theorem State.latchCommand_lastRead (w : Word) (s : State) : (s.latchCommand w).lastRead = s.lastRead := rfl

/-! ### State.acceptCommand -/

@[simp] theorem State.acceptCommand_cmd (w : Word) (s : State) : (s.acceptCommand w).cmd = w := rfl
@[simp] theorem State.acceptCommand_status (w : Word) (s : State) :
    (s.acceptCommand w).status = s.status.accept w := rfl
@[simp] theorem State.acceptCommand_result (w : Word) (s : State) : (s.acceptCommand w).result = s.result := rfl
@[simp] theorem State.acceptCommand_irqEn (w : Word) (s : State) : (s.acceptCommand w).irqEn = s.irqEn := rfl
@[simp] theorem State.acceptCommand_dataLen (w : Word) (s : State) : (s.acceptCommand w).dataLen = s.dataLen := rfl
@[simp] theorem State.acceptCommand_streamLen (w : Word) (s : State) :
    (s.acceptCommand w).streamLen = s.streamLen := rfl
@[simp] theorem State.acceptCommand_outLen (w : Word) (s : State) : (s.acceptCommand w).outLen = s.outLen := rfl
@[simp] theorem State.acceptCommand_gridSide (w : Word) (s : State) : (s.acceptCommand w).gridSide = s.gridSide := rfl
@[simp] theorem State.acceptCommand_mem (w : Word) (s : State) : (s.acceptCommand w).mem = s.mem := rfl
@[simp] theorem State.acceptCommand_gf (w : Word) (s : State) : (s.acceptCommand w).gf = s.gf := rfl
@[simp] theorem State.acceptCommand_gen (w : Word) (s : State) : (s.acceptCommand w).gen = s.gen := rfl
@[simp] theorem State.acceptCommand_work (w : Word) (s : State) : (s.acceptCommand w).work = s.work := rfl
@[simp] theorem State.acceptCommand_pend (w : Word) (s : State) : (s.acceptCommand w).pend = w := rfl
@[simp] theorem State.acceptCommand_rst (w : Word) (s : State) : (s.acceptCommand w).rst = s.rst := rfl
@[simp] theorem State.acceptCommand_inputs (w : Word) (s : State) : (s.acceptCommand w).inputs = s.inputs := rfl
@[simp] theorem State.acceptCommand_engineDelay (w : Word) (s : State) :
    (s.acceptCommand w).engineDelay = Config.engineLatency s.draws := rfl
@[simp] theorem State.acceptCommand_draws (w : Word) (s : State) : (s.acceptCommand w).draws = s.draws + 1 := rfl
@[simp] theorem State.acceptCommand_lastRead (w : Word) (s : State) : (s.acceptCommand w).lastRead = s.lastRead := rfl

/-! ### Status.accept -/

@[simp] theorem Status.accept_busy (w : Word) (st : Status) : (st.accept w).busy = true := rfl
@[simp] theorem Status.accept_done (w : Word) (st : Status) : (st.accept w).done = false := rfl
@[simp] theorem Status.accept_err (w : Word) (st : Status) : (st.accept w).err = false := rfl
@[simp] theorem Status.accept_gfValid (w : Word) (st : Status) : (st.accept w).gfValid = st.gfValid := rfl
@[simp] theorem Status.accept_genValid (w : Word) (st : Status) : (st.accept w).genValid = st.genValid := rfl
@[simp] theorem Status.accept_cmdOvr (w : Word) (st : Status) : (st.accept w).cmdOvr = false := rfl
@[simp] theorem Status.accept_errCode (w : Word) (st : Status) : (st.accept w).errCode = .none := rfl
@[simp] theorem Status.accept_lastOp (w : Word) (st : Status) : (st.accept w).lastOp = w.extractLsb' 0 8 := rfl

/-! ### Status.clear -/

@[simp] theorem Status.clear_busy (w : Word) (st : Status) : (st.clear w).busy = st.busy := rfl
@[simp] theorem Status.clear_done (w : Word) (st : Status) : (st.clear w).done = (st.done && !w.getLsbD 1) := rfl
@[simp] theorem Status.clear_err (w : Word) (st : Status) : (st.clear w).err = (st.err && !w.getLsbD 2) := rfl
@[simp] theorem Status.clear_gfValid (w : Word) (st : Status) : (st.clear w).gfValid = st.gfValid := rfl
@[simp] theorem Status.clear_genValid (w : Word) (st : Status) : (st.clear w).genValid = st.genValid := rfl
@[simp] theorem Status.clear_cmdOvr (w : Word) (st : Status) : (st.clear w).cmdOvr = (st.cmdOvr && !w.getLsbD 5) := rfl
@[simp] theorem Status.clear_errCode (w : Word) (st : Status) : (st.clear w).errCode = st.errCode := rfl
@[simp] theorem Status.clear_lastOp (w : Word) (st : Status) : (st.clear w).lastOp = st.lastOp := rfl

/-! ### Status.overrun -/

@[simp] theorem Status.overrun_busy (st : Status) : (st.overrun).busy = st.busy := rfl
@[simp] theorem Status.overrun_done (st : Status) : (st.overrun).done = st.done := rfl
@[simp] theorem Status.overrun_err (st : Status) : (st.overrun).err = st.err := rfl
@[simp] theorem Status.overrun_gfValid (st : Status) : (st.overrun).gfValid = st.gfValid := rfl
@[simp] theorem Status.overrun_genValid (st : Status) : (st.overrun).genValid = st.genValid := rfl
@[simp] theorem Status.overrun_cmdOvr (st : Status) : (st.overrun).cmdOvr = true := rfl
@[simp] theorem Status.overrun_errCode (st : Status) : (st.overrun).errCode = st.errCode := rfl
@[simp] theorem Status.overrun_lastOp (st : Status) : (st.overrun).lastOp = st.lastOp := rfl

/-! ### Status.succeed -/

@[simp] theorem Status.succeed_busy (st : Status) : (st.succeed).busy = false := rfl
@[simp] theorem Status.succeed_done (st : Status) : (st.succeed).done = true := rfl
@[simp] theorem Status.succeed_err (st : Status) : (st.succeed).err = false := rfl
@[simp] theorem Status.succeed_gfValid (st : Status) : (st.succeed).gfValid = st.gfValid := rfl
@[simp] theorem Status.succeed_genValid (st : Status) : (st.succeed).genValid = st.genValid := rfl
@[simp] theorem Status.succeed_cmdOvr (st : Status) : (st.succeed).cmdOvr = st.cmdOvr := rfl
@[simp] theorem Status.succeed_errCode (st : Status) : (st.succeed).errCode = .none := rfl
@[simp] theorem Status.succeed_lastOp (st : Status) : (st.succeed).lastOp = st.lastOp := rfl

/-! ### Status.fail -/

@[simp] theorem Status.fail_busy (c : ErrCode) (st : Status) : (st.fail c).busy = false := rfl
@[simp] theorem Status.fail_done (c : ErrCode) (st : Status) : (st.fail c).done = false := rfl
@[simp] theorem Status.fail_err (c : ErrCode) (st : Status) : (st.fail c).err = true := rfl
@[simp] theorem Status.fail_gfValid (c : ErrCode) (st : Status) : (st.fail c).gfValid = st.gfValid := rfl
@[simp] theorem Status.fail_genValid (c : ErrCode) (st : Status) : (st.fail c).genValid = st.genValid := rfl
@[simp] theorem Status.fail_cmdOvr (c : ErrCode) (st : Status) : (st.fail c).cmdOvr = st.cmdOvr := rfl
@[simp] theorem Status.fail_errCode (c : ErrCode) (st : Status) : (st.fail c).errCode = c := rfl
@[simp] theorem Status.fail_lastOp (c : ErrCode) (st : Status) : (st.fail c).lastOp = st.lastOp := rfl

end Sys2Proof.Machine
end

