-- ==== Sys2Proof/Laws/Memory.lean ====
section
/-! SUPPORT. The laws of memory: what a read gives after each operation, and that every operation keeps the canonical
form. The read laws hold for every list, canonical or not. -/

namespace Sys2Proof.Machine

/-! ## Reads -/

@[simp] theorem Memory.read_nil (a : Nat) : Memory.read [] a = none := rfl

theorem Memory.read_cons (c : Host.Cell) (m : Memory) (a : Nat) :
    Memory.read (c :: m) a = if c.1 = a then some c.2 else Memory.read m a := rfl

theorem Memory.read_append (m n : Memory) (a : Nat) :
    Memory.read (m ++ n) a = (Memory.read m a).or (Memory.read n a) := by
  induction m with
  | nil => simp
  | cons c m ih =>
    simp only [List.cons_append, Memory.read_cons]
    split <;> simp [ih]

theorem Memory.read_eq_none_of_not_mem (m : Memory) (a : Nat) (h : ∀ c ∈ m, c.1 ≠ a) : Memory.read m a = none := by
  induction m with
  | nil => rfl
  | cons c m ih =>
    rw [Memory.read_cons, if_neg (h c (by simp)), ih fun d hd => h d (by simp [hd])]

theorem Memory.mem_of_read_eq_some (m : Memory) (a : Nat) (v : Byte) (h : Memory.read m a = some v) : (a, v) ∈ m := by
  induction m with
  | nil => cases h
  | cons c m ih =>
    rw [Memory.read_cons] at h
    split at h
    · next hc => cases h; subst hc; simp
    · simp [ih h]

theorem Memory.read_filter (p : Nat → Bool) (m : Memory) (a : Nat) :
    Memory.read (m.filter fun c => p c.1) a = if p a then Memory.read m a else none := by
  induction m with
  | nil => simp
  | cons c m ih =>
    by_cases hc : c.1 = a
    · subst hc
      by_cases hp : p c.1 = true <;> simp [hp, Memory.read_cons, ih]
    · by_cases hp : p c.1 = true <;> simp [hp, Memory.read_cons, hc, ih]

theorem Memory.read_write (m : Memory) (a x : Nat) (v : Byte) :
    (m.write a v).read x = if a = x then some v else m.read x := by
  induction m with
  | nil => rfl
  | cons c m ih =>
    simp only [Memory.write]
    split
    · rw [Memory.read_cons]
    · split
      · next h =>
        subst h
        rw [Memory.read_cons, Memory.read_cons]
        by_cases hx : c.1 = x <;> simp [hx]
      · next h =>
        rw [Memory.read_cons, ih, Memory.read_cons]
        by_cases hx : c.1 = x
        · rw [if_pos hx, if_neg (fun e => h (e.trans hx.symm)), if_pos hx]
        · rw [if_neg hx, if_neg hx]

theorem Memory.mem_cells {base : Nat} {vs : List Byte} {c : Host.Cell} (h : c ∈ Memory.cells base vs) :
    base ≤ c.1 ∧ c.1 < base + vs.length := by
  induction vs generalizing base with
  | nil => simp [Memory.cells] at h
  | cons v vs ih =>
    simp only [Memory.cells, List.mem_cons] at h
    rcases h with rfl | h
    · simp
    · have := ih h
      simp only [List.length_cons]
      omega

theorem Memory.read_cells (base : Nat) (vs : List Byte) (a : Nat) :
    Memory.read (Memory.cells base vs) a = if base ≤ a then vs[a - base]? else none := by
  induction vs generalizing base with
  | nil => simp [Memory.cells]
  | cons v vs ih =>
    rw [Memory.cells, Memory.read_cons, ih]
    rcases Nat.lt_trichotomy base a with h | rfl | h
    · have : a - base = (a - (base + 1)) + 1 := by omega
      rw [if_neg (by simp only; omega), if_pos (by omega), if_pos (by omega), this, List.getElem?_cons_succ]
    · simp
    · rw [if_neg (by simp only; omega), if_neg (by omega), if_neg (by omega)]

/-- A block write: inside the block its bytes, outside what was there. -/
theorem Memory.read_writeBlock (m : Memory) (base : Nat) (vs : List Byte) (a : Nat) :
    (m.writeBlock base vs).read a
      = if base ≤ a ∧ a < base + vs.length then vs[a - base]? else m.read a := by
  rw [Memory.writeBlock, Memory.read_append, Memory.read_append,
    Memory.read_filter (fun k => decide (k < base)), Memory.read_filter (fun k => decide (base + vs.length ≤ k)),
    Memory.read_cells]
  rcases Nat.lt_or_ge a base with h | h
  · simp only [h, decide_true, if_true, show ¬ base ≤ a by omega, show ¬ base + vs.length ≤ a by omega, false_and,
      decide_false, if_false]
    cases m.read a <;> simp
  · rcases Nat.lt_or_ge a (base + vs.length) with h' | h'
    · simp [show ¬ a < base by omega, h, h', show ¬ base + vs.length ≤ a by omega]
    · simp [show ¬ a < base by omega, h, show ¬ a < base + vs.length by omega, h',
        List.getElem?_eq_none (show vs.length ≤ a - base by omega)]

theorem Memory.read_writeBlock_inside (m : Memory) (base : Nat) (vs : List Byte) (k : Nat) (h : k < vs.length) :
    (m.writeBlock base vs).read (base + k) = some (vs.getD k 0) := by
  rw [Memory.read_writeBlock, if_pos (by omega), Nat.add_sub_cancel_left]
  simp [List.getD, h]

theorem Memory.read_writeBlock_outside (m : Memory) (base : Nat) (vs : List Byte) (a : Nat)
    (h : a < base ∨ base + vs.length ≤ a) : (m.writeBlock base vs).read a = m.read a := by
  rw [Memory.read_writeBlock, if_neg (by omega)]

theorem Memory.read_forget (m : Memory) (lo hi a : Nat) :
    (m.forget lo hi).read a = if a < lo ∨ hi ≤ a then m.read a else none := by
  rw [Memory.forget, Memory.read_filter (fun k => decide (k < lo) || decide (hi ≤ k))]
  simp

/-- A block read gives a value exactly when every byte of the block holds one. -/
theorem Memory.readBlock_eq_some_iff (m : Memory) (base n : Nat) (vs : List Byte) :
    m.readBlock base n = some vs ↔ vs.length = n ∧ ∀ k < n, m.read (base + k) = some (vs.getD k 0) := by
  induction n generalizing base vs with
  | zero =>
    simp only [Memory.readBlock, Option.some.injEq, Nat.not_lt_zero, false_imp_iff, implies_true, and_true]
    exact ⟨fun h => by simp [← h], fun h => (List.length_eq_zero_iff.mp h).symm⟩
  | succ n ih =>
    rw [Memory.readBlock]
    constructor
    · intro h
      split at h
      · next v ws hv hws =>
        cases h
        obtain ⟨hl, hk⟩ := (ih (base + 1) ws).mp hws
        refine ⟨by simp [hl], fun k hk' => ?_⟩
        cases k with
        | zero => simpa using hv
        | succ k =>
          have := hk k (by omega)
          rw [show base + (k + 1) = base + 1 + k by omega, this]
          simp [List.getD]
      · cases h
    · rintro ⟨hl, hk⟩
      cases vs with
      | nil => simp at hl
      | cons v ws =>
        have h0 := hk 0 (by omega)
        have hr : m.readBlock (base + 1) n = some ws := by
          refine (ih (base + 1) ws).mpr ⟨by simpa using hl, fun k hk' => ?_⟩
          have := hk (k + 1) (by omega)
          rw [show base + 1 + k = base + (k + 1) by omega, this]
          simp [List.getD]
        simp only [Nat.add_zero] at h0
        rw [h0, hr]
        simp [List.getD]

theorem Memory.readBlock_eq_none_iff (m : Memory) (base n : Nat) :
    m.readBlock base n = none ↔ ∃ k < n, m.read (base + k) = none := by
  induction n generalizing base with
  | zero => simp [Memory.readBlock]
  | succ n ih =>
    rw [Memory.readBlock]
    constructor
    · intro h
      cases hv : m.read base with
      | none => exact ⟨0, by omega, by simpa using hv⟩
      | some v =>
        cases hr : m.readBlock (base + 1) n with
        | none =>
          obtain ⟨k, hk, hn⟩ := (ih (base + 1)).mp hr
          exact ⟨k + 1, by omega, by rw [← hn, Nat.add_right_comm, Nat.add_assoc]⟩
        | some vs => simp [hv, hr] at h
    · rintro ⟨k, hk, hn⟩
      cases k with
      | zero =>
        simp only [Nat.add_zero] at hn
        simp [hn]
      | succ k =>
        have : m.readBlock (base + 1) n = none :=
          (ih (base + 1)).mpr ⟨k, by omega, by rw [← hn, Nat.add_right_comm, Nat.add_assoc]⟩
        cases m.read base <;> simp [this]

/-- Writing the byte a key already holds changes nothing, in the canonical form. -/
theorem Memory.write_eq_self (m : Memory) (a : Nat) (v : Byte) (hm : Memory.wf m) (h : m.read a = some v) :
    m.write a v = m := by
  induction m with
  | nil => cases h
  | cons c m ih =>
    obtain ⟨hc, hm'⟩ := List.pairwise_cons.mp hm
    rw [Memory.read_cons] at h
    rw [Memory.write]
    split at h
    · next e =>
      cases h
      subst e
      simp
    · next e =>
      have := hc _ (Memory.mem_of_read_eq_some m a v h)
      simp only at this
      rw [if_neg (by omega), if_neg (fun e' => e e'.symm), ih hm' h]

/-! ## The canonical form and the range of the keys -/

theorem Memory.mem_write {m : Memory} {a : Nat} {v : Byte} {c : Host.Cell} (h : c ∈ m.write a v) :
    c = (a, v) ∨ c ∈ m := by
  induction m with
  | nil => simpa [Memory.write] using h
  | cons d m ih =>
    simp only [Memory.write] at h
    split at h
    · simpa using h
    · split at h
      · simp only [List.mem_cons] at h ⊢
        rcases h with h | h
        · exact .inl h
        · exact .inr (.inr h)
      · simp only [List.mem_cons] at h ⊢
        rcases h with h | h
        · exact .inr (.inl h)
        · exact (ih h).imp_right .inr

theorem Memory.wf_write {m : Memory} (hm : Memory.wf m) (a : Nat) (v : Byte) : Memory.wf (m.write a v) := by
  induction m with
  | nil => simp [Memory.write, Memory.wf]
  | cons d m ih =>
    obtain ⟨hd, hm'⟩ := List.pairwise_cons.mp hm
    simp only [Memory.write]
    split
    · next h =>
      refine List.pairwise_cons.mpr ⟨fun e he => ?_, hm⟩
      rcases List.mem_cons.mp he with rfl | he
      · exact h
      · exact Nat.lt_trans h (hd e he)
    · split
      · next h => exact List.pairwise_cons.mpr ⟨fun e he => by simpa [h] using hd e he, hm'⟩
      · refine List.pairwise_cons.mpr ⟨fun e he => ?_, ih hm'⟩
        rcases Memory.mem_write he with rfl | he
        · simp only
          omega
        · exact hd e he

theorem Memory.wf_cells (base : Nat) (vs : List Byte) : Memory.wf (Memory.cells base vs) := by
  induction vs generalizing base with
  | nil => simp [Memory.cells, Memory.wf]
  | cons v vs ih =>
    refine List.pairwise_cons.mpr ⟨fun c hc => ?_, ih (base + 1)⟩
    have := Memory.mem_cells hc
    simp only
    omega

theorem Memory.wf_filter {m : Memory} (hm : Memory.wf m) (p : Host.Cell → Bool) : Memory.wf (m.filter p) :=
  List.Pairwise.filter p hm

theorem Memory.mem_writeBlock {m : Memory} {base : Nat} {vs : List Byte} {c : Host.Cell}
    (h : c ∈ m.writeBlock base vs) : (base ≤ c.1 ∧ c.1 < base + vs.length) ∨ c ∈ m := by
  simp only [Memory.writeBlock, List.mem_append, List.mem_filter] at h
  rcases h with h | h | h
  · exact .inr h.1
  · exact .inl (Memory.mem_cells h)
  · exact .inr h.1

theorem Memory.wf_writeBlock {m : Memory} (hm : Memory.wf m) (base : Nat) (vs : List Byte) :
    Memory.wf (m.writeBlock base vs) := by
  refine List.pairwise_append.mpr ⟨Memory.wf_filter hm _, List.pairwise_append.mpr
    ⟨Memory.wf_cells base vs, Memory.wf_filter hm _, fun c hc d hd => ?_⟩, fun c hc d hd => ?_⟩
  · have h1 := Memory.mem_cells hc
    have h2 := (List.mem_filter.mp hd).2
    simp only [decide_eq_true_eq] at h2
    omega
  · have h1 := (List.mem_filter.mp hc).2
    simp only [decide_eq_true_eq] at h1
    rcases List.mem_append.mp hd with hd | hd
    · have h2 := Memory.mem_cells hd
      omega
    · have h2 := (List.mem_filter.mp hd).2
      simp only [decide_eq_true_eq] at h2
      omega

theorem Memory.mem_forget {m : Memory} {lo hi : Nat} {c : Host.Cell} (h : c ∈ m.forget lo hi) : c ∈ m :=
  (List.mem_filter.mp h).1

/-- Memory right after reset is canonical. -/
theorem wf_reset_mem : Memory.wf State.reset.mem := .nil

theorem Memory.wf_forget {m : Memory} (hm : Memory.wf m) (lo hi : Nat) : Memory.wf (m.forget lo hi) :=
  Memory.wf_filter hm _

end Sys2Proof.Machine
end

