-- ==== Sys2Proof/Laws/Gf.lean ====
section
/-! SUPPORT. The loop of GF_INIT, turn by turn, against the field's own doubling (40_gf R100, R101). -/

namespace Sys2Proof.Machine

/-- The machine's doubling is the product with x. -/
theorem gfDouble_eq_timesX : ∀ a : Byte, gfDouble a = timesX a := by decide +kernel

/-- The loop's variable after n turns. -/
theorem gfLoop_x (t : GfTables) (n : Nat) : ((List.range n).foldl gfLoopTurn ⟨1, t⟩).x = alpha n := by
  induction n with
  | zero => rfl
  | succ n ih =>
    rw [List.range_succ, List.foldl_append]
    simp only [List.foldl_cons, List.foldl_nil, gfLoopTurn, ih, gfDouble_eq_timesX]
    rfl

/-- EXP after n turns: the powers of α below n, and what was there from n on. -/
theorem gfLoop_exp (t : GfTables) (n i : Nat) :
    ((List.range n).foldl gfLoopTurn ⟨1, t⟩).tables.exp.read i = if i < n then some (alpha i) else t.exp.read i := by
  induction n with
  | zero => rfl
  | succ n ih =>
    rw [List.range_succ, List.foldl_append]
    simp only [List.foldl_cons, List.foldl_nil, gfLoopTurn, gfLoop_x, Memory.read_write, ih]
    rcases Nat.lt_trichotomy n i with h | rfl | h
    · rw [if_neg (by omega), if_neg (by omega), if_neg (by omega)]
    · rw [if_pos rfl, if_pos (by omega)]
    · rw [if_neg (by omega), if_pos h, if_pos (by omega)]

/-- LOG after one more turn. -/
theorem gfLoop_log_succ (t : GfTables) (n v : Nat) :
    ((List.range (n + 1)).foldl gfLoopTurn ⟨1, t⟩).tables.log.read v
      = if (alpha n).toNat = v then some (byte n)
        else ((List.range n).foldl gfLoopTurn ⟨1, t⟩).tables.log.read v := by
  rw [List.range_succ, List.foldl_append]
  simp only [List.foldl_cons, List.foldl_nil, gfLoopTurn, gfLoop_x, Memory.read_write]

/-- Every turn keeps both tables canonical. -/
theorem gfLoop_wf {t : GfTables} (he : t.exp.wf) (hl : t.log.wf) (n : Nat) :
    ((List.range n).foldl gfLoopTurn ⟨1, t⟩).tables.exp.wf
      ∧ ((List.range n).foldl gfLoopTurn ⟨1, t⟩).tables.log.wf := by
  induction n with
  | zero => exact ⟨he, hl⟩
  | succ n ih =>
    rw [List.range_succ, List.foldl_append]
    exact ⟨Memory.wf_write ih.1 _ _, Memory.wf_write ih.2 _ _⟩

end Sys2Proof.Machine
end

