-- ==== Sys2Proof/Laws/Ops.lean ====
section
/-! SUPPORT. What the shared operations can do, said once: the checks, the operand reads, and each command. -/

namespace Sys2Proof.Machine

/-! ## Checks and operands -/

@[simp] theorem firstError_nil : firstError [] = none := rfl

@[simp] theorem firstError_cons (b : Bool) (c : ErrCode) (rest : List (Bool × ErrCode)) :
    firstError ((b, c) :: rest) = if b then some c else firstError rest := rfl

theorem checked_of_error {checks : List (Bool × ErrCode)} {c : ErrCode} (h : firstError checks = some c) (s : State)
    (body : Host.Outcome State Fault Refusal) : checked checks s body = .next (s.raiseErr c) := by
  simp [checked, h]

theorem checked_of_none {checks : List (Bool × ErrCode)} (h : firstError checks = none) (s : State)
    (body : Host.Outcome State Fault Refusal) : checked checks s body = body := by
  simp [checked, h]

/-- A checked command that answers a next state made the error completion of its first error, or ran its body. -/
theorem checked_cases {checks : List (Bool × ErrCode)} {s t : State} {body : Host.Outcome State Fault Refusal}
    (h : checked checks s body = .next t) :
    (∃ c, firstError checks = some c ∧ t = s.raiseErr c) ∨ (firstError checks = none ∧ body = .next t) := by
  unfold checked at h
  split at h
  · next c hc =>
    cases h
    exact .inl ⟨c, hc, rfl⟩
  · next hc => exact .inr ⟨hc, h⟩

theorem withOperand_of_written {b : Buffer} {n : Nat} {s : State} {vs : List Byte}
    (h : s.mem.readBlock b.base n = some vs) (body : List Byte → Host.Outcome State Fault Refusal) :
    s.withOperand b n body = body vs := by
  simp [State.withOperand, h]

theorem withOperand_of_unwritten {b : Buffer} {n : Nat} {s : State} (h : s.mem.readBlock b.base n = none)
    (body : List Byte → Host.Outcome State Fault Refusal) : s.withOperand b n body = .fault .unwrittenOperand := by
  simp [State.withOperand, h]

/-- An operand read that leads to a next state found every byte written. -/
theorem withOperand_cases {b : Buffer} {n : Nat} {s t : State} {body : List Byte → Host.Outcome State Fault Refusal}
    (h : s.withOperand b n body = .next t) : ∃ vs, s.mem.readBlock b.base n = some vs ∧ body vs = .next t := by
  unfold State.withOperand at h
  split at h
  · next vs hvs => exact ⟨vs, hvs, h⟩
  · cases h

theorem firstError_eq_none {checks : List (Bool × ErrCode)} (h : firstError checks = none) :
    ∀ p ∈ checks, p.1 = false := by
  induction checks with
  | nil => simp
  | cons p rest ih =>
    obtain ⟨b, c⟩ := p
    rw [firstError_cons] at h
    split at h
    · cases h
    · next hb =>
      intro p hp
      rcases List.mem_cons.mp hp with rfl | hp
      · simpa using hb
      · exact ih h p hp

theorem firstError_ne_overflow {checks : List (Bool × ErrCode)} (h : ∀ p ∈ checks, p.2 ≠ .capacityOverflow ∧ p.2 ≠ .none)
    {c : ErrCode} (hc : firstError checks = some c) : c ≠ .capacityOverflow ∧ c ≠ .none := by
  induction checks with
  | nil => cases hc
  | cons p rest ih =>
    obtain ⟨b, d⟩ := p
    rw [firstError_cons] at hc
    split at hc
    · cases hc
      exact h (b, c) (by simp)
    · exact ih (fun q hq => h q (by simp [hq])) hc

/-! ## Lengths -/

@[simp] theorem genRow_length (g : GenTable) (d : Nat) : (genRow g d).length = d + 1 := by simp [genRow]

@[simp] theorem xorInto_length (off : Nat) (ds ws : List Byte) : (xorInto off ds ws).length = ws.length := by
  induction ws generalizing off ds with
  | nil => cases off <;> cases ds <;> rfl
  | cons w ws ih =>
    cases off with
    | zero => cases ds with
      | nil => rfl
      | cons d ds => simp [xorInto, ih]
    | succ off => simp [xorInto, ih]

@[simp] theorem divStep_length (t : GfTables) (e work : List Byte) (off : Nat) :
    (divStep t e work off).length = work.length := by
  unfold divStep
  dsimp only
  split <;> simp

theorem foldl_divStep_length (t : GfTables) (e : List Byte) (offs : List Nat) (work : List Byte) :
    (offs.foldl (divStep t e) work).length = work.length := by
  induction offs generalizing work with
  | nil => rfl
  | cons o offs ih => simp [ih]

@[simp] theorem divRun_length (t : GfTables) (a : List Byte) (shift : Nat) (e : List Byte) :
    (divRun t a shift e).length = a.length + shift := by
  simp [divRun, foldl_divStep_length, divLoad]

@[simp] theorem divTake_length (work : List Byte) (n : Nat) : (divTake work n).length = n := by
  simp only [divTake, List.length_append, List.length_replicate, List.length_drop]
  omega

@[simp] theorem divRem_length (t : GfTables) (a : List Byte) (shift : Nat) (e : List Byte) :
    (divRem t a shift e).length = e.length - 1 := by simp [divRem]

@[simp] theorem eccOf_length (t : GfTables) (g : GenTable) (m : List Byte) (k : Nat) : (eccOf t g m k).length = k := by
  simp [eccOf]

/-! ## The commands: one inversion each -/

theorem execGfInit_eq (s : State) : execGfInit s = .next ((s.installGf (gfBuild s.gf)).complete 0) := rfl

theorem execInitTables_eq (s : State) : execInitTables s = .next
    (((s.installGf (gfBuild s.gf)).installGen (genBuild (gfBuild s.gf))).complete 0) := rfl

/-- GEN_INIT answers an error completion, or installs the built rows. -/
theorem execGenInit_cases {s t : State} (h : execGenInit s = .next t) :
    (s.status.gfValid = false ∧ t = s.raiseErr .uninitializedTables)
      ∨ (s.status.gfValid = true ∧ t = (s.installGen (genBuild s.gf)).complete 0) := by
  rcases checked_cases h with ⟨c, hc, rfl⟩ | ⟨hc, hb⟩
  · simp only [State.needsGf, firstError_cons, firstError_nil] at hc
    split at hc <;> simp_all
  · simp only [State.needsGf, firstError_cons, firstError_nil] at hc
    injection hb with hb
    split at hc <;> simp_all [State.buildGen]

/-- GF_MUL, GF_EXP and GF_LOG answer an error completion, or put one byte into RESULT. -/
theorem execGfMul_cases {a b : Nat} {s t : State} (h : execGfMul a b s = .next t) :
    (∃ c, c ≠ .capacityOverflow ∧ c ≠ .none ∧ t = s.raiseErr c) ∨ (∃ v, t = (s.setResult v).complete 0) := by
  rcases checked_cases h with ⟨c, hc, rfl⟩ | ⟨-, hb⟩
  · have := firstError_ne_overflow (by simp [State.needsGf]) hc
    exact .inl ⟨c, this.1, this.2, rfl⟩
  · injection hb with hb
    exact .inr ⟨_, hb.symm⟩

theorem execGfExp_cases {e : Nat} {s t : State} (h : execGfExp e s = .next t) :
    (∃ c, c ≠ .capacityOverflow ∧ c ≠ .none ∧ t = s.raiseErr c) ∨ (∃ v, t = (s.setResult v).complete 0) := by
  rcases checked_cases h with ⟨c, hc, rfl⟩ | ⟨-, hb⟩
  · have := firstError_ne_overflow (by simp [State.needsGf]) hc
    exact .inl ⟨c, this.1, this.2, rfl⟩
  · injection hb with hb
    exact .inr ⟨_, hb.symm⟩

theorem execGfLog_cases {v : Nat} {s t : State} (h : execGfLog v s = .next t) :
    (∃ c, c ≠ .capacityOverflow ∧ c ≠ .none ∧ t = s.raiseErr c) ∨ (∃ v, t = (s.setResult v).complete 0) := by
  rcases checked_cases h with ⟨c, hc, rfl⟩ | ⟨-, hb⟩
  · have := firstError_ne_overflow (by simp [State.needsGf]) hc
    exact .inl ⟨c, this.1, this.2, rfl⟩
  · injection hb with hb
    exact .inr ⟨_, hb.symm⟩

/-- GEN_GET answers an error completion, or writes its row to BUF_OUT. -/
theorem execGenGet_cases {d : Nat} {s t : State} (h : execGenGet d s = .next t) :
    (∃ c, c ≠ .capacityOverflow ∧ c ≠ .none ∧ t = s.raiseErr c)
      ∨ (badDegree d = false ∧ t = (s.writeBuffer .bufOut (genRow s.gen d)).complete (d + 1)) := by
  rcases checked_cases h with ⟨c, hc, rfl⟩ | ⟨hn, hb⟩
  · have := firstError_ne_overflow (by simp [State.needsGen]) hc
    exact .inl ⟨c, this.1, this.2, rfl⟩
  · injection hb with hb
    exact .inr ⟨firstError_eq_none hn (badDegree d, .unsupportedDegree) (by simp), hb.symm⟩

/-- POLY_DIV answers an error completion, or writes a remainder of B_DEG bytes to BUF_OUT and releases WORK. -/
theorem execPolyDiv_cases {aDeg bDeg aShift : Nat} {s t : State} (h : execPolyDiv aDeg bDeg aShift s = .next t) :
    (∃ c, c ≠ .capacityOverflow ∧ c ≠ .none ∧ t = s.raiseErr c)
      ∨ (badDegree bDeg = false ∧ ∃ vs, vs.length = bDeg
        ∧ t = ((s.writeBuffer .bufOut vs).releaseWork).complete bDeg) := by
  rcases checked_cases h with ⟨c, hc, rfl⟩ | ⟨hn, hb⟩
  · have := firstError_ne_overflow (by simp [State.needsGf]) hc
    exact .inl ⟨c, this.1, this.2, rfl⟩
  · obtain ⟨a, -, hb⟩ := withOperand_cases hb
    obtain ⟨e, he, hb⟩ := withOperand_cases hb
    injection hb with hb
    have hl := ((Memory.readBlock_eq_some_iff _ _ _ _).mp he).1
    exact .inr ⟨firstError_eq_none hn (badDegree bDeg, .unsupportedDegree) (by simp), _, by simp [hl], hb.symm⟩

/-- ECC_ENCODE answers an error completion, or writes ECC_COUNT bytes to BUF_OUT and releases WORK. -/
theorem execEccEncode_cases {msgLen eccCount : Nat} {s t : State} (h : execEccEncode msgLen eccCount s = .next t) :
    (∃ c, c ≠ .capacityOverflow ∧ c ≠ .none ∧ t = s.raiseErr c)
      ∨ (badDegree eccCount = false ∧ ∃ vs, vs.length = eccCount
        ∧ t = ((s.writeBuffer .bufOut vs).releaseWork).complete eccCount) := by
  rcases checked_cases h with ⟨c, hc, rfl⟩ | ⟨hn, hb⟩
  · have := firstError_ne_overflow (by simp [State.needsGen]) hc
    exact .inl ⟨c, this.1, this.2, rfl⟩
  · obtain ⟨m, -, hb⟩ := withOperand_cases hb
    injection hb with hb
    exact .inr ⟨firstError_eq_none hn (badDegree eccCount, .unsupportedDegree) (by simp), _, by simp, hb.symm⟩

/-- INTERLEAVE answers an error completion, or writes its stream and the stream's length and releases WORK. -/
theorem execInterleave_cases {v : Nat} {l : Level} {s t : State} (h : execInterleave v l s = .next t) :
    (∃ c, c ≠ .capacityOverflow ∧ c ≠ .none ∧ t = s.raiseErr c)
      ∨ (badVersion v = false ∧ ∃ data, data.length = (blockSpec v l).capacity
        ∧ t = (((s.writeBuffer .stream (interleave s.gf s.gen (blockSpec v l) data)).releaseWork).setStreamLen
            (interleave s.gf s.gen (blockSpec v l) data).length).complete
            (interleave s.gf s.gen (blockSpec v l) data).length) := by
  rcases checked_cases h with ⟨c, hc, rfl⟩ | ⟨hn, hb⟩
  · have := firstError_ne_overflow (by simp [State.needsGen]) hc
    exact .inl ⟨c, this.1, this.2, rfl⟩
  · obtain ⟨data, hd, hb⟩ := withOperand_cases hb
    injection hb with hb
    have hl := ((Memory.readBlock_eq_some_iff _ _ _ _).mp hd).1
    have hv := firstError_eq_none hn (badVersion v, .unsupportedDegree) (by simp)
    have hc := firstError_eq_none hn (decide (s.dataLength ≠ (blockSpec v l).capacity), .lengthMismatch) (by simp)
    exact .inr ⟨hv, data, by simpa [hl] using hc, hb.symm⟩

/-- BUILD_MATRIX answers an error completion, or writes a finished grid and its side. -/
theorem execBuildMatrix_cases {v : Nat} {l : Level} {m : Nat} {s t : State} (h : execBuildMatrix v l m s = .next t) :
    (∃ c, c ≠ .capacityOverflow ∧ c ≠ .none ∧ t = s.raiseErr c)
      ∨ (badVersion v = false ∧ ∃ stream, s.mem.readBlock Buffer.stream.base s.streamLength = some stream
        ∧ t = ((s.writeGrid (buildGrid v l m stream)).setGridSide (sideOf v)).complete (sideOf v * sideOf v)) := by
  rcases checked_cases h with ⟨c, hc, rfl⟩ | ⟨hn, hb⟩
  · have := firstError_ne_overflow (by simp) hc
    exact .inl ⟨c, this.1, this.2, rfl⟩
  · obtain ⟨stream, hs, hb⟩ := withOperand_cases hb
    injection hb with hb
    exact .inr ⟨firstError_eq_none hn (badVersion v, .unsupportedDegree) (by simp), stream, hs, hb.symm⟩

end Sys2Proof.Machine
end

