-- ==== Sys2Proof/Laws/Host.lean ====
section
/-! SUPPORT. What the host port and the step can do, said once. -/

namespace Sys2Proof.Machine

/-! ## Reads -/

/-- Reading one byte changes at most the count of draws. -/
theorem readByte_snd (a : Nat) (s : State) : (s.readByte a).2 = { s with draws := (s.readByte a).2.draws } := by
  unfold State.readByte State.drawByte
  split
  · split
    · rfl
    · split <;> rfl
  · rfl

theorem readBytes_snd (as : List Nat) (s : State) : (s.readBytes as).2 = { s with draws := (s.readBytes as).2.draws } := by
  induction as generalizing s with
  | nil => rfl
  | cons a as ih =>
    simp only [State.readBytes]
    rw [ih, readByte_snd]

/-- A host read changes at most the count of draws (20_memory R68). -/
theorem memRead_snd (a : Addr) (n : AccessSize) (s : State) :
    (s.memRead a n).2 = { s with draws := (s.memRead a n).2.draws } := by
  unfold State.memRead
  split
  · rfl
  · split
    · split <;> rfl
    · split
      · rfl
      · exact readBytes_snd _ s

/-- A read of STATUS changes nothing, whatever `rst` is. -/
@[simp] theorem memRead_status_snd (s : State) : (s.memRead statusAddr .four).2 = s := by
  unfold State.memRead
  split
  · rfl
  · rw [if_pos (by decide)]
    rfl

/-! ## Writes -/

/-- A register write that does not fault sets one of the writable fields, accepts or drops a command, or does nothing. -/
theorem writeRegister_cases {w : Word} {s t : State} {r : Register} (h : s.writeRegister w r = .next t) :
    t = s ∨ (s.status.busy = false ∧ t = s.acceptCommand w)
      ∨ (s.status.busy = true ∧ t = s.setStatus s.status.overrun) ∨ t = s.setStatus (s.status.clear w)
      ∨ (∃ b, t = { s with irqEn := b }) ∨ (s.status.busy = false ∧ ∃ n, t = { s with dataLen := n })
      ∨ (s.status.busy = false ∧ ∃ n, t = { s with streamLen := n }) := by
  cases r with
  | cmd =>
    injection h with h
    cases hb : s.status.busy with
    | false => rw [hb] at h; exact .inr (.inl ⟨rfl, h.symm⟩)
    | true => rw [hb] at h; exact .inr (.inr (.inl ⟨rfl, h.symm⟩))
  | status =>
    injection h with h
    exact .inr (.inr (.inr (.inl h.symm)))
  | ctrl =>
    injection h with h
    exact .inr (.inr (.inr (.inr (.inl ⟨_, h.symm⟩))))
  | dataLen =>
    simp only [State.writeRegister] at h
    split at h
    · cases h
    · next hb =>
      injection h with h
      exact .inr (.inr (.inr (.inr (.inr (.inl ⟨by simpa using hb, _, h.symm⟩)))))
  | streamLen =>
    simp only [State.writeRegister] at h
    split at h
    · cases h
    · next hb =>
      injection h with h
      exact .inr (.inr (.inr (.inr (.inr (.inr ⟨by simpa using hb, _, h.symm⟩)))))
  | result => injection h with h; exact .inl h.symm
  | outLen => injection h with h; exact .inl h.symm
  | gridSide => injection h with h; exact .inl h.symm

/-- A host write that does not fault is a register write, writes buffer bytes, or does nothing. -/
theorem memWrite_cases {a : Addr} {n : AccessSize} {w : Word} {s t : State} (h : s.memWrite a n w = .next t) :
    t = s ∨ (∃ r, s.rst = false ∧ s.writeRegister w r = .next t)
      ∨ (s.rst = false ∧ t = s.setMem (s.mem.writeEach (bufferWrites a.toNat n w))) := by
  unfold State.memWrite at h
  split at h
  · injection h with h; exact .inl h.symm
  · next hr =>
    have hr : s.rst = false := by simpa using hr
    split at h
    · split at h
      · exact .inr (.inl ⟨_, hr, h⟩)
      · injection h with h; exact .inl h.symm
    · split at h
      · injection h with h; exact .inl h.symm
      · dsimp only at h
        split at h
        · cases h
        · injection h with h
          exact .inr (.inr ⟨hr, h.symm⟩)

theorem read_writeEach_other (ws : List (Nat × Byte)) (m : Memory) (x : Nat) (h : ∀ c ∈ ws, c.1 ≠ x) :
    (m.writeEach ws).read x = m.read x := by
  induction ws generalizing m with
  | nil => rfl
  | cons c ws ih =>
    rw [Memory.writeEach, List.foldl_cons]
    exact (ih (m.write c.1 c.2) fun d hd => h d (by simp [hd])).trans
      (by rw [Memory.read_write, if_neg (h c (by simp))])

theorem mem_writeEach {ws : List (Nat × Byte)} {m : Memory} {c : Host.Cell} (h : c ∈ m.writeEach ws) :
    c ∈ ws ∨ c ∈ m := by
  induction ws generalizing m with
  | nil => exact .inr h
  | cons d ws ih =>
    rw [Memory.writeEach, List.foldl_cons] at h
    rcases ih h with h | h
    · exact .inl (by simp [h])
    · rcases Memory.mem_write h with rfl | h
      · exact .inl (by simp)
      · exact .inr h

theorem wf_writeEach (ws : List (Nat × Byte)) {m : Memory} (hm : Memory.wf m) : Memory.wf (m.writeEach ws) := by
  induction ws generalizing m with
  | nil => exact hm
  | cons d ws ih => exact ih (Memory.wf_write hm d.1 d.2)

theorem isBufferByte_of_mem_bufferWrites {a : Nat} {n : AccessSize} {w : Word} {c : Nat × Byte}
    (h : c ∈ bufferWrites a n w) : isBufferByte c.1 := by
  simpa using (List.mem_filter.mp h).2

/-! ## Events and steps -/

/-- What one host event can do when it does not fault. -/
theorem hostEvent_cases {e : HostEvent} {s t : State} (h : s.hostEvent e = .next t) :
    (∃ a n, e = .read a n ∧ t = State.deliver (s.memRead a n))
      ∨ (∃ a n w, e = .write a n w ∧ s.memWrite a n w = .next t)
      ∨ (e = .wait ∧ ∃ is, (is = s.inputs ∨ is = .wait :: s.inputs)
        ∧ t = { State.deliver (s.memRead statusAddr .four) with inputs := is })
      ∨ (∃ level, e = .setRst level ∧ (t = s ∨ t = s.resetBlock level)) := by
  cases e with
  | read a n => injection h with h; exact .inl ⟨a, n, rfl, h.symm⟩
  | write a n w => exact .inr (.inl ⟨a, n, w, rfl, h⟩)
  | wait =>
    injection h with h
    refine .inr (.inr (.inl ⟨rfl, ?_⟩))
    split at h
    · exact ⟨_, .inr rfl, h.symm⟩
    · refine ⟨s.inputs, .inl rfl, ?_⟩
      rw [← h]
      simp only [State.deliver]
      rw [memRead_snd]
  | setRst level =>
    injection h with h
    refine .inr (.inr (.inr ⟨level, rfl, ?_⟩))
    split at h
    · exact .inr h.symm
    · exact .inl h.symm

/-- What one step can do when it does not fault: an engine step, a host event, or nothing. -/
theorem step_cases {s t : State} (h : step s = .next t) :
    (s.rst = false ∧ s.status.busy = true ∧ (s.engineDelay = 0 ∨ s.inputs = [])
        ∧ ((∃ i, decode s.pend = .ok i ∧ exec i s = .next t)
          ∨ (∃ e, decode s.pend = .error e ∧ t = s.raiseErr .illegalCommand)))
      ∨ (∃ e rest, s.inputs = e :: rest ∧ (s.takeEvent rest).hostEvent e = .next t)
      ∨ (s.inputs = [] ∧ t = s) := by
  unfold step State.nextAgent at h
  by_cases hr : s.engineReady = true
  · simp only [hr, if_true] at h
    simp only [State.engineReady, Bool.and_eq_true, Bool.not_eq_true', Bool.or_eq_true, decide_eq_true_eq,
      List.isEmpty_iff] at hr
    refine .inl ⟨hr.1.1, hr.1.2, hr.2, ?_⟩
    unfold State.engineStep at h
    split at h
    · next i hi => exact .inl ⟨i, hi, h⟩
    · next e he => injection h with h; exact .inr ⟨e, he, h.symm⟩
  · simp only [hr] at h
    cases hi : s.inputs with
    | nil =>
      simp only [hi, List.isEmpty_nil] at h
      injection h with h
      exact .inr (.inr ⟨rfl, h.symm⟩)
    | cons e rest =>
      refine .inr (.inl ⟨e, rest, rfl, ?_⟩)
      simpa [hi, State.hostStep] using h

end Sys2Proof.Machine
end

