-- ==== Sys2Proof/Laws/Interleaver.lean ====
section
/-! SUPPORT. Lengths of the interleaver's parts (43_interleaver R172, R173). -/

namespace Sys2Proof.Machine

@[simp] theorem takeBlocks_length (size count : Nat) (data : List Byte) :
    (takeBlocks size count data).length = count := by
  induction count generalizing data with
  | zero => rfl
  | succ count ih => simp [takeBlocks, ih]

@[simp] theorem splitBlocks_length (b : BlockSpec) (data : List Byte) :
    (splitBlocks b data).length = b.g1b + b.g2b := by simp [splitBlocks]

@[simp] theorem column_length (blocks : List (List Byte)) (i : Nat) : (column blocks i).length = blocks.length := by
  simp [column]

@[simp] theorem columns_length (blocks : List (List Byte)) (n : Nat) :
    (columns blocks n).length = n * blocks.length := by
  simp [columns, column, List.length_flatMap, List.map_const', List.sum_replicate_nat]

theorem column_getElem? (blocks : List (List Byte)) (i b : Nat) :
    (column blocks i)[b]? = blocks[b]?.map fun blk => blk.getD i 0 := by simp [column]

/-- The stream's length, whatever the data. -/
theorem interleave_length (t : GfTables) (g : GenTable) (b : BlockSpec) (data : List Byte) :
    (interleave t g b data).length
      = b.g1w * (b.g1b + b.g2b) + (b.g2b + b.ecc * (b.g1b + b.g2b)) := by
  simp [interleave]

end Sys2Proof.Machine
end

