-- ==== Sys2Proof/Laws/Matrix.lean ====
section
/-! SUPPORT. The laws of the grid inside a command step, and of its write to GRID (44_matrix R201, R202). -/

namespace Sys2Proof.Machine

/-! ## Writes of cells -/

@[simp] theorem Grid.blank_side (n : Nat) : (Grid.blank n).side = n := rfl

@[simp] theorem Grid.blank_size (n : Nat) : (Grid.blank n).cells.size = n * n := by simp [Grid.blank]

@[simp] theorem Grid.put_side (g : Grid) (w : CellWrite) : (g.put w).side = g.side := by
  unfold Grid.put
  split <;> rfl

@[simp] theorem Grid.put_size (g : Grid) (w : CellWrite) : (g.put w).cells.size = g.cells.size := by
  unfold Grid.put
  split <;> simp

@[simp] theorem Grid.apply_nil (g : Grid) : g.apply [] = g := rfl

@[simp] theorem Grid.apply_cons (g : Grid) (w : CellWrite) (ws : List CellWrite) :
    g.apply (w :: ws) = (g.put w).apply ws := rfl

theorem Grid.apply_append (g : Grid) (ws vs : List CellWrite) : g.apply (ws ++ vs) = (g.apply ws).apply vs :=
  List.foldl_append

@[simp] theorem Grid.apply_side (g : Grid) (ws : List CellWrite) : (g.apply ws).side = g.side := by
  induction ws generalizing g with
  | nil => rfl
  | cons w ws ih => simp [ih]

@[simp] theorem Grid.apply_size (g : Grid) (ws : List CellWrite) : (g.apply ws).cells.size = g.cells.size := by
  induction ws generalizing g with
  | nil => rfl
  | cons w ws ih => simp [ih]

/-- Row-major positions are one-to-one on the cells of a grid. -/
theorem position_inj {side r c r' c' : Nat} (hc : c < side) (hc' : c' < side)
    (h : r * side + c = r' * side + c') : r = r' ∧ c = c' := by
  have hs : 0 < side := by omega
  have h1 : (r * side + c) / side = r := by
    rw [Nat.add_comm, Nat.add_mul_div_right _ _ hs, Nat.div_eq_of_lt hc, Nat.zero_add]
  have h2 : (r' * side + c') / side = r' := by
    rw [Nat.add_comm, Nat.add_mul_div_right _ _ hs, Nat.div_eq_of_lt hc', Nat.zero_add]
  have hr : r = r' := by rw [← h1, h, h2]
  subst hr
  omega

theorem position_lt {side r c : Nat} (hr : r < side) (hc : c < side) : r * side + c < side * side := by
  have : (r + 1) * side ≤ side * side := Nat.mul_le_mul_right side hr
  rw [Nat.succ_mul] at this
  omega

/-- A cell after a write inside the grid: the value at that cell, what was there elsewhere. -/
theorem Grid.get_put (g : Grid) (w : CellWrite) (r c : Nat) (hs : g.cells.size = g.side * g.side)
    (hw : w.1 < g.side) (hw' : w.2.1 < g.side) (hc : c < g.side) :
    (g.put w).get r c = if w.1 = r ∧ w.2.1 = c then w.2.2 else g.get r c := by
  have hlt : w.1 * g.side + w.2.1 < g.cells.size := hs ▸ position_lt hw hw'
  rw [Grid.put, if_pos ⟨hw, hw'⟩]
  simp only [Grid.get, Array.getD_eq_getD_getElem?, Array.getElem?_setIfInBounds]
  by_cases h : w.1 = r ∧ w.2.1 = c
  · obtain ⟨rfl, rfl⟩ := h
    simp [hlt]
  · have hne : w.1 * g.side + w.2.1 ≠ r * g.side + c := fun e => h (position_inj hw' hc e)
    rw [if_neg hne, if_neg h]

/-- A cell that no write names keeps its value. -/
theorem Grid.get_apply_other (g : Grid) (ws : List CellWrite) (r c : Nat) (hs : g.cells.size = g.side * g.side)
    (hc : c < g.side) (h : ∀ w ∈ ws, ¬ (w.1 = r ∧ w.2.1 = c)) : (g.apply ws).get r c = g.get r c := by
  induction ws generalizing g with
  | nil => rfl
  | cons w ws ih =>
    rw [Grid.apply_cons, ih (g.put w) (by simp [hs]) (by simpa using hc) fun v hv => h v (by simp [hv])]
    by_cases hw : w.1 < g.side ∧ w.2.1 < g.side
    · rw [Grid.get_put g w r c hs hw.1 hw.2 hc, if_neg (h w (by simp))]
    · rw [Grid.put, if_neg hw]

theorem Grid.get_blank (n r c : Nat) : (Grid.blank n).get r c = unsetCell := by
  simp only [Grid.get, Grid.blank, Array.getD_eq_getD_getElem?, Array.getElem?_replicate]
  split <;> rfl

/-- A cell is unset after writes of colours inside the grid exactly when it was and no write names it. -/
theorem Grid.get_apply_eq_unset_iff (g : Grid) (ws : List CellWrite) (r c : Nat) (hs : g.cells.size = g.side * g.side)
    (hc : c < g.side) (hw : ∀ w ∈ ws, w.1 < g.side ∧ w.2.1 < g.side ∧ w.2.2 ≠ unsetCell) :
    (g.apply ws).get r c = unsetCell ↔ g.get r c = unsetCell ∧ ∀ w ∈ ws, ¬ (w.1 = r ∧ w.2.1 = c) := by
  induction ws generalizing g with
  | nil => simp
  | cons w ws ih =>
    obtain ⟨h1, h2, h3⟩ := hw w (by simp)
    rw [Grid.apply_cons, ih (g.put w) (by simp [hs]) (by simpa using hc) (by simpa using fun v hv => hw v (by simp [hv])),
      Grid.get_put g w r c hs h1 h2 hc]
    by_cases h : w.1 = r ∧ w.2.1 = c
    · rw [if_pos h]
      exact ⟨fun e => absurd e.1 h3, fun e => absurd h (e.2 w (by simp))⟩
    · rw [if_neg h, List.forall_mem_cons]
      simp only [h, not_false_iff, true_and]

/-! ## The scan -/

theorem mem_laneRows (side r : Nat) (upward : Bool) : r ∈ laneRows side upward ↔ r < side := by
  cases upward <;> simp [laneRows]

/-- A lane is its two columns, in every row. -/
theorem mem_laneCells (side right r c : Nat) (upward : Bool) :
    (r, c) ∈ laneCells side right upward ↔ r < side ∧ (c = right ∨ c = right - 1) := by
  simp only [laneCells, List.mem_flatMap, mem_laneRows, List.mem_cons, List.not_mem_nil, or_false, Prod.mk.injEq]
  constructor
  · rintro ⟨r', hr, ⟨rfl, rfl⟩ | ⟨rfl, rfl⟩⟩
    · exact ⟨hr, .inl rfl⟩
    · exact ⟨hr, .inr rfl⟩
  · rintro ⟨hr, rfl | rfl⟩
    · exact ⟨r, hr, .inl ⟨rfl, rfl⟩⟩
    · exact ⟨r, hr, .inr ⟨rfl, rfl⟩⟩

theorem mem_dataOrder (g : Grid) (r c : Nat) :
    (r, c) ∈ dataOrder g ↔ (r, c) ∈ scan g.side ∧ g.get r c = unsetCell := by simp [dataOrder]

/-! ## The side and the size of the built grids -/

@[simp] theorem functionGrid_side (v : Nat) (l : Level) (m : Nat) : (functionGrid v l m).side = sideOf v := by
  simp [functionGrid]

@[simp] theorem functionGrid_size (v : Nat) (l : Level) (m : Nat) :
    (functionGrid v l m).cells.size = sideOf v * sideOf v := by simp [functionGrid]

@[simp] theorem buildGrid_side (v : Nat) (l : Level) (m : Nat) (stream : List Byte) :
    (buildGrid v l m stream).side = sideOf v := by simp [buildGrid]

@[simp] theorem buildGrid_size (v : Nat) (l : Level) (m : Nat) (stream : List Byte) :
    (buildGrid v l m stream).cells.size = sideOf v * sideOf v := by simp [buildGrid]

/-! ## The write to GRID -/

@[simp] theorem State.writeGrid_cmd (g : Grid) (s : State) : (s.writeGrid g).cmd = s.cmd := rfl
@[simp] theorem State.writeGrid_status (g : Grid) (s : State) : (s.writeGrid g).status = s.status := rfl
@[simp] theorem State.writeGrid_result (g : Grid) (s : State) : (s.writeGrid g).result = s.result := rfl
@[simp] theorem State.writeGrid_irqEn (g : Grid) (s : State) : (s.writeGrid g).irqEn = s.irqEn := rfl
@[simp] theorem State.writeGrid_dataLen (g : Grid) (s : State) : (s.writeGrid g).dataLen = s.dataLen := rfl
@[simp] theorem State.writeGrid_streamLen (g : Grid) (s : State) : (s.writeGrid g).streamLen = s.streamLen := rfl
@[simp] theorem State.writeGrid_outLen (g : Grid) (s : State) : (s.writeGrid g).outLen = s.outLen := rfl
@[simp] theorem State.writeGrid_gridSide (g : Grid) (s : State) : (s.writeGrid g).gridSide = s.gridSide := rfl
@[simp] theorem State.writeGrid_gf (g : Grid) (s : State) : (s.writeGrid g).gf = s.gf := rfl
@[simp] theorem State.writeGrid_gen (g : Grid) (s : State) : (s.writeGrid g).gen = s.gen := rfl
@[simp] theorem State.writeGrid_work (g : Grid) (s : State) : (s.writeGrid g).work = s.work := rfl
@[simp] theorem State.writeGrid_pend (g : Grid) (s : State) : (s.writeGrid g).pend = s.pend := rfl
@[simp] theorem State.writeGrid_rst (g : Grid) (s : State) : (s.writeGrid g).rst = s.rst := rfl
@[simp] theorem State.writeGrid_inputs (g : Grid) (s : State) : (s.writeGrid g).inputs = s.inputs := rfl
@[simp] theorem State.writeGrid_engineDelay (g : Grid) (s : State) : (s.writeGrid g).engineDelay = s.engineDelay := rfl
@[simp] theorem State.writeGrid_draws (g : Grid) (s : State) : (s.writeGrid g).draws = s.draws := rfl
@[simp] theorem State.writeGrid_lastRead (g : Grid) (s : State) : (s.writeGrid g).lastRead = s.lastRead := rfl
@[simp] theorem State.writeGrid_mem (g : Grid) (s : State) : (s.writeGrid g).mem
    = (s.mem.forget Buffer.grid.base (Buffer.grid.base + Buffer.grid.size)).writeBlock Buffer.grid.base
      g.cells.toList := rfl

/-- A byte outside GRID after the grid's write. -/
theorem State.read_writeGrid_outside (g : Grid) (s : State) (a : Nat)
    (hg : g.cells.size ≤ Buffer.grid.size) (h : a < Buffer.grid.base ∨ Buffer.grid.base + Buffer.grid.size ≤ a) :
    (s.writeGrid g).mem.read a = s.mem.read a := by
  rw [State.writeGrid_mem, Memory.read_writeBlock_outside _ _ _ _ (by rw [Array.length_toList]; omega),
    Memory.read_forget, if_pos h]

end Sys2Proof.Machine
end

