-- ==== Sys2Proof/Laws/PerInstr.lean ====
section
/-! SUPPORT. Statements made of every command, one lemma for each constructor. -/

namespace Sys2Proof.Laws.RowSelected

/-- The row of the opcode map with this command's mnemonic selects the command's word (30_encoding R83). -/
def Statement (i : Instr) : Prop :=
  i.wf = true → ∃ row ∈ opcodeTable, row.mnemonic = i.mnemonic ∧ rowSelects row (encode i) = true

/-- A member of the table with the right name and a mask of the common form is enough. -/
theorem of_row {i : Instr} {k opc : Nat} {build : Word → Instr} (hk : 8 ≤ k) (hk' : k ≤ 32) (ho : opc < 256)
    (hm : (⟨i.mnemonic, BitVec.ofNat 32 (2 ^ 32 - 2 ^ k + 255), BitVec.ofNat 32 opc, build⟩ : OpcodeRow) ∈ opcodeTable)
    (h : (encode i).toNat % 256 = opc ∧ (encode i).toNat / 2 ^ k = 0) :
    ∃ row ∈ opcodeTable, row.mnemonic = i.mnemonic ∧ rowSelects row (encode i) = true :=
  ⟨_, hm, rfl, (rowSelects_high i.mnemonic k opc build (encode i) hk hk' ho).mpr h⟩

theorem gfInit : Statement .gfInit := by
  intro h
  exact of_row (k := 8) (opc := 1) (by decide) (by decide) (by decide) (.head _) (by decide)

theorem genInit : Statement .genInit := by
  intro h
  exact of_row (k := 8) (opc := 2) (by decide) (by decide) (by decide) (.tail _ (.head _)) (by decide)

theorem initTables : Statement .initTables := by
  intro h
  exact of_row (k := 8) (opc := 3) (by decide) (by decide) (by decide) (.tail _ (.tail _ (.head _))) (by decide)

theorem gfMul : ∀ a b : Nat, Statement (.gfMul a b) := by
  intro a b h
  simp only [Instr.wf, fitsByteField, Bool.and_eq_true, decide_eq_true_eq] at h
  refine of_row (k := 24) (opc := 16) (by decide) (by decide) (by decide) (.tail _ (.tail _ (.tail _ (.head _)))) ?_
  rw [encode, fieldsWord_toNat 16 a b 0 (by omega) (by omega) (by omega) (by omega)]
  omega

theorem gfExp : ∀ e : Nat, Statement (.gfExp e) := by
  intro e h
  simp only [Instr.wf, fitsByteField, decide_eq_true_eq] at h
  refine of_row (k := 16) (opc := 17) (by decide) (by decide) (by decide) (.tail _ (.tail _ (.tail _ (.tail _ (.head _))))) ?_
  rw [encode, fieldsWord_toNat 17 e 0 0 (by omega) (by omega) (by omega) (by omega)]
  omega

theorem gfLog : ∀ v : Nat, Statement (.gfLog v) := by
  intro v h
  simp only [Instr.wf, fitsByteField, decide_eq_true_eq] at h
  refine of_row (k := 16) (opc := 18) (by decide) (by decide) (by decide) (.tail _ (.tail _ (.tail _ (.tail _ (.tail _ (.head _)))))) ?_
  rw [encode, fieldsWord_toNat 18 v 0 0 (by omega) (by omega) (by omega) (by omega)]
  omega

theorem genGet : ∀ d : Nat, Statement (.genGet d) := by
  intro d h
  simp only [Instr.wf, fitsByteField, decide_eq_true_eq] at h
  refine of_row (k := 16) (opc := 32) (by decide) (by decide) (by decide) (.tail _ (.tail _ (.tail _ (.tail _ (.tail _ (.tail _ (.head _))))))) ?_
  rw [encode, fieldsWord_toNat 32 d 0 0 (by omega) (by omega) (by omega) (by omega)]
  omega

theorem polyDiv : ∀ a b c : Nat, Statement (.polyDiv a b c) := by
  intro a b c h
  simp only [Instr.wf, fitsByteField, Bool.and_eq_true, decide_eq_true_eq] at h
  refine of_row (k := 32) (opc := 48) (by decide) (by decide) (by decide) (.tail _ (.tail _ (.tail _ (.tail _ (.tail _ (.tail _ (.tail _ (.head _)))))))) ?_
  rw [encode, fieldsWord_toNat 48 a b c (by omega) (by omega) (by omega) (by omega)]
  omega

theorem eccEncode : ∀ a b : Nat, Statement (.eccEncode a b) := by
  intro a b h
  simp only [Instr.wf, fitsByteField, Bool.and_eq_true, decide_eq_true_eq] at h
  refine of_row (k := 24) (opc := 49) (by decide) (by decide) (by decide) (.tail _ (.tail _ (.tail _ (.tail _ (.tail _ (.tail _ (.tail _ (.tail _ (.head _))))))))) ?_
  rw [encode, fieldsWord_toNat 49 a b 0 (by omega) (by omega) (by omega) (by omega)]
  omega

theorem interleave : ∀ (v : Nat) (l : Level), Statement (.interleave v l) := by
  intro v l h
  have hl := l.code_lt
  simp only [Instr.wf, fitsByteField, decide_eq_true_eq] at h
  refine of_row (k := 18) (opc := 64) (by decide) (by decide) (by decide) (.tail _ (.tail _ (.tail _ (.tail _ (.tail _ (.tail _ (.tail _ (.tail _ (.tail _ (.head _)))))))))) ?_
  rw [encode, fieldsWord_toNat 64 v l.code 0 (by omega) (by omega) (by omega) (by omega)]
  omega

theorem buildMatrix : ∀ (v : Nat) (l : Level) (m : Nat), Statement (.buildMatrix v l m) := by
  intro v l m h
  have hl := l.code_lt
  simp only [Instr.wf, fitsByteField, fitsMaskField, Bool.and_eq_true, decide_eq_true_eq] at h
  refine of_row (k := 21) (opc := 80) (by decide) (by decide) (by decide) (.tail _ (.tail _ (.tail _ (.tail _ (.tail _ (.tail _ (.tail _ (.tail _ (.tail _ (.tail _ (.head _))))))))))) ?_
  rw [encode, fieldsWord_toNat 80 v (l.code + m * 2 ^ 2) 0 (by omega) (by omega) (by omega) (by omega)]
  omega

end Sys2Proof.Laws.RowSelected
end

