-- ==== Sys2Proof/Tests/Slice0.lean ====
section
/-! SUPPORT. Tests against the spec's own examples and vectors (30_encoding R88, 95_test_vectors), and for each obligation
with hypotheses a witness that meets them. -/

namespace Sys2Proof.Tests

open Sys2Proof Sys2Proof.Machine

/-! ## Well-formedness: for each check a term that it refuses (R86) -/

theorem test_wf_gfMul : Instr.wf (.gfMul 256 0) = false ∧ Instr.wf (.gfMul 0 256) = false := by decide
theorem test_wf_gfExp : Instr.wf (.gfExp 256) = false := by decide
theorem test_wf_gfLog : Instr.wf (.gfLog 256) = false := by decide
theorem test_wf_genGet : Instr.wf (.genGet 300) = false := by decide
theorem test_wf_polyDiv : Instr.wf (.polyDiv 256 1 1) = false ∧ Instr.wf (.polyDiv 1 256 1) = false
    ∧ Instr.wf (.polyDiv 1 1 256) = false := by decide
theorem test_wf_eccEncode : Instr.wf (.eccEncode 256 1) = false ∧ Instr.wf (.eccEncode 1 256) = false := by decide
theorem test_wf_interleave : Instr.wf (.interleave 256 .low) = false := by decide
theorem test_wf_buildMatrix : Instr.wf (.buildMatrix 256 .low 0) = false ∧ Instr.wf (.buildMatrix 1 .low 8) = false := by
  decide
/-- R86: a command that does not fit spells no word. -/
theorem test_assemble_refuses : assemble (.genGet 256) = none ∧ assemble (.genGet 10) = some 0x00000A20 := by decide

/-! ## Decoding: words from R83, R88 and the vector tables -/

/-- The command a word decodes to, if any. -/
def decoded (w : Word) : Option Instr := (decode w).toOption

theorem test_decode_gfInit : decoded 0x00000001 = some .gfInit := by decide
theorem test_decode_genInit : decoded 0x00000002 = some .genInit := by decide
theorem test_decode_initTables : decoded 0x00000003 = some .initTables := by decide
theorem test_decode_gfMul : decoded 0x00CA5310 = some (.gfMul 0x53 0xCA) := by decide
theorem test_decode_gfExp : decoded 0x0000FE11 = some (.gfExp 254) := by decide
theorem test_decode_gfLog : decoded 0x00001D12 = some (.gfLog 29) := by decide
theorem test_decode_genGet : decoded 0x00000A20 = some (.genGet 10) := by decide
theorem test_decode_polyDiv : decoded 0xBA020430 = some (.polyDiv 4 2 186) := by decide
theorem test_decode_eccEncode : decoded 0x00447B31 = some (.eccEncode 123 68) := by decide
theorem test_decode_interleave : decoded 0x00030140 = some (.interleave 1 .high) := by decide
theorem test_decode_buildMatrix : decoded 0x000C0750 = some (.buildMatrix 7 .low 3)
    ∧ decoded 0x001F2950 = some (.buildMatrix 41 .high 7) := by decide
/-- The rows E7-1 to E7-8: illegal words. -/
theorem test_decode_illegal : decoded 0x00000000 = none ∧ decoded 0x00000101 = none ∧ decoded 0x00040540 = none
    ∧ decoded 0x000000FF = none ∧ decoded 0x00200013 = none ∧ decoded 0x01000011 = none ∧ decoded 0x01000031 = none
    ∧ decoded 0x00200050 = none := by decide

/-! ## Small states -/

/-- The state of a next outcome. -/
def after : Host.Outcome State Fault Refusal → Option State
  | .next s => some s
  | .fault _ => none
  | .refused _ => none

/-- STATUS, RESULT and OUT_LEN of a next outcome. -/
def registersAfter (o : Host.Outcome State Fault Refusal) : Option (Word × Byte × BitVec 16) :=
  (after o).map fun s => (s.status.toWord, s.result, s.outLen)

/-- Bytes of a next outcome, from an address on. -/
def bytesAfter (base n : Nat) (o : Host.Outcome State Fault Refusal) : Option (List Byte) :=
  (after o).bind fun s => s.mem.readBlock base n

/-- Byte values from numbers. -/
def bytesOf (ns : List Nat) : List Byte := ns.map byte

/-- The built field tables. -/
def builtGf : GfTables := gfBuild ⟨[], []⟩

/-- The field tables after the first 51 turns of GF_INIT's loop: enough for small exponents. -/
def smallGf : GfTables := ((List.range 51).foldl gfLoopTurn ⟨1, ⟨[], []⟩⟩).tables

/-- Both valid bits are 1, and the tables hold their first entries. -/
def small : State :=
  { State.reset with
    gf := smallGf
    gen := genRowsFrom smallGf 1 [0, 0] 1
    status := { Status.reset with gfValid := true, genValid := true } }

/-- Both valid bits are 1, the field tables are built, and GEN has its first ten rows only. -/
def tenRows : State :=
  { State.reset with
    gf := builtGf
    gen := genRowsFrom builtGf 1 [0, 0] 9
    status := { Status.reset with gfValid := true, genValid := true } }

/-- The whole tables, as after INIT_TABLES. -/
def ready : State :=
  { State.reset with
    gf := builtGf
    gen := genBuild builtGf
    status := { Status.reset with gfValid := true, genValid := true } }

/-- The field tables only, as after GF_INIT. -/
def gfReady : State := { State.reset with gf := builtGf, status := { Status.reset with gfValid := true } }

/-- A state with these bytes in a buffer. -/
def withBytes (b : Buffer) (vs : List Byte) (s : State) : State := s.writeBuffer b vs

/-- The L1-4 message of 95_test_vectors. -/
def message : List Byte := bytesOf [32, 91, 11, 120, 209, 114, 220, 77, 67, 64, 236, 17, 236, 17, 236, 17]

/-- The V-ILV-1 stream. -/
def stream26 : List Byte := message ++ bytesOf [196, 35, 39, 119, 235, 215, 231, 226, 93, 23]

/-- A state with the command word accepted and its engine step due. -/
def accepted (w : Nat) (s : State) : State := s.withFetchWord 32 w

/-! ## One step of each command (95_test_vectors) -/

/-- E5-3. -/
theorem test_genInit_error : registersAfter (step (accepted 0x00000002 State.reset)) = some (0x00020504, 0, 0) := by
  decide +kernel

/-- V-GEN-1: the row of degree 2. -/
theorem test_genInit_row : genRow small.gen 2 = bytesOf [0, 25, 1] := by decide +kernel

/-- V-GF-2: GF_MUL 2, 128 and a zero operand. -/
theorem test_gfMul : registersAfter (step (accepted 0x00800210 small)) = some (0x0010001A, 29, 0)
    ∧ registersAfter (step (accepted 0x00070010 small)) = some (0x0010001A, 0, 0) := by decide +kernel

/-- V-GF-2 and E4-1: GF_EXP 8 and GF_EXP 255. -/
theorem test_gfExp : registersAfter (step (accepted 0x00000811 small)) = some (0x0011001A, 29, 0)
    ∧ registersAfter (step (accepted 0x0000FF11 small)) = some (0x0011041C, 0, 0) := by decide +kernel

/-- V-GF-2 and E6-1: GF_LOG 29 and GF_LOG 0. -/
theorem test_gfLog : registersAfter (step (accepted 0x00001D12 small)) = some (0x0012001A, 8, 0)
    ∧ registersAfter (step (accepted 0x00000012 small)) = some (0x0012061C, 0, 0) := by decide +kernel

/-- V-GEN-1: GEN_GET 2. -/
theorem test_genGet : bytesAfter 0x0300 3 (step (accepted 0x00000220 small)) = some (bytesOf [0, 25, 1]) := by
  decide +kernel

/-- E5-1 and E3-1: GEN_GET 0 without tables, GEN_GET 69 with them. -/
theorem test_genGet_errors : registersAfter (step (accepted 0x00000020 State.reset)) = some (0x00200504, 0, 0)
    ∧ registersAfter (step (accepted 0x00004520 small)) = some (0x0020031C, 0, 0) := by decide +kernel

/-- D4: x² mod (x² + 3x + 2), the dividend with a leading 0. -/
theorem test_polyDiv : bytesAfter 0x0300 2 (step (accepted 0x02020130
      (withBytes .bufA (bytesOf [0, 1]) (withBytes .bufB (bytesOf [0, 25, 1]) small)))) = some (bytesOf [3, 2]) := by
  decide +kernel

/-- D2: fewer coefficients than the divisor's degree. -/
theorem test_polyDiv_padded : bytesAfter 0x0300 4 (step (accepted 0x00040230
      (withBytes .bufA (bytesOf [5, 6, 7]) (withBytes .bufB (bytesOf [0, 75, 249, 78, 6]) small))))
    = some (bytesOf [0, 5, 6, 7]) := by decide +kernel

/-- V-ECC-3: with ECC_COUNT = 1 the sum of the message. -/
theorem test_eccEncode : bytesAfter 0x0300 1 (step (accepted 0x00010331 (withBytes .bufA (bytesOf [1, 2, 3]) small)))
    = some (bytesOf [0]) := by decide +kernel

/-- E3-5: the degree check comes before the length check. -/
theorem test_eccEncode_error : registersAfter (step (accepted 0x00000031 small)) = some (0x0031031C, 0, 0) := by
  decide +kernel

/-- E2-2: 64 data bytes for version 5 at QUARTILE. -/
theorem test_interleave_error : registersAfter (step (accepted 0x00020540 { small with dataLen := 64 }))
    = some (0x0040021C, 0, 0) := by decide +kernel

/-- E2-3. -/
theorem test_buildMatrix_error : registersAfter (step (accepted 0x00010150 { small with streamLen := 25 }))
    = some (0x0050021C, 0, 0) := by decide +kernel

/-- E7-3 and E7-9: illegal words. -/
theorem test_illegal_word : registersAfter (step (accepted 0x00040540 small)) = some (0x0040071C, 0, 0)
    ∧ registersAfter (step (accepted 0x00000000 State.reset)) = some (0x00000704, 0, 0) := by decide +kernel

/-! ## The host port (V-MEM-1) -/

/-- A write that must give a next state. -/
def wrote (a : Addr) (n : AccessSize) (w : Word) (s : State) : State := ((after (s.memWrite a n w)).getD s)

theorem test_port_little_endian : (wrote 0x0100 .four 0x04030201 State.reset).mem.readBlock 0x0100 4
      = some (bytesOf [1, 2, 3, 4])
    ∧ ((wrote 0x0101 .two 0xFFFF (wrote 0x0100 .four 0x04030201 State.reset)).memRead 0x0100 .four).1 = 0x04030201
    ∧ (wrote 0x0200 .two 0x1900 State.reset).mem.readBlock 0x0200 2 = some (bytesOf [0, 25]) := by decide

theorem test_port_ignored : wrote 0x0002 .four 5 State.reset = State.reset ∧ wrote 0x0004 .one 2 small = small
    ∧ (State.reset.memRead 0x0006 .four).1 = 0 ∧ (State.reset.memRead 0x0020 .four).1 = 0 := by decide +kernel

/-- R86: a command that does not fit is rejected, and so is a `load` list that passes the last address (log 22). -/
theorem test_hostProgram_rejects : hostProgram [.command (.genGet 256)] = none
    ∧ HostLine.expand (.load .grid (List.replicate 49153 0)) = none :=
  ⟨by decide, by rw [HostLine.expand, List.length_replicate, if_neg (by decide)]⟩

/-- R87: `load`, `clear` and a command line with its wait. -/
theorem test_hostProgram : hostProgram [.load .bufA [7, 8], .clear, .exec (.genGet 10)]
    = some [.write 0x0100 .one 7, .write 0x0101 .one 8, .write 0x0004 .four 0x26, .write 0x0000 .four 0x00000A20, .wait]
    := by decide

/-! ## Witnesses: for each obligation with hypotheses, a state and operands that meet them -/

/-- A word accepted in the reset state, its engine step due. -/
def busy (w : Nat) : State := accepted w State.reset

/-- The same with host events to come and an engine step that is not due. -/
def waiting (w delay : Nat) (events : List HostEvent) : State :=
  { busy w with engineDelay := delay, inputs := events }

/-- `rst` is asserted. -/
def inReset (events : List HostEvent) : State := { State.reset with rst := true, inputs := events }

theorem witness_EncodedCommandsDecodeBack : Instr.wf (.polyDiv 255 255 255) = true
    ∧ Instr.wf (.buildMatrix 255 .high 7) = true ∧ Instr.wf .initTables = true := by decide

theorem witness_DecodedWordsEncodeBack : decoded 0xFFFFFF30 = some (.polyDiv 255 255 255)
    ∧ decoded 0x001FFF50 = some (.buildMatrix 255 .high 7) := by decide

/-- Each clause of the opcode map at its first and last legal word, and the first word past it. -/
theorem witness_LegalWordsAreThoseOfTheOpcodeMap : (decoded 0x00000003).isSome ∧ (decoded 0x00000103).isNone
    ∧ (decoded 0x00FFFF31).isSome ∧ (decoded 0x01000031).isNone ∧ (decoded 0x0000FF20).isSome
    ∧ (decoded 0x00010020).isNone ∧ (decoded 0xFFFFFF30).isSome ∧ (decoded 0x0003FF40).isSome
    ∧ (decoded 0x00040040).isNone ∧ (decoded 0x001FFF50).isSome ∧ (decoded 0x00200050).isNone := by decide

theorem witness_EngineStepRunsTheDecodedCommand : ((busy 3).rst = false ∧ (busy 3).status.busy = true
      ∧ ((busy 3).engineDelay = 0 ∨ (busy 3).inputs = []) ∧ decode (busy 3).pend = .ok .initTables)
    ∧ decode (busy 0xFF).pend = .error (.unassignedOpcode 0xFF)
    ∧ decodeTableWord 16 0x0A20 = some (.genGet 10) := ⟨⟨rfl, rfl, .inl rfl, rfl⟩, rfl, rfl⟩

theorem witness_OtherStepsAreTheHosts : State.reset.status.busy = false ∧ (inReset [.wait]).rst = true
    ∧ ((waiting 3 1 [.wait]).engineDelay ≠ 0 ∧ (waiting 3 1 [.wait]).inputs ≠ [])
    ∧ (waiting 3 1 [.wait]).inputs = .wait :: [] ∧ State.reset.inputs = [] := by decide

theorem witness_WaitingReachesTheEngineStep : (waiting 3 2 [.wait]).rst = false
    ∧ (waiting 3 2 [.wait]).status.busy = true ∧ (waiting 3 2 [.wait]).inputs = .wait :: [] := by decide

/-- Both forms of the contract: the command ends with an error (E5-1), and a command that reads no buffer byte. -/
theorem witness_WaitLoopsEnd : (waiting 0x20 2 [.wait]).rst = false ∧ (waiting 0x20 2 [.wait]).inputs = .wait :: []
    ∧ (∀ i, decode (waiting 0x20 2 [.wait]).pend = .ok i → CommandSafe i (waiting 0x20 2 [.wait]))
    ∧ (∀ i, decode (waiting 3 2 [.wait]).pend = .ok i → CommandSafe i (waiting 3 2 [.wait])) := by
  refine ⟨rfl, rfl, fun i h => ?_, fun i h => ?_⟩
  · have : i = .genGet 0 := by injection h with h; exact h.symm
    subst this
    exact .inl rfl
  · have : i = .initTables := by injection h with h; exact h.symm
    subst this
    exact .inr fun p hp => nomatch hp

theorem witness_RstResetsTheBlock : ((waiting 3 1 [.setRst true]).inputs = .setRst true :: []
      ∧ (waiting 3 1 [.setRst true]).engineReady = false)
    ∧ ((inReset [.setRst false]).inputs = .setRst false :: [] ∧ (inReset [.setRst false]).rst = true) := by decide

/-- For every statement about port accesses: an idle and a busy block whose `rst` is released. -/
theorem witness_CmdWriteAcceptsOrIsDropped : State.reset.rst = false ∧ State.reset.status.busy = false
    ∧ (busy 3).rst = false ∧ (busy 3).status.busy = true := by decide

/-- The last clause about writes: CMD_OVR is 1 and a write clears it, an acceptance or a STATUS write. -/
theorem witness_CmdOvrIsCleared :
    let s := State.reset.setStatus State.reset.status.overrun
    s.status.cmdOvr = true ∧ (after (s.memWrite 0x000 .four 3)).map (fun t => t.status.cmdOvr) = some false
      ∧ (after (s.memWrite 0x004 .four 0x20)).map (fun t => t.status.cmdOvr) = some false
      ∧ (after (s.memWrite 0x004 .four 0x06)).map (fun t => t.status.cmdOvr) = some true := ⟨rfl, rfl, rfl, rfl⟩

theorem witness_CmdOvrIsStickyUntilClearedOrAccepted : State.reset.rst = false ∧ State.reset.status.busy = false
    ∧ (busy 3).rst = false ∧ (busy 3).status.busy = true
    ∧ (after (exec .gfInit State.reset)).isSome := ⟨rfl, rfl, rfl, rfl, rfl⟩

theorem witness_StatusReadsItsFieldsAtTheirBits : small.rst = false := rfl
theorem witness_StatusWriteClearsOnlyWrittenOnes : (busy 3).rst = false := rfl
theorem witness_RegistersTakeAndReadTheirFields : State.reset.rst = false ∧ State.reset.status.busy = false := ⟨rfl, rfl⟩

/-- The three clauses: a busy block, an idle one, and one whose command has completed. -/
theorem witness_IrqIsEnabledCompletion : (StatusOk (busy 3) ∧ (busy 3).status.busy = true)
    ∧ (State.reset.rst = false ∧ State.reset.status.busy = false ∧ (0x26 : Word).getLsbD 1 = true
      ∧ (0x26 : Word).getLsbD 2 = true)
    ∧ (after (exec .genInit State.reset)).map (fun t => t.status.err) = some true :=
  ⟨⟨⟨by decide, by decide, by decide, by decide, by decide, by decide, by decide, by decide, by decide⟩, rfl⟩,
    by decide, rfl⟩

/-- The first and the last buffer word, and the one access that straddles the end of GRID (20_memory R66). -/
theorem witness_AlignedAccessesAreLittleEndian : State.reset.rst = false ∧ State.reset.status.busy = false
    ∧ 0x20 ≤ (0x0100 : Addr).toNat ∧ (0x0100 : Addr).toNat % AccessSize.four.bytes = 0
    ∧ (0xBA60 : Addr).toNat % AccessSize.four.bytes = 0 ∧ isBufferByte 0xBA60 ∧ ¬ isBufferByte 0xBA61
    ∧ isBufferByte 0x0100 ∧ ¬ isBufferByte 0x00FF := by decide

theorem witness_IllPlacedAccessesAreIgnored : ((0x0004 : Addr).toNat < 0x20 ∧ AccessSize.one ≠ .four)
    ∧ (0x0101 : Addr).toNat % AccessSize.two.bytes ≠ 0 ∧ (0xFFFF : Addr).toNat % AccessSize.four.bytes ≠ 0 := by decide

theorem witness_ReservedAddressesReadZeroAndIgnoreWrites : 0x20 ≤ (0x0020 : Addr).toNat
    ∧ (∀ k < AccessSize.four.bytes, ¬ isBufferByte ((0x0020 : Addr).toNat + k))
    ∧ (∀ k < AccessSize.four.bytes, ¬ isBufferByte ((0xFFFC : Addr).toNat + k)) := by decide

/-- R73: the fault at DATA_LEN and at the last byte of GRID, and no fault one byte later. -/
theorem witness_HostWriteFaultsExactlyOnBusyOperands : (busy 3).rst = false
    ∧ after ((busy 3).memWrite 0x010 .four 5) = none ∧ after ((busy 3).memWrite 0xBA60 .one 5) = none
    ∧ (after ((busy 3).memWrite 0xBA61 .one 5)).isSome ∧ (after (State.reset.memWrite 0x010 .four 5)).isSome := by
  decide +kernel

/-- Four bytes of BUF_A while INIT_TABLES is in flight, which writes no buffer byte. -/
theorem witness_HostReadsReturnHeldBytesAndChangeNothing :
    let s := withBytes .bufA (bytesOf [9, 8, 7, 6]) (busy 3)
    s.rst = false ∧ 0x20 ≤ (0x0100 : Addr).toNat ∧ (0x0100 : Addr).toNat % AccessSize.four.bytes = 0
      ∧ (∀ k < AccessSize.four.bytes, (s.mem.read ((0x0100 : Addr).toNat + k)).isSome)
      ∧ s.status.busy = true ∧ decode s.pend = .ok .initTables ∧ resultBytes .initTables = [] :=
  ⟨rfl, by decide, by decide, by decide +kernel, rfl, rfl, rfl⟩

/-- The same at the read that straddles the end of GRID (20_memory R66): one byte is held, three are reserved. -/
theorem witness_HostReadsAtTheEndOfGrid :
    let s := wrote 0xBA60 .one 1 State.reset
    s.rst = false ∧ s.status.busy = false ∧ (0xBA60 : Addr).toNat % AccessSize.four.bytes = 0
      ∧ ∀ k < AccessSize.four.bytes, isBufferByte ((0xBA60 : Addr).toNat + k)
        → (s.mem.read ((0xBA60 : Addr).toNat + k)).isSome := by decide +kernel

/-- One command for each error code that is raised by a legal command. -/
theorem witness_FailingCommandsOnlyReportTheirFirstError :
    specError State.reset (.genGet 0) = some .uninitializedTables ∧ specError ready (.genGet 69) = some .unsupportedDegree
      ∧ specError ready (.gfExp 255) = some .outOfBounds ∧ specError ready (.gfLog 0) = some .logOfZero
      ∧ specError ready (.eccEncode 0 10) = some .lengthMismatch := ⟨rfl, rfl, rfl, rfl, rfl⟩

/-- Every command has states in which it meets the hypotheses. -/
theorem witness_CommandsWithoutErrorComplete :
    (∀ i ∈ [Instr.gfInit, .genInit, .initTables, .gfMul 255 0, .gfExp 254, .gfLog 1, .genGet 68],
        i.wf = true ∧ specError ready i = none ∧ operandBytes ready i = [])
      ∧ (let s := withBytes .bufA (bytesOf [1]) (withBytes .bufB (bytesOf [0, 0]) ready)
        specError s (.polyDiv 0 1 0) = none ∧ s.mem.readBlock 0x0100 1 = some (bytesOf [1])
          ∧ s.mem.readBlock 0x0200 2 = some (bytesOf [0, 0]))
      ∧ (let s := withBytes .bufA (bytesOf [1]) ready
        specError s (.eccEncode 1 68) = none ∧ s.mem.readBlock 0x0100 1 = some (bytesOf [1]))
      ∧ (let s := withBytes .data message { ready with dataLen := 16 }
        specError s (.interleave 1 .medium) = none ∧ s.mem.readBlock 0x1000 16 = some message)
      ∧ (let s := withBytes .stream stream26 { State.reset with streamLen := 26 }
        specError s (.buildMatrix 1 .high 7) = none ∧ s.mem.readBlock 0x2000 26 = some stream26) := by
  refine ⟨?_, ⟨rfl, rfl, rfl⟩, ⟨rfl, rfl⟩, ⟨rfl, rfl⟩, ⟨rfl, rfl⟩⟩
  intro i hi
  simp only [List.mem_cons, List.not_mem_nil, or_false] at hi
  rcases hi with rfl | rfl | rfl | rfl | rfl | rfl | rfl <;> exact ⟨rfl, rfl, rfl⟩

/-- A command that meets the hypotheses and whose operand is unwritten, and one whose operand is written. -/
theorem witness_UnwrittenOperandsFault : specError ready (.eccEncode 1 1) = none
    ∧ ¬ OperandsWritten (.eccEncode 1 1) ready
    ∧ OperandsWritten (.eccEncode 1 1) (withBytes .bufA (bytesOf [1]) ready) := by
  refine ⟨rfl, fun h => ?_, ?_⟩
  · exact absurd (h (.bufA, 1) (.head _) 0 (by decide)) (by decide)
  · intro p hp k hk
    have hp : p = (.bufA, 1) := by simpa [operandBytes] using hp
    subst hp
    have : k = 0 := by simp only at hk; omega
    subst this
    rfl

theorem witness_EngineStepsLeaveTheHostsRegistersAlone : (after (exec (.gfMul 3 7) State.reset)).isSome
    ∧ (after (exec (.gfExp 0) small)).isSome := ⟨rfl, rfl⟩

theorem witness_OnlyInitCommandsWriteTables : (after (exec (.genGet 2) small)).isSome := by decide +kernel

theorem witness_CommandsWriteOnlyTheirResultBytes : (after (exec (.genGet 2) small)).isSome
    ∧ ∀ p ∈ resultBytes (.genGet 2), 0x0303 < p.1.base ∨ p.1.base + p.2 ≤ 0x0303 := by decide +kernel

theorem witness_ResultRegistersHaveTheirOwnWriters : (specError State.reset (.gfExp 1)).isSome
    ∧ (after (exec (.gfExp 1) State.reset)).isSome ∧ specError small (.gfExp 1) = none
    ∧ (after (exec (.gfExp 1) small)).isSome := ⟨rfl, rfl, rfl, rfl⟩

/-- The tables of `ready` are the built ones: for every statement with TablesOk and valid bits. -/
theorem ready_tables : TablesOk ready := ⟨fun _ => rfl, nofun, fun _ => rfl, nofun⟩

theorem ready_status : StatusOk ready :=
  ⟨by decide, by decide, by decide, by decide, by decide, by decide, by decide, by decide, by decide⟩

theorem reset_tables : TablesOk State.reset := ⟨nofun, fun _ => rfl, nofun, fun _ => rfl⟩

theorem witness_TablesAreInverse : TablesOk ready ∧ ready.status.gfValid = true ∧ (255 : Byte) ≠ 0 :=
  ⟨ready_tables, rfl, by decide⟩

theorem witness_GfMulGivesTheFieldProduct : TablesOk ready ∧ ready.status.gfValid = true := ⟨ready_tables, rfl⟩
theorem witness_MultiplyIsAFieldMultiply : TablesOk ready ∧ ready.status.gfValid = true := ⟨ready_tables, rfl⟩
theorem witness_ScaleMultipliesByAPowerOfAlpha : TablesOk ready ∧ ready.status.gfValid = true := ⟨ready_tables, rfl⟩

/-- The three clauses: without tables, e = 255, and e = 254. -/
theorem witness_GfExpGivesAPowerOfAlpha : (TablesOk State.reset ∧ State.reset.status.gfValid = false)
    ∧ (TablesOk ready ∧ ready.status.gfValid = true) ∧ 255 < 256 ∧ 254 < 255 :=
  ⟨⟨reset_tables, rfl⟩, ⟨ready_tables, rfl⟩, by decide, by decide⟩

/-- The three clauses: without tables, v = 0, and v = 255. -/
theorem witness_GfLogGivesTheExponent : (TablesOk State.reset ∧ State.reset.status.gfValid = false)
    ∧ (TablesOk ready ∧ ready.status.gfValid = true) ∧ 0 < 256 ∧ 255 < 256 ∧ 255 ≠ 0 :=
  ⟨⟨reset_tables, rfl⟩, ⟨ready_tables, rfl⟩, by decide, by decide, by decide⟩

theorem witness_GenInitBuildsTheRecursion : TablesOk ready ∧ ready.status.gfValid = true := ⟨ready_tables, rfl⟩
theorem witness_GeneratorsHaveTheirRoots : TablesOk ready ∧ ready.status.genValid = true ∧ 1 ≤ 68 ∧ 68 ≤ 68 :=
  ⟨ready_tables, rfl, by decide, by decide⟩
theorem witness_GenGetWritesTheRow : ready.status.genValid = true ∧ 1 ≤ 1 ∧ 1 ≤ 68 ∧ 1 ≤ 68 ∧ 68 ≤ 68 := by
  exact ⟨rfl, by decide, by decide, by decide, by decide⟩
theorem witness_RepeatedInitsRewriteTheSameValues : TablesOk ready ∧ ready.status.gfValid = true
    ∧ ready.status.genValid = true := ⟨ready_tables, rfl, rfl⟩

/-- A zero dividend, and one exactly as short as the divisor's degree (D3). -/
theorem witness_RemainderLawsOfTheDivision : (∀ x ∈ bytesOf [0, 0, 0], x = 0)
    ∧ (bytesOf [5, 6]).length + 1 ≤ (bytesOf [75, 249, 78, 6]).length := by decide

/-- The divisor's degree equal to the length of the dividend (D13), and a q and an r for the last clause. -/
theorem witness_DivisionGivesTheUniqueRemainder : TablesOk ready ∧ ready.status.gfValid = true
    ∧ (bytesOf [0]).length ≤ (bytesOf [7]).length + 0 ∧ (bytesOf [7]).length = (bytesOf [0]).length
    ∧ bytesOf [7] ++ List.replicate 0 0 = quotientTimesPlus (fromExponents (0 :: bytesOf [0])) [] (bytesOf [7]) :=
  ⟨ready_tables, rfl, by decide, by decide, by decide⟩

/-- D15: 191 coefficients are accepted. -/
theorem witness_PolyDivWritesTheRemainder :
    let s := withBytes .bufA (bytesOf [1, 2, 3, 4, 5]) (withBytes .bufB (bytesOf [0, 25, 1]) ready)
    s.status.gfValid = true ∧ 4 + 1 + 186 ≤ 191
      ∧ (∀ k ≤ 4, s.mem.read (0x0100 + k) = some ((bytesOf [1, 2, 3, 4, 5]).getD k 0))
      ∧ (∀ k ≤ 2, s.mem.read (0x0200 + k) = some ((bytesOf [0, 25, 1]).getD k 0)) := by decide +kernel

/-- ECC_COUNT at its largest, 68. -/
theorem witness_EccEncodeGivesACodeword :
    let s := withBytes .bufA (bytesOf [1]) ready
    TablesOk s ∧ StatusOk s ∧ s.status.genValid = true ∧ 68 ≤ 68 ∧ 1 + 68 ≤ 191
      ∧ (∀ k < 1, s.mem.read (0x0100 + k) = some ((bytesOf [1]).getD k 0)) := by
  refine ⟨⟨fun _ => rfl, nofun, fun _ => rfl, nofun⟩, ⟨?_, ?_, ?_, ?_, ?_, ?_, ?_, ?_, ?_⟩, rfl,
    by decide, by decide, by decide +kernel⟩ <;> decide +kernel

theorem witness_EccEncodeIsDivisionByTheGenerator :
    let s := withBytes .bufA (bytesOf [1]) (withBytes .bufB (genRow ready.gen 1) ready)
    s.status.gfValid = true ∧ s.status.genValid = true ∧ 1 + 1 ≤ 191
      ∧ (∀ k < 1, (s.mem.read (0x0100 + k)).isSome)
      ∧ (∀ j ≤ 1, s.mem.read (0x0200 + j) = some (genAt s.gen 1 j)) := by
  refine ⟨rfl, rfl, by decide, fun k hk => ?_, fun j hj => ?_⟩
  · have : k = 0 := by omega
    subst this
    rfl
  · have : j = 0 ∨ j = 1 := by omega
    rcases this with rfl | rfl <;> rfl

/-- The first and the last version. -/
theorem witness_BlockGeometryKeepsItsLaws : 1 ≤ 1 ∧ 1 ≤ 40 ∧ 40 ≤ 40 ∧ 0 < (blockSpec 5 .quartile).g2b := by decide

theorem witness_InterleaveFillsTheStream :
    let s := withBytes .data message { ready with dataLen := 16 }
    s.status.genValid = true ∧ s.dataLen.toNat = (blockSpec 1 .medium).capacity
      ∧ s.mem.readBlock 0x1000 16 = some message := ⟨rfl, rfl, rfl⟩

/-- The hypotheses of both statements about INTERLEAVE; 5-Q has blocks of both groups (V-ILV-2). -/
theorem witness_InterleavePlacesEveryByte :
    let data := bytesOf (List.range 62)
    let s := withBytes .data data { ready with dataLen := 62 }
    s.status.genValid = true ∧ data.length = (blockSpec 5 .quartile).capacity ∧ s.dataLen.toNat = data.length
      ∧ (∀ k < data.length, s.mem.read (0x1000 + k) = some (data.getD k 0)) := by decide +kernel

/-- The hypotheses of the statements about BUILD_MATRIX, at the last mask. -/
theorem witness_BuildMatrixGivesABinaryGrid :
    let s := withBytes .stream stream26 { State.reset with streamLen := 26 }
    7 < 8 ∧ s.streamLen.toNat = totalCodewords 1 ∧ stream26.length = totalCodewords 1
      ∧ (∀ k < totalCodewords 1, s.mem.read (0x2000 + k) = some (stream26.getD k 0)) := by decide +kernel

theorem witness_GridDependsOnOperandsAndStreamOnly :
    let s := withBytes .stream stream26 { State.reset with streamLen := 26 }
    let s' := withBytes .grid (bytesOf [1, 1]) s
    s.streamLen.toNat = totalCodewords 1 ∧ s'.streamLen.toNat = totalCodewords 1
      ∧ (∀ k < totalCodewords 1, (s.mem.read (0x2000 + k)).isSome ∧ s.mem.read (0x2000 + k) = s'.mem.read (0x2000 + k)) := by
  decide +kernel

/-- The clauses at their smallest and largest indices: version 1 has the timing cells 8..12, version 7 version blocks. -/
theorem witness_FunctionPatternsStandInTheGrid : 1 ≤ 1 ∧ 40 ≤ 40 ∧ 0 < 8 ∧ 8 ≤ 12 ∧ 12 < 4 * 1 + 17 - 8 := by decide
theorem witness_VersionAndFormatWordsStandInTheGrid : 7 ≤ 7 ∧ 17 < 18 ∧ 9 ≤ 14 ∧ 14 < 15 ∧ 8 ≤ 8 := by decide
/-- R207's rows of the first and the last version and of version 32; the one pattern of version 2 is at (18, 18), and
(6, 22) is a centre of version 7. -/
theorem witness_AlignmentPatternsStandInTheGrid : align 2 = [6, 18] ∧ align 32 = [6, 34, 60, 86, 112, 138]
    ∧ align 40 = [6, 30, 58, 86, 114, 142, 170] ∧ 18 ∈ align 2
    ∧ ¬ ((18 = 6 ∧ 18 = 6) ∨ (18 = 6 ∧ 18 = 4 * 2 + 10) ∨ (18 = 4 * 2 + 10 ∧ 18 = 6)) ∧ 6 ∈ align 7 ∧ 22 ∈ align 7
    ∧ ¬ ((6 = 6 ∧ 22 = 6) ∨ (6 = 6 ∧ 22 = 4 * 7 + 10) ∨ (6 = 4 * 7 + 10 ∧ 22 = 6)) := by decide
/-- R220's first cell for version 1 is unset and in the scan, so ORDER is not empty; the scan starts as the rule says, and
its last lane runs downward. -/
theorem witness_DataCellsHoldTheMaskedStream : (functionGrid 1 .medium 0).get 20 20 = 2
    ∧ (scan 21).take 3 = [(20, 20), (20, 19), (19, 20)] ∧ (scan 21).drop 418 = [(20, 1), (20, 0)]
    ∧ (scan 21).all (fun rc => rc.2 != 6) = true := by
  refine ⟨?_, by decide +kernel⟩
  rw [functionGrid, Grid.get_apply_other _ _ _ _ (by simp) (by decide) (by decide +kernel), Grid.get_blank]
  rfl

/-- R220: the scan's positions where its clauses meet. Version 1 has lanes of 42 cells: the first cell, the turn to the
second lane, the two cells at either side of column 6 (lane 6 ends upward at row 0, lane 7 starts there), the last. -/
theorem test_scanPosition : scanPosition 21 (20, 20) = 0 ∧ scanPosition 21 (0, 19) = 41 ∧ scanPosition 21 (0, 18) = 42
    ∧ scanPosition 21 (0, 7) = 7 * 42 - 1 ∧ scanPosition 21 (0, 5) = 7 * 42 ∧ scanPosition 21 (20, 0) = 10 * 42 - 1 := by
  decide

theorem witness_RemainderBitsOfEveryVersion : remainderBits 1 = 0 ∧ remainderBits 2 = 7 ∧ remainderBits 6 = 7
    ∧ remainderBits 7 = 0 ∧ remainderBits 14 = 3 ∧ remainderBits 21 = 4 ∧ remainderBits 28 = 3 ∧ remainderBits 35 = 0 := by
  decide
/-- VERINFO[7] and FMT[8] as the tables of R212 and R215 print them. -/
theorem witness_VersionAndFormatWordsAreBchWords : versionInfo 7 = 0x07C94 ∧ formatInfo .medium 0 = 0x5412 := by decide

theorem witness_StepKeepsStatusOk : StatusOk ready ∧ (after (step ready)).isSome := ⟨ready_status, rfl⟩
theorem witness_StepKeepsTablesOk : TablesOk ready ∧ (after (step ready)).isSome := ⟨ready_tables, rfl⟩
theorem witness_StepKeepsMemoryOk : MemoryOk (accepted 0x00040540 State.reset)
    ∧ (after (step (accepted 0x00040540 State.reset))).isSome :=
  ⟨⟨.nil, nofun, .nil, nofun, .nil, nofun, .nil, nofun⟩, rfl⟩

/-! ## The longest evaluations -/

/-- V-GF-1: spot values of the tables. -/
theorem test_gfInit_tables : [7, 8, 25].map smallGf.expAt = bytesOf [128, 29, 3]
    ∧ ([2, 3, 29, 128].map fun v => smallGf.logAt (byte v)) = bytesOf [1, 25, 8, 7] := by decide +kernel

/-- V-ILV-1, the source's ECC fixture: INTERLEAVE 1, M. -/
theorem test_interleave : bytesAfter 0x2000 26 (step (accepted 0x00010140
      (withBytes .data message { tenRows with dataLen := 16 }))) = some stream26 := by decide +kernel

/-- S-1: BUILD_MATRIX 1, M, 0 from reset tables. -/
theorem test_buildMatrix : registersAfter (step (accepted 0x00010150
      (withBytes .stream stream26 { State.reset with streamLen := 26 }))) = some (0x00500002, 0, 441) := by decide +kernel

/-- V-MAT-1: the first four data cells, and row 8 of the first format copy. -/
theorem test_buildMatrix_cells :
    phaseD 1 0 stream26 ((scan 21).take 4) = [(20, 20, 1), (20, 19, 0), (19, 20, 1), (19, 19, 1)]
      ∧ ((phaseC 1 .medium 0).filter fun w => w.1 == 8 && decide (w.2.1 < 6))
        = [(8, 5, 0), (8, 4, 1), (8, 3, 0), (8, 2, 1), (8, 1, 0), (8, 0, 1)] := by decide +kernel

end Sys2Proof.Tests
end

