-- ==== Sys2Proof/Proofs/Reset.lean ====
section
/-! SUPPORT. The reset values of the state (10_state R47). -/

namespace Sys2Proof.Proofs.Reset

open Sys2Proof Sys2Proof.Machine

@[simp] theorem toWord_reset : Status.reset.toWord = 0 := rfl

/-- With interrupts disabled the line is low, whatever STATUS holds (60_exceptions R275). -/
theorem irq_eq_false_of_irqEn (s : State) (h : s.irqEn = false) : s.irq = false := by
  simp [State.irq, h]

/-- Settles O9: the registers stand in `State.reset` as literals, `irq` is low because IRQ_EN is clear, and a map
without cells reads as no value at every key. -/
theorem resetLeavesTheStatedValues : Obligations.ResetLeavesTheStatedValues := by
  have hstatus : State.reset.status.toWord = 0 := toWord_reset
  have hirq : State.reset.irq = false := irq_eq_false_of_irqEn State.reset rfl
  have hmem : ∀ a, State.reset.mem.read a = none := Memory.read_nil
  have hwork : ∀ a, State.reset.work.read a = none := Memory.read_nil
  have hexp : ∀ a, State.reset.gf.exp.read a = none := Memory.read_nil
  have hlog : ∀ a, State.reset.gf.log.read a = none := Memory.read_nil
  exact ⟨rfl, hstatus, rfl, rfl, rfl, rfl, rfl, rfl, rfl, hirq, hmem, hwork, hexp, hlog, rfl⟩

end Sys2Proof.Proofs.Reset
end

