-- ==== Sys2Proof/Proofs/Encoding.lean ====
section
/-! SUPPORT. The worked encodings of 30_encoding R88. -/

namespace Sys2Proof.Proofs.Encoding

open Sys2Proof

/-- A word that no row selects is rejected for its reason (30_encoding R84). -/
theorem decode_eq_error {w : Word} (h : ∀ row ∈ opcodeTable, rowSelects row w = false) :
    decode w = .error (rejectReason w) := by
  have hnone : opcodeTable.find? (fun row => rowSelects row w) = none := by simpa using h
  simp only [decode, hnone]

/-- R88's illegal word: bit 18 is inside the mask of INTERLEAVE's row, and every other row wants another OPC. -/
theorem interleave_with_bit18_is_unselected : ∀ row ∈ opcodeTable, rowSelects row 0x00040540 = false := by decide

/-- OPC 0x40 is INTERLEAVE's, so the word is rejected for a fixed-zero bit and not for its OPC. -/
theorem rejectReason_interleave_with_bit18 : rejectReason 0x00040540 = .fixedZeroBitSet "INTERLEAVE" := rfl

/-- Settles O4: the map selects each legal word's row, whose fields are the operands of R88, and no row selects the
illegal word. -/
theorem workedEncodingsDecode : Obligations.WorkedEncodingsDecode := by
  have hillegal : decode 0x00040540 = .error (.fixedZeroBitSet "INTERLEAVE") := by
    rw [decode_eq_error interleave_with_bit18_is_unselected, rejectReason_interleave_with_bit18]
  exact ⟨rfl, rfl, rfl, rfl, rfl, rfl, rfl, rfl, hillegal⟩

end Sys2Proof.Proofs.Encoding
end

