-- ==== Sys2Proof/Proofs/Gf.lean ====
section
/-! SUPPORT. The powers of α, and the tables of GF_INIT in terms of them (40_gf R100–R108): α has order 255, so every
nonzero byte is a power of α, and on powers of α the machine's multiply and scale add exponents. -/

namespace Sys2Proof.Proofs.Gf

open Sys2Proof Sys2Proof.Machine

/-! ## The product with x -/

/-- The product with x is linear over XOR. -/
theorem timesX_xor (a b : Byte) : timesX (a ^^^ b) = timesX a ^^^ timesX b := by
  simp only [← gfDouble_eq_timesX, gfDouble, BitVec.getLsbD_xor, BitVec.shiftLeft_xor_distrib]
  generalize a <<< 1 = x, b <<< 1 = y
  cases a.getLsbD 7 <;> cases b.getLsbD 7
  · rfl
  · exact BitVec.xor_assoc x y 0x1D
  · show x ^^^ y ^^^ 0x1D = x ^^^ 0x1D ^^^ y
    ac_rfl
  · calc x ^^^ y
      _ = x ^^^ y ^^^ (0x1D ^^^ 0x1D) := by rw [BitVec.xor_self, BitVec.xor_zero]
      _ = (x ^^^ 0x1D) ^^^ (y ^^^ 0x1D) := by ac_rfl

theorem timesX_zero : timesX 0 = 0 := rfl

/-- The product with x taken n times in a row; `gfMul_alpha_left` says that it is the machine's product with α^n. -/
def timesXPow : Nat → Byte → Byte
  | 0, b => b
  | n + 1, b => timesX (timesXPow n b)

theorem timesXPow_xor (n : Nat) (a b : Byte) : timesXPow n (a ^^^ b) = timesXPow n a ^^^ timesXPow n b := by
  induction n with
  | zero => rfl
  | succ n ih => rw [timesXPow, ih, timesX_xor, timesXPow, timesXPow]

theorem timesXPow_zero (n : Nat) : timesXPow n 0 = 0 := by
  induction n with
  | zero => rfl
  | succ n ih => rw [timesXPow, ih, timesX_zero]

theorem timesXPow_add (i j : Nat) (b : Byte) : timesXPow (i + j) b = timesXPow i (timesXPow j b) := by
  induction i with
  | zero => rw [Nat.zero_add, timesXPow]
  | succ i ih => rw [Nat.succ_add, timesXPow, ih, timesXPow]

/-! ## The powers of α -/

theorem alpha_eq_timesXPow (n : Nat) : alpha n = timesXPow n 1 := by
  induction n with
  | zero => rfl
  | succ n ih => rw [alpha, ih, timesXPow]

theorem alpha_add (i j : Nat) : alpha (i + j) = timesXPow i (alpha j) := by
  rw [alpha_eq_timesXPow, alpha_eq_timesXPow, timesXPow_add]

theorem alpha_255 : alpha 255 = 1 := by decide +kernel

/-- With `alpha_255`: the order of α is 255. -/
theorem alpha_ne_one : ∀ n < 255, 0 < n → alpha n ≠ 1 := by decide +kernel

theorem alpha_add_255 (n : Nat) : alpha (n + 255) = alpha n := by
  rw [alpha_add, alpha_255, alpha_eq_timesXPow]

theorem alpha_add_mul_255 (n k : Nat) : alpha (n + 255 * k) = alpha n := by
  induction k with
  | zero => rfl
  | succ k ih => rw [Nat.mul_succ, ← Nat.add_assoc, alpha_add_255, ih]

theorem alpha_mod (n : Nat) : alpha (n % 255) = alpha n := by
  rw [← alpha_add_mul_255 (n % 255) (n / 255), Nat.mod_add_div]

/-- No power of α is 0: products with x would keep it 0 up to a multiple of the order. -/
theorem alpha_ne_zero (n : Nat) : alpha n ≠ 0 := by
  intro hzero
  have hle : n % 255 ≤ 255 := Nat.le_of_lt (Nat.mod_lt n (by decide))
  have hone : alpha (255 - n % 255 + n % 255) = 1 := by rw [Nat.sub_add_cancel hle, alpha_255]
  rw [alpha_add, alpha_mod, hzero, timesXPow_zero] at hone
  exact absurd hone (by decide)

/-- Two equal powers would give a power between 0 and the order that is 1. -/
theorem alpha_ne_of_lt {i j : Nat} (hij : i < j) (hj : j < 255) : alpha i ≠ alpha j := by
  intro heq
  have hone : alpha (255 - j + i) = 1 := by
    rw [alpha_add, heq, ← alpha_add, Nat.sub_add_cancel (Nat.le_of_lt hj), alpha_255]
  exact alpha_ne_one _ (by omega) (by omega) hone

/-- The powers of α below its order. -/
def powersOfAlpha : List Byte := (List.range 255).map alpha

theorem mem_powersOfAlpha {a : Byte} : a ∈ powersOfAlpha ↔ ∃ i < 255, alpha i = a := by
  simp only [powersOfAlpha, List.mem_map, List.mem_range]

theorem zero_not_mem_powersOfAlpha : 0 ∉ powersOfAlpha := by
  rw [mem_powersOfAlpha]
  exact fun ⟨i, _, hi⟩ => alpha_ne_zero i hi

theorem nodup_powersOfAlpha : powersOfAlpha.Nodup :=
  List.pairwise_map.2 <| List.pairwise_lt_range.imp_of_mem fun _ hj hij => alpha_ne_of_lt hij (List.mem_range.1 hj)

theorem length_powersOfAlpha : powersOfAlpha.length = 255 := by
  rw [powersOfAlpha, List.length_map, List.length_range]

/-- The pigeonhole principle for bytes. -/
theorem length_le_of_nodup {l : List Byte} (h : l.Nodup) : l.length ≤ 256 := by
  have hsub : l ⊆ (List.range 256).map byte := fun a _ =>
    List.mem_map.2 ⟨a.toNat, List.mem_range.2 a.isLt, BitVec.ofNat_toNat 8 a⟩
  have hle := h.length_le_of_subset hsub
  rwa [List.length_map, List.length_range] at hle

/-- α generates the field: with 0 and one byte more, its 255 distinct powers would be too many bytes. -/
theorem exists_alpha_eq {a : Byte} (ha : a ≠ 0) : ∃ i < 255, alpha i = a := by
  refine mem_powersOfAlpha.1 (Decidable.byContradiction fun hmem => ?_)
  have hmem0 : a ∉ 0 :: powersOfAlpha := List.not_mem_cons_of_ne_of_not_mem ha hmem
  have hnodup : (a :: 0 :: powersOfAlpha).Nodup :=
    List.nodup_cons.2 ⟨hmem0, List.nodup_cons.2 ⟨zero_not_mem_powersOfAlpha, nodup_powersOfAlpha⟩⟩
  have hle := length_le_of_nodup hnodup
  rw [List.length_cons, List.length_cons, length_powersOfAlpha] at hle
  omega

theorem eq_zero_or_alpha (a : Byte) : a = 0 ∨ ∃ i, alpha i = a := by
  by_cases ha : a = 0
  · exact .inl ha
  · obtain ⟨i, -, hi⟩ := exists_alpha_eq ha
    exact .inr ⟨i, hi⟩

/-! ## The tables of GF_INIT -/

theorem expAt_gfBuild (t : GfTables) {i : Nat} (hi : i < 255) : (gfBuild t).expAt i = alpha i := by
  rw [GfTables.expAt, gfBuild, gfLoop_exp, if_pos hi, Option.getD_some]

/-- `EXP` at a sum of logarithms, as the multiply and the scale read it. -/
@[simp] theorem expAt_gfBuild_mod (t : GfTables) (n : Nat) : (gfBuild t).expAt (n % 255) = alpha n := by
  rw [expAt_gfBuild t (Nat.mod_lt n (by omega)), alpha_mod]

/-- A later turn of the loop does not overwrite the logarithm of an earlier power, since the powers are distinct. -/
theorem gfLoop_log_alpha (t : GfTables) {n i : Nat} (hn : n ≤ 255) (hi : i < n) :
    ((List.range n).foldl gfLoopTurn ⟨1, t⟩).tables.log.read (alpha i).toNat = some (byte i) := by
  induction n with
  | zero => omega
  | succ n ih =>
    rw [gfLoop_log_succ]
    split
    next heq =>
      have hnlt : ¬ i < n := fun hlt => alpha_ne_of_lt hlt hn (BitVec.eq_of_toNat_eq heq).symm
      rw [show n = i by omega]
    next hne =>
      have hin : i ≠ n := fun h => hne (by rw [h])
      exact ih (by omega) (by omega)

theorem logAt_gfBuild_alpha (t : GfTables) {i : Nat} (hi : i < 255) : (gfBuild t).logAt (alpha i) = byte i := by
  rw [GfTables.logAt, gfBuild, gfLoop_log_alpha t (Nat.le_refl 255) hi, Option.getD_some]

@[simp] theorem toNat_logAt_gfBuild_alpha (t : GfTables) (n : Nat) :
    ((gfBuild t).logAt (alpha n)).toNat = n % 255 := by
  have hlt : n % 255 < 255 := Nat.mod_lt n (by omega)
  rw [← alpha_mod, logAt_gfBuild_alpha t hlt, BitVec.toNat_ofNat, Nat.mod_eq_of_lt (by omega)]

/-- Settles O30: a nonzero byte is a power of α, and the tables hold the powers and their exponents. -/
theorem tablesAreInverse : Obligations.TablesAreInverse := by
  intro s hok hvalid
  rw [hok.gfBuilt hvalid]
  refine ⟨fun e he => ?_, fun i hi => ?_⟩
  · obtain ⟨i, -, rfl⟩ := exists_alpha_eq he
    rw [toNat_logAt_gfBuild_alpha, expAt_gfBuild_mod]
    exact ⟨Nat.mod_lt i (by omega), rfl⟩
  · rw [expAt_gfBuild _ hi]
    exact ⟨alpha_ne_zero i, logAt_gfBuild_alpha _ hi⟩

/-! ## The multiply -/

theorem gfMul_zero_left (t : GfTables) (b : Byte) : t.mul 0 b = 0 := if_pos (.inl rfl)

theorem gfMul_zero_right (t : GfTables) (a : Byte) : t.mul a 0 = 0 := if_pos (.inr rfl)

@[simp] theorem gfMul_alpha_alpha (t : GfTables) (i j : Nat) : (gfBuild t).mul (alpha i) (alpha j) = alpha (i + j) := by
  rw [GfTables.mul, if_neg (not_or.2 ⟨alpha_ne_zero i, alpha_ne_zero j⟩), expAt_gfBuild_mod,
    toNat_logAt_gfBuild_alpha, toNat_logAt_gfBuild_alpha, ← alpha_mod, ← Nat.add_mod, alpha_mod]

/-- The product with a power of α is the repeated product with x. -/
theorem gfMul_alpha_left (t : GfTables) (i : Nat) (b : Byte) : (gfBuild t).mul (alpha i) b = timesXPow i b := by
  obtain rfl | ⟨j, rfl⟩ := eq_zero_or_alpha b
  · rw [gfMul_zero_right, timesXPow_zero]
  · rw [gfMul_alpha_alpha, alpha_add]

theorem gfMul_comm (t : GfTables) (a b : Byte) : t.mul a b = t.mul b a := by
  simp only [GfTables.mul, or_comm, Nat.add_comm]

theorem gfMul_one (t : GfTables) (a : Byte) : (gfBuild t).mul a 1 = a := by
  rw [gfMul_comm]
  exact gfMul_alpha_left t 0 a

theorem gfMul_assoc (t : GfTables) (a b c : Byte) :
    (gfBuild t).mul ((gfBuild t).mul a b) c = (gfBuild t).mul a ((gfBuild t).mul b c) := by
  obtain rfl | ⟨i, rfl⟩ := eq_zero_or_alpha a
  · simp only [gfMul_zero_left]
  obtain rfl | ⟨j, rfl⟩ := eq_zero_or_alpha b
  · simp only [gfMul_zero_left, gfMul_zero_right]
  · rw [gfMul_alpha_alpha]
    simp only [gfMul_alpha_left, timesXPow_add]

/-- The multiply distributes over XOR because the product with x does. -/
theorem gfMul_xor (t : GfTables) (a b c : Byte) :
    (gfBuild t).mul a (b ^^^ c) = (gfBuild t).mul a b ^^^ (gfBuild t).mul a c := by
  obtain rfl | ⟨i, rfl⟩ := eq_zero_or_alpha a
  · rw [gfMul_zero_left, gfMul_zero_left, gfMul_zero_left]
    exact BitVec.xor_self.symm
  · simp only [gfMul_alpha_left, timesXPow_xor]

/-- Settles O32: the nonzero bytes are powers of α, whose exponents add, and the product with α^i is i products with x,
each linear over XOR. -/
theorem multiplyIsAFieldMultiply : Obligations.MultiplyIsAFieldMultiply := by
  intro s hok hvalid a b c
  rw [hok.gfBuilt hvalid]
  exact ⟨gfMul_comm _ a b, gfMul_one _ a, gfMul_zero_right _ a, gfMul_assoc _ a b c, gfMul_xor _ a b c⟩

/-! ## The scale -/

theorem gfScale_mod (t : GfTables) (f : Byte) (e : Nat) : t.scale f (e % 255) = t.scale f e := by
  simp only [GfTables.scale, Nat.add_mod_mod]

theorem gfScale_eq_mul_alpha (t : GfTables) (f : Byte) (e : Nat) :
    (gfBuild t).scale f e = (gfBuild t).mul f (alpha e) := by
  simp only [GfTables.scale, GfTables.mul, alpha_ne_zero, or_false, toNat_logAt_gfBuild_alpha, Nat.add_mod_mod]

/-- Settles O33: the formula is the scale's definition, the logarithm of α^e is e modulo 255, and α^0 is the unit. -/
theorem scaleMultipliesByAPowerOfAlpha : Obligations.ScaleMultipliesByAPowerOfAlpha := by
  intro s hok hvalid f e
  rw [hok.gfBuilt hvalid]
  have hunit : (gfBuild ⟨[], []⟩).scale f 0 = f := by rw [gfScale_eq_mul_alpha, alpha, gfMul_one]
  exact ⟨rfl, gfScale_eq_mul_alpha _ f e, (gfScale_mod _ f e).symm, hunit⟩

end Sys2Proof.Proofs.Gf
end

