-- ==== Sys2Proof/Proofs/Generator.lean ====
section
/-! SUPPORT. The generator polynomials (41_generator R120, R121, R123): `genCoeff` is the recursion of R121 on the
coefficients themselves. No coefficient is 0 below the order of α, so the rows of GEN hold the logarithms, and Horner's
scheme on the coefficients finds the factors x − α^i again. -/

namespace Sys2Proof.Proofs.Generator

open Sys2Proof Sys2Proof.Machine Sys2Proof.Proofs.Gf

/-! ## XOR with the field's zero -/

theorem byte_xor_zero (a : Byte) : a ^^^ 0 = a := BitVec.xor_zero

theorem byte_xor_self (a : Byte) : a ^^^ a = 0 := BitVec.xor_self

theorem xor_cancel_outer (a b c : Byte) : (a ^^^ b) ^^^ (c ^^^ a) = b ^^^ c :=
  calc (a ^^^ b) ^^^ (c ^^^ a)
    _ = (b ^^^ c) ^^^ (a ^^^ a) := by ac_rfl
    _ = b ^^^ c := by rw [byte_xor_self, byte_xor_zero]

/-! ## Horner's product with a power of α -/

theorem fieldProduct_zero_left : ∀ b : Byte, fieldProduct 0 b = 0 := by decide +kernel

theorem fieldProduct_one_left : ∀ b : Byte, fieldProduct 1 b = b := by decide +kernel

/-- The product with x goes through Horner's scheme, turn by turn. -/
theorem fieldProduct_timesX_left (a b : Byte) : fieldProduct (timesX a) b = timesX (fieldProduct a b) := by
  show (List.range 8).foldl _ (timesX 0) = _
  refine List.foldl_hom timesX fun acc i => ?_
  rw [timesX_xor, apply_ite timesX, timesX_zero]

theorem fieldProduct_alpha_left (n : Nat) (b : Byte) : fieldProduct (alpha n) b = timesXPow n b := by
  induction n with
  | zero => exact fieldProduct_one_left b
  | succ n ih => rw [alpha, fieldProduct_timesX_left, ih, timesXPow]

theorem fieldProduct_alpha_right (a : Byte) (n : Nat) : fieldProduct a (alpha n) = timesXPow n a := by
  obtain rfl | ⟨i, rfl⟩ := eq_zero_or_alpha a
  · rw [fieldProduct_zero_left, timesXPow_zero]
  · rw [fieldProduct_alpha_left, ← alpha_add, ← alpha_add, Nat.add_comm]

/-! ## The coefficients -/

/-- The coefficient of x^(d−j) in g_d, by the recursion of R121 on the coefficients, from g_0 = 1; it is 0 for j > d. -/
def genCoeff : Nat → Nat → Byte
  | _, 0 => 1
  | 0, _ + 1 => 0
  | d + 1, j + 1 => genCoeff d (j + 1) ^^^ timesXPow d (genCoeff d j)

@[simp] theorem genCoeff_zero_right (d : Nat) : genCoeff d 0 = 1 := by cases d <;> rfl

theorem genCoeff_succ_succ (d j : Nat) :
    genCoeff (d + 1) (j + 1) = genCoeff d (j + 1) ^^^ timesXPow d (genCoeff d j) := rfl

theorem genCoeff_eq_zero_of_lt {d j : Nat} (h : d < j) : genCoeff d j = 0 := by
  induction d generalizing j with
  | zero =>
    cases j with
    | zero => omega
    | succ j => rfl
  | succ d ih =>
    cases j with
    | zero => omega
    | succ j =>
      rw [genCoeff_succ_succ, ih (by omega), ih (by omega), timesXPow_zero]
      rfl

theorem genCoeff_succ_self (d : Nat) : genCoeff (d + 1) (d + 1) = timesXPow d (genCoeff d d) := by
  rw [genCoeff_succ_succ, genCoeff_eq_zero_of_lt (Nat.lt_succ_self d)]
  exact BitVec.zero_xor

theorem triangle_succ (d : Nat) : (d + 1) * (d + 1 - 1) / 2 = d + d * (d - 1) / 2 := by
  cases d with
  | zero => rfl
  | succ d =>
    have hsplit : (d + 2) * (d + 1) = (d + 1) * d + 2 * (d + 1) := by rw [Nat.add_mul, Nat.mul_comm d]
    rw [Nat.add_sub_cancel, Nat.add_sub_cancel, hsplit, Nat.add_mul_div_left _ _ (by decide), Nat.add_comm]

/-- The constant term is α^(0+1+…+(d−1)) (R123). -/
theorem genCoeff_self (d : Nat) : genCoeff d d = alpha (d * (d - 1) / 2) := by
  induction d with
  | zero => rfl
  | succ d ih => rw [genCoeff_succ_self, ih, ← alpha_add, triangle_succ]

/-- Neighbours in row d: `(α^(j+1) + 1)·c_(j+1) = (α^d + α^j)·c_j`, as between Gaussian binomials. -/
def NeighbourRatio (d : Nat) : Prop := ∀ j, timesXPow (j + 1) (genCoeff d (j + 1)) ^^^ genCoeff d (j + 1)
  = timesXPow d (genCoeff d j) ^^^ timesXPow j (genCoeff d j)

/-- The same coefficient in two rows: `(α^(d+1) + α^j)·c'_j = (α^j + α^(d+1+j))·c_j`. -/
theorem NeighbourRatio.next_row {d : Nat} (h : NeighbourRatio d) (j : Nat) :
    timesXPow (d + 1) (genCoeff (d + 1) j) ^^^ timesXPow j (genCoeff (d + 1) j)
      = timesXPow j (genCoeff d j) ^^^ timesXPow (d + 1 + j) (genCoeff d j) := by
  cases j with
  | zero =>
    simp only [genCoeff_zero_right]
    exact BitVec.xor_comm _ _
  | succ i =>
    have hscaled := congrArg (timesXPow (d + 1)) (h i)
    have hshift : i + 1 + d = d + 1 + i := by omega
    simp only [genCoeff_succ_succ, timesXPow_xor, ← timesXPow_add, hshift] at hscaled ⊢
    generalize genCoeff d (i + 1) = b, genCoeff d i = a at hscaled ⊢
    calc timesXPow (d + 1) b ^^^ timesXPow (d + 1 + d) a ^^^ (timesXPow (i + 1) b ^^^ timesXPow (d + 1 + i) a)
      _ = (timesXPow (d + 1) b ^^^ timesXPow (i + 1) b)
          ^^^ (timesXPow (d + 1 + d) a ^^^ timesXPow (d + 1 + i) a) := by ac_rfl
      _ = timesXPow (i + 1) b ^^^ timesXPow (d + 1 + (i + 1)) b := by rw [← hscaled, xor_cancel_outer]

theorem neighbourRatio (d : Nat) : NeighbourRatio d := by
  induction d with
  | zero =>
    rintro (- | j)
    · rfl
    · rw [genCoeff_eq_zero_of_lt (by omega), genCoeff_eq_zero_of_lt (by omega)]
      simp only [timesXPow_zero]
  | succ d ih =>
    intro j
    have hshift : j + 1 + d = d + 1 + j := by omega
    have hratio := ih j
    rw [ih.next_row j, genCoeff_succ_succ, timesXPow_xor, ← timesXPow_add, hshift]
    generalize genCoeff d (j + 1) = b, genCoeff d j = a at hratio ⊢
    calc timesXPow (j + 1) b ^^^ timesXPow (d + 1 + j) a ^^^ (b ^^^ timesXPow d a)
      _ = (timesXPow (j + 1) b ^^^ b) ^^^ (timesXPow (d + 1 + j) a ^^^ timesXPow d a) := by ac_rfl
      _ = timesXPow j a ^^^ timesXPow (d + 1 + j) a := by rw [hratio, xor_cancel_outer]

theorem mod_eq_of_alpha_eq {m n : Nat} (h : alpha m = alpha n) : m % 255 = n % 255 := by
  rw [← toNat_logAt_gfBuild_alpha ⟨[], []⟩ m, h, toNat_logAt_gfBuild_alpha]

/-- Below the order of α no coefficient is 0: the ratio of neighbours would make two powers of α equal. -/
theorem genCoeff_ne_zero {d j : Nat} (hd : d < 255) (hj : j ≤ d) : genCoeff d j ≠ 0 := by
  induction j with
  | zero =>
    rw [genCoeff_zero_right]
    decide
  | succ j ih =>
    obtain ⟨i, hi⟩ := (eq_zero_or_alpha (genCoeff d j)).resolve_left (ih (by omega))
    intro hzero
    have hratio := neighbourRatio d j
    rw [hzero, timesXPow_zero, byte_xor_self, ← hi, ← alpha_add, ← alpha_add] at hratio
    have hpowers : alpha (d + i) = alpha (j + i) := BitVec.xor_eq_zero_iff.1 hratio.symm
    have hmod := mod_eq_of_alpha_eq hpowers
    omega

/-! ## The GEN table -/

/-- A nonzero byte is a power of α, so its logarithm is an exponent of it. -/
theorem alpha_logAt (t : GfTables) {a : Byte} (ha : a ≠ 0) : alpha ((gfBuild t).logAt a).toNat = a := by
  obtain ⟨i, -, rfl⟩ := exists_alpha_eq ha
  rw [toNat_logAt_gfBuild_alpha, alpha_mod]

theorem logAt_lt (t : GfTables) {a : Byte} (ha : a ≠ 0) : ((gfBuild t).logAt a).toNat < 255 := by
  obtain ⟨i, -, rfl⟩ := exists_alpha_eq ha
  rw [toNat_logAt_gfBuild_alpha]
  exact Nat.mod_lt i (by decide)

theorem logAt_alpha (t : GfTables) (n : Nat) : (gfBuild t).logAt (alpha n) = byte (n % 255) := by
  rw [← toNat_logAt_gfBuild_alpha t]
  exact ((BitVec.ofNat_toNat 8 _).trans (BitVec.setWidth_eq _)).symm

theorem expAt_logAt (t : GfTables) {a : Byte} (ha : a ≠ 0) : (gfBuild t).expAt ((gfBuild t).logAt a).toNat = a := by
  rw [expAt_gfBuild t (logAt_lt t ha), alpha_logAt t ha]

/-- The exponent e + r, as R121 reads it, is the product with α^r. -/
theorem expAt_logAt_add (t : GfTables) {a : Byte} (ha : a ≠ 0) (r : Nat) :
    (gfBuild t).expAt ((((gfBuild t).logAt a).toNat + r) % 255) = timesXPow r a := by
  rw [expAt_gfBuild_mod, Nat.add_comm, alpha_add, alpha_logAt t ha]

/-- Entry j of row d: the logarithm of its coefficient (R120). -/
def genEntry (t : GfTables) (d j : Nat) : Byte := (gfBuild t).logAt (genCoeff d j)

theorem genEntry_zero_right (t : GfTables) (d : Nat) : genEntry t d 0 = 0 := by
  rw [genEntry, genCoeff_zero_right]
  exact logAt_alpha t 0

theorem genInterior_genEntry (t : GfTables) {d j : Nat} (hd : d < 255) (hj : j < d) :
    genInterior (gfBuild t) d (genEntry t d j) (genEntry t d (j + 1)) = genEntry t (d + 1) (j + 1) := by
  have hleft : genCoeff d j ≠ 0 := genCoeff_ne_zero hd (Nat.le_of_lt hj)
  have hhere : genCoeff d (j + 1) ≠ 0 := genCoeff_ne_zero hd hj
  rw [genInterior, genEntry, genEntry, expAt_logAt t hhere, expAt_logAt_add t hleft, genEntry, genCoeff_succ_succ]

theorem lastEntry_genEntry (t : GfTables) (d : Nat) :
    byte (((genEntry t d d).toNat + d) % 255) = genEntry t (d + 1) (d + 1) := by
  rw [genEntry, genEntry, genCoeff_succ_self, genCoeff_self, ← alpha_add, toNat_logAt_gfBuild_alpha, Nat.mod_add_mod,
    Nat.add_comm, logAt_alpha]

/-- Row d from its entry j on. -/
theorem genTail_genEntry (t : GfTables) {d j n : Nat} (hd : d < 255) (hn : j + n = d) :
    genTail (gfBuild t) d ((List.range' j (n + 1)).map (genEntry t d))
      = (List.range' (j + 1) (n + 1)).map (genEntry t (d + 1)) := by
  induction n generalizing j with
  | zero =>
    obtain rfl : j = d := hn
    exact congrArg (· :: []) (lastEntry_genEntry t j)
  | succ n ih =>
    have hrest := ih (j := j + 1) (by omega)
    rw [List.range'_succ, List.map_cons] at hrest
    rw [List.range'_succ, List.range'_succ, List.map_cons, List.map_cons, genTail, hrest,
      genInterior_genEntry t hd (by omega)]
    rfl

/-- The entries of row d (R42). -/
def genEntries (t : GfTables) (d : Nat) : List Byte := (List.range (d + 1)).map (genEntry t d)

theorem genEntries_eq_cons (t : GfTables) (d : Nat) : genEntries t d = 0 :: (List.range' 1 d).map (genEntry t d) := by
  rw [genEntries, List.range_eq_range', List.range'_succ, List.map_cons, genEntry_zero_right]

theorem genNext_genEntries (t : GfTables) {d : Nat} (hd : d < 255) :
    genNext (gfBuild t) d (genEntries t d) = genEntries t (d + 1) := by
  have htail := genTail_genEntry t (j := 0) hd (Nat.zero_add d)
  rw [← List.range_eq_range', ← genEntries] at htail
  rw [genNext, htail, genEntries_eq_cons, genEntries_eq_cons]
  rfl

theorem find?_genRowsFrom (t : GfTables) {d e n : Nat} (hde : d ≤ e) (hen : e ≤ d + n) (hn : d + n ≤ 255) :
    (genRowsFrom (gfBuild t) d (genEntries t d) n).find? (fun row => row.1 == e) = some (e, genEntries t e) := by
  induction n generalizing d with
  | zero =>
    obtain rfl : d = e := by omega
    simp [genRowsFrom]
  | succ n ih =>
    rw [genRowsFrom, genNext_genEntries t (by omega)]
    obtain rfl | hlt := Nat.eq_or_lt_of_le hde
    · simp
    · rw [List.find?_cons_of_neg (by simpa using Nat.ne_of_lt hlt), ih hlt (by omega) (by omega)]

/-- The base row of GEN_INIT (R121). -/
theorem genEntries_one (t : GfTables) : genEntries t 1 = [0, 0] := by
  have hlog : genEntry t 1 1 = 0 := logAt_alpha t 0
  rw [genEntries_eq_cons, List.range'_one, List.map_singleton, hlog]

theorem genAt_genBuild (t : GfTables) {d j : Nat} (hd : 1 ≤ d) (hd' : d ≤ 68) (hj : j ≤ d) :
    genAt (genBuild (gfBuild t)) d j = genEntry t d j := by
  have hrow := find?_genRowsFrom t hd (n := maxDegree - 1) hd' (by decide)
  rw [genAt, genBuild, ← genEntries_one t, hrow]
  simp [genEntries, Nat.lt_succ_of_le hj]

theorem alpha_genAt_genBuild (t : GfTables) {d j : Nat} (hd : 1 ≤ d) (hd' : d ≤ 68) (hj : j ≤ d) :
    alpha (genAt (genBuild (gfBuild t)) d j).toNat = genCoeff d j := by
  rw [genAt_genBuild t hd hd' hj, genEntry, alpha_logAt t (genCoeff_ne_zero (by omega) hj)]

/-! ## The roots -/

/-- The first n coefficients of g_d, at α^k. -/
def genHorner (d k n : Nat) : Byte := polyEval ((List.range n).map (genCoeff d)) (alpha k)

theorem genHorner_zero (d k : Nat) : genHorner d k 0 = 0 := rfl

theorem genHorner_succ (d k n : Nat) : genHorner d k (n + 1) = timesXPow k (genHorner d k n) ^^^ genCoeff d n := by
  rw [genHorner, List.range_succ, List.map_append, polyEval, List.foldl_append]
  exact congrArg (· ^^^ _) (fieldProduct_alpha_right _ k)

/-- Horner's scheme multiplies by the new factor x + α^d. -/
theorem genHorner_succ_succ (d k n : Nat) :
    genHorner (d + 1) k (n + 1) = genHorner d k (n + 1) ^^^ timesXPow d (genHorner d k n) := by
  induction n with
  | zero =>
    simp only [genHorner_succ, genHorner_zero, timesXPow_zero, genCoeff_zero_right, byte_xor_zero]
  | succ n ih =>
    have hcomm (b : Byte) : timesXPow k (timesXPow d b) = timesXPow d (timesXPow k b) := by
      rw [← timesXPow_add, ← timesXPow_add, Nat.add_comm]
    calc genHorner (d + 1) k (n + 2)
      _ = timesXPow k (genHorner d k (n + 1) ^^^ timesXPow d (genHorner d k n))
          ^^^ (genCoeff d (n + 1) ^^^ timesXPow d (genCoeff d n)) := by
        rw [genHorner_succ, ih, genCoeff_succ_succ]
      _ = (timesXPow k (genHorner d k (n + 1)) ^^^ genCoeff d (n + 1))
          ^^^ timesXPow d (timesXPow k (genHorner d k n) ^^^ genCoeff d n) := by
        rw [timesXPow_xor, timesXPow_xor, hcomm]
        ac_rfl
      _ = genHorner d k (n + 2) ^^^ timesXPow d (genHorner d k (n + 1)) := by
        rw [← genHorner_succ, ← genHorner_succ]

/-- The factor x + α^d is 0 at α^d, and the earlier factors keep their roots. -/
theorem genHorner_eq_zero {d k : Nat} (hk : k < d) : genHorner d k (d + 1) = 0 := by
  induction d with
  | zero => omega
  | succ d ih =>
    rw [genHorner_succ_succ, genHorner_succ, genCoeff_eq_zero_of_lt (Nat.lt_succ_self d), byte_xor_zero]
    obtain rfl | hlt := Nat.eq_or_lt_of_le (Nat.le_of_lt_succ hk)
    · exact byte_xor_self _
    · rw [ih hlt, timesXPow_zero, timesXPow_zero, byte_xor_self]

theorem fromExponents_genRow (t : GfTables) {d : Nat} (hd : 1 ≤ d) (hd' : d ≤ 68) :
    fromExponents (genRow (genBuild (gfBuild t)) d) = (List.range (d + 1)).map (genCoeff d) := by
  rw [fromExponents, genRow, List.map_map]
  exact List.map_congr_left fun j hj => alpha_genAt_genBuild t hd hd' (Nat.le_of_lt_succ (List.mem_range.1 hj))

/-- Settles O37: the entries are the logarithms of the coefficients, none of which is 0; the constant term is a power of
α by its recursion, and Horner's scheme splits off one factor x + α^i for each degree. -/
theorem generatorsHaveTheirRoots : Obligations.GeneratorsHaveTheirRoots := by
  intro s hok hvalid d hd hd'
  have hentry {j : Nat} (hj : j ≤ d) := genAt_genBuild ⟨[], []⟩ hd hd' hj
  rw [hok.genBuilt hvalid]
  refine ⟨?_, ?_, fun j hj => ?_, fun k hk => ?_⟩
  · rw [hentry (Nat.zero_le d), genEntry_zero_right]
  · rw [hentry (Nat.le_refl d), genEntry, genCoeff_self, logAt_alpha]
  · rw [hentry hj]
    exact logAt_lt _ (genCoeff_ne_zero (by omega) hj)
  · rw [fromExponents_genRow _ hd hd']
    exact genHorner_eq_zero hk

end Sys2Proof.Proofs.Generator
end

