-- ==== Sys2Proof/Proofs/Division.lean ====
section
/-! SUPPORT. Polynomial division at a root of the divisor (42_division R140, R141, R150, R151): a step of the division
adds a multiple of the divisor, so WORK keeps its value there while its leading coefficients become 0. -/

namespace Sys2Proof.Proofs.Division

open Sys2Proof Sys2Proof.Machine Sys2Proof.Proofs.Gf Sys2Proof.Proofs.Generator

/-! ## Polynomials at a power of α -/

theorem polyEval_nil (x : Byte) : polyEval [] x = 0 := rfl

/-- Horner's scheme from an accumulator: the accumulator stands in front of the coefficients. -/
theorem foldl_horner (k : Nat) (cs : List Byte) (acc : Byte) :
    cs.foldl (fun acc c => fieldProduct acc (alpha k) ^^^ c) acc
      = timesXPow (k * cs.length) acc ^^^ polyEval cs (alpha k) := by
  induction cs generalizing acc with
  | nil => exact (byte_xor_zero acc).symm
  | cons c cs ih =>
    have hpower : timesXPow (k * (c :: cs).length) acc = timesXPow (k * cs.length) (timesXPow k acc) := by
      rw [List.length_cons, Nat.mul_succ, timesXPow_add]
    have hzero : fieldProduct 0 (alpha k) ^^^ c = c := by rw [fieldProduct_zero_left]; exact BitVec.zero_xor
    rw [polyEval, List.foldl_cons, List.foldl_cons, ih, ih, hpower, hzero, fieldProduct_alpha_right, timesXPow_xor]
    exact BitVec.xor_assoc _ _ _

theorem polyEval_append (k : Nat) (as bs : List Byte) : polyEval (as ++ bs) (alpha k)
    = timesXPow (k * bs.length) (polyEval as (alpha k)) ^^^ polyEval bs (alpha k) := by
  rw [polyEval, List.foldl_append, foldl_horner]
  rfl

theorem polyEval_cons (k : Nat) (c : Byte) (cs : List Byte) :
    polyEval (c :: cs) (alpha k) = timesXPow (k * cs.length) c ^^^ polyEval cs (alpha k) := by
  have hone : polyEval [c] (alpha k) = c := by
    rw [polyEval, List.foldl_cons, List.foldl_nil, fieldProduct_zero_left]
    exact BitVec.zero_xor
  rw [← List.singleton_append, polyEval_append, hone]

theorem polyEval_replicate_zero (k n : Nat) : polyEval (List.replicate n 0) (alpha k) = 0 := by
  induction n with
  | zero => rfl
  | succ n ih => rw [List.replicate_succ, polyEval_cons, ih, timesXPow_zero, byte_xor_self]

theorem polyEval_map_timesXPow (k j : Nat) (cs : List Byte) :
    polyEval (cs.map (timesXPow j)) (alpha k) = timesXPow j (polyEval cs (alpha k)) := by
  induction cs with
  | nil => exact (timesXPow_zero j).symm
  | cons c cs ih =>
    rw [List.map_cons, polyEval_cons, polyEval_cons, ih, timesXPow_xor, List.length_map, ← timesXPow_add,
      ← timesXPow_add, Nat.add_comm]

/-- XORed in with n coefficients of WORK after them, `ds` counts as its polynomial times x^n. -/
theorem polyEval_xorInto (k : Nat) {off n : Nat} {ds ws : List Byte} (h : ws.length = off + ds.length + n) :
    polyEval (xorInto off ds ws) (alpha k) = polyEval ws (alpha k) ^^^ timesXPow (k * n) (polyEval ds (alpha k)) := by
  fun_induction xorInto off ds ws with
  | case1 d ds w ws ih =>
    simp only [List.length_cons] at h
    have hlen : ws.length = n + ds.length := by omega
    rw [polyEval_cons, polyEval_cons, polyEval_cons, xorInto_length, ih (by omega)]
    simp only [timesXPow_xor, ← timesXPow_add, ← Nat.mul_add, ← hlen]
    ac_rfl
  | case2 off ds w ws ih =>
    simp only [List.length_cons] at h
    rw [polyEval_cons, polyEval_cons, xorInto_length, ih (by omega)]
    exact (BitVec.xor_assoc _ _ _).symm
  | case3 ws =>
    rw [polyEval_nil, timesXPow_zero, byte_xor_zero]
  | case4 off ds =>
    simp only [List.length_nil] at h
    obtain rfl := List.eq_nil_of_length_eq_zero (l := ds) (by omega)
    rw [polyEval_nil, timesXPow_zero, byte_xor_zero]

/-! ## A step of the division -/

theorem xorInto_append (pre ds ws : List Byte) :
    xorInto pre.length ds (pre ++ ws) = pre ++ xorInto 0 ds ws := by
  induction pre with
  | nil => rfl
  | cons p pre ih => exact congrArg (p :: ·) ih

theorem divStep_append (t : GfTables) (e pre ws : List Byte) :
    divStep t e (pre ++ ws) pre.length = pre ++ divStep t e ws 0 := by
  have hlead : (pre ++ ws).getD pre.length 0 = ws.getD 0 0 := by
    rw [List.getD_eq_getElem?_getD, List.getElem?_append_right (Nat.le_refl _), Nat.sub_self,
      List.getD_eq_getElem?_getD]
  simp only [divStep, hlead, xorInto_append]
  split <;> rfl

/-- The exponents of the divisor scaled by α^j, as the machine reads them. -/
theorem map_scale_alpha (t : GfTables) (j : Nat) (e : List Byte) :
    e.map (fun x => (gfBuild t).scale (alpha j) x.toNat) = (fromExponents e).map (timesXPow j) := by
  rw [fromExponents, List.map_map]
  exact List.map_congr_left fun x _ => (gfScale_eq_mul_alpha t _ _).trans (gfMul_alpha_left t j _)

/-- A step adds a multiple of the divisor, which is 0 at a root of the divisor. -/
theorem polyEval_divStep (t : GfTables) {e work : List Byte} {k off : Nat}
    (hroot : polyEval (fromExponents e) (alpha k) = 0) (hfits : off + e.length ≤ work.length) :
    polyEval (divStep (gfBuild t) e work off) (alpha k) = polyEval work (alpha k) := by
  rw [divStep]
  obtain hf | ⟨j, hf⟩ := eq_zero_or_alpha (work.getD off 0)
  · simp only [hf, if_true]
  · obtain ⟨n, hn⟩ := Nat.exists_eq_add_of_le hfits
    rw [← hf]
    simp only [alpha_ne_zero, if_false, map_scale_alpha]
    rw [polyEval_xorInto k (n := n) (by simpa [fromExponents] using hn), polyEval_map_timesXPow, hroot,
      timesXPow_zero, timesXPow_zero, byte_xor_zero]

/-- A monic divisor cancels the leading coefficient. -/
theorem divStep_monic (t : GfTables) (es : List Byte) (f : Byte) (r : List Byte) :
    ∃ r', divStep (gfBuild t) (0 :: es) (f :: r) 0 = 0 :: r' := by
  by_cases hf : f = 0
  · exact ⟨r, by simp [divStep, hf]⟩
  · have hscale : (gfBuild t).scale f (0 : Byte).toNat = f := by
      rw [gfScale_eq_mul_alpha]
      exact gfMul_one t f
    refine ⟨xorInto 0 (es.map fun x => (gfBuild t).scale f x.toNat) r, ?_⟩
    rw [divStep]
    simp only [List.getD_cons_zero, hf, if_false, List.map_cons, hscale, xorInto, byte_xor_self]

/-! ## The whole division -/

theorem polyEval_foldl_divStep (t : GfTables) {e : List Byte} {k : Nat}
    (hroot : polyEval (fromExponents e) (alpha k) = 0) {offs : List Nat} {work : List Byte}
    (hfits : ∀ off ∈ offs, off + e.length ≤ work.length) :
    polyEval (offs.foldl (divStep (gfBuild t) e) work) (alpha k) = polyEval work (alpha k) := by
  induction offs generalizing work with
  | nil => rfl
  | cons off offs ih =>
    obtain ⟨hoff, hoffs⟩ := List.forall_mem_cons.1 hfits
    rw [List.foldl_cons, ih (by simpa only [divStep_length] using hoffs), polyEval_divStep t hroot hoff]

/-- After n steps by a monic divisor the first n coefficients are 0. -/
theorem foldl_divStep_monic (t : GfTables) (es work : List Byte) {n : Nat} (hn : n ≤ work.length) :
    ∃ r, (List.range n).foldl (divStep (gfBuild t) (0 :: es)) work = List.replicate n 0 ++ r := by
  induction n with
  | zero => exact ⟨work, rfl⟩
  | succ n ih =>
    obtain ⟨r, hr⟩ := ih (Nat.le_of_lt hn)
    have hlen := congrArg List.length hr
    rw [foldl_divStep_length, List.length_append, List.length_replicate] at hlen
    obtain ⟨f, rest, rfl⟩ := List.exists_cons_of_length_pos (l := r) (by omega)
    obtain ⟨r', hr'⟩ := divStep_monic t es f rest
    have hstep := divStep_append (gfBuild t) (0 :: es) (List.replicate n 0) (f :: rest)
    rw [List.length_replicate, hr'] at hstep
    refine ⟨r', ?_⟩
    rw [List.range_succ, List.foldl_append, hr, List.foldl_cons, List.foldl_nil, hstep, List.replicate_succ',
      List.append_assoc]
    rfl

theorem divLoad_length (a : List Byte) (shift : Nat) : (divLoad a shift).length = a.length + shift := by
  rw [divLoad, List.length_append, List.length_replicate]

/-- The division by a monic divisor leaves zeros and then the remainder. -/
theorem divRun_monic (t : GfTables) {a es : List Byte} {shift : Nat} (h : es.length ≤ a.length + shift) :
    divRun (gfBuild t) a shift (0 :: es)
      = List.replicate (a.length + shift - es.length) 0 ++ divRem (gfBuild t) a shift (0 :: es) := by
  have hsteps : a.length + shift - es.length ≤ (divLoad a shift).length := by
    rw [divLoad_length]
    exact Nat.sub_le _ _
  obtain ⟨r, hrun⟩ : ∃ r, divRun (gfBuild t) a shift (0 :: es) = List.replicate (a.length + shift - es.length) 0 ++ r :=
    foldl_divStep_monic t es (divLoad a shift) hsteps
  have hrem : divRem (gfBuild t) a shift (0 :: es) = r := by
    rw [divRem, List.length_cons, Nat.add_sub_cancel, divTake, divRun_length, hrun, Nat.sub_eq_zero_of_le h]
    exact List.drop_left' List.length_replicate
  rw [hrun, hrem]

/-- Dividend and remainder have the same value at a root of the divisor. -/
theorem polyEval_divRem (t : GfTables) {a es : List Byte} {shift k : Nat} (h : es.length ≤ a.length + shift)
    (hroot : polyEval (fromExponents (0 :: es)) (alpha k) = 0) :
    polyEval (divRem (gfBuild t) a shift (0 :: es)) (alpha k) = timesXPow (k * shift) (polyEval a (alpha k)) := by
  have hfits : ∀ off ∈ List.range (a.length + shift - es.length),
      off + (0 :: es).length ≤ (divLoad a shift).length := by
    intro off hoff
    have hlt := List.mem_range.1 hoff
    rw [divLoad_length, List.length_cons]
    omega
  calc polyEval (divRem (gfBuild t) a shift (0 :: es)) (alpha k)
    _ = polyEval (divRun (gfBuild t) a shift (0 :: es)) (alpha k) := by
      rw [divRun_monic t h, polyEval_append, polyEval_replicate_zero, timesXPow_zero]
      exact BitVec.zero_xor.symm
    _ = polyEval (divLoad a shift) (alpha k) := polyEval_foldl_divStep t hroot hfits
    _ = timesXPow (k * shift) (polyEval a (alpha k)) := by
      rw [divLoad, polyEval_append, polyEval_replicate_zero, byte_xor_zero, List.length_replicate]

/-! ## ECC_ENCODE -/

theorem genRow_genBuild (t : GfTables) {d : Nat} (hd : 1 ≤ d) (hd' : d ≤ 68) :
    genRow (genBuild (gfBuild t)) d = genEntries t d :=
  List.map_congr_left fun _ hj => genAt_genBuild t hd hd' (Nat.le_of_lt_succ (List.mem_range.1 hj))

/-- R151: the remainder cancels the shifted message at every root of the generator. -/
theorem polyEval_append_eccOf (t : GfTables) (m : List Byte) {d k : Nat} (hd : 1 ≤ d) (hd' : d ≤ 68) (hk : k < d) :
    polyEval (m ++ eccOf (gfBuild t) (genBuild (gfBuild t)) m d) (alpha k) = 0 := by
  have hroot : polyEval (fromExponents (genRow (genBuild (gfBuild t)) d)) (alpha k) = 0 := by
    rw [fromExponents_genRow t hd hd']
    exact genHorner_eq_zero hk
  rw [polyEval_append, eccOf_length, eccOf]
  rw [genRow_genBuild t hd hd', genEntries_eq_cons] at hroot ⊢
  rw [polyEval_divRem t (by simp) hroot, byte_xor_self]

theorem badDegree_eq_false {d : Nat} (hd : 1 ≤ d) (hd' : d ≤ 68) : badDegree d = false :=
  Bool.or_eq_false_iff.2 ⟨decide_eq_false (Nat.not_lt.2 hd), decide_eq_false (Nat.not_lt.2 hd')⟩

/-- ECC_ENCODE without an error: its checks pass, and its message is written (R150). -/
theorem execEccEncode_eq {msgLen eccCount : Nat} {s : State} {m : List Byte} (hgen : s.status.genValid = true)
    (hecc : 1 ≤ eccCount) (hecc' : eccCount ≤ 68) (hmsg : 1 ≤ msgLen) (hsum : msgLen + eccCount ≤ 191)
    (hm : s.mem.readBlock Buffer.bufA.base msgLen = some m) :
    execEccEncode msgLen eccCount s
      = .next (((s.writeBuffer .bufOut (eccOf s.gf s.gen m eccCount)).releaseWork).complete eccCount) := by
  have hlength : msgLen ≠ 0 := Nat.ne_of_gt hmsg
  have hbounds : ¬ workMax < msgLen + eccCount := Nat.not_lt.2 hsum
  have hchecks : firstError [s.needsGen, (badDegree eccCount, .unsupportedDegree),
      (decide (msgLen = 0), .lengthMismatch), (decide (workMax < msgLen + eccCount), .outOfBounds)] = none := by
    simp [State.needsGen, hgen, badDegree_eq_false hecc hecc', hlength, hbounds]
  rw [execEccEncode, checked_of_none hchecks, withOperand_of_written hm]

/-- Settles O44: ECC is the remainder of the shifted message, which has the message's value at every root of the
generator, so that their sum is 0 there. -/
theorem eccEncodeGivesACodeword : Obligations.EccEncodeGivesACodeword := by
  intro msgLen eccCount s m htables hstatus hgen hecc hecc' hmsg hsum hlen hread
  have hm : s.mem.readBlock Buffer.bufA.base msgLen = some m :=
    (Memory.readBlock_eq_some_iff _ _ _ _).2 ⟨hlen, hread⟩
  refine ⟨_, eccOf s.gf s.gen m eccCount, execEccEncode_eq hgen hecc hecc' hmsg hsum hm, eccOf_length _ _ _ _, rfl,
    fun k hk => ?_, fun x hx => ?_, fun i hi => ?_⟩
  · exact Memory.read_writeBlock_inside _ _ _ k (by rwa [eccOf_length])
  · exact Memory.read_writeBlock_outside _ _ _ x (by rwa [eccOf_length])
  · rw [htables.gfBuilt (hstatus.genNeedsGf hgen), htables.genBuilt hgen]
    exact polyEval_append_eccOf _ m hecc hecc' hi

end Sys2Proof.Proofs.Division
end

