-- ==== Sys2Proof/Proofs/Interleaver.lean ====
section
/-! SUPPORT. The interleaved stream (43_interleaver R172, R173, R175): a column is a row of the stream with one codeword
of each block, so codeword i of block b stands at i·nb + b among the columns. -/

namespace Sys2Proof.Proofs.Interleaver

open Sys2Proof Sys2Proof.Machine

/-! ## The block geometry -/

/-- Laws 2 to 5 of R172, for one geometry and its TOTAL_CW; law 1 is the definition of the capacity. -/
abbrev LawfulGeometry (bs : BlockSpec) (total : Nat) : Prop :=
  (0 < bs.g2b → bs.g2w = bs.g1w + 1)
    ∧ bs.g1b * (bs.g1w + bs.ecc) + bs.g2b * (bs.g2w + bs.ecc) = total
    ∧ 1 ≤ bs.g1b ∧ 7 ≤ bs.ecc ∧ bs.ecc ≤ 30
    ∧ bs.g1w + bs.ecc ≤ 153 ∧ bs.g2w + bs.ecc ≤ 153

/-- The 40 versions at one level, row by row of R171. -/
theorem lawfulGeometry_blockSpec (l : Level) :
    ∀ v < 41, 1 ≤ v → LawfulGeometry (blockSpec v l) (totalCodewords v) := by
  cases l with
  | low => decide +kernel
  | medium => decide +kernel
  | quartile => decide +kernel
  | high => decide +kernel

/-- Settles O46: law 1 defines the capacity, and the rows of the table keep the other laws. -/
theorem blockGeometryKeepsItsLaws : Obligations.BlockGeometryKeepsItsLaws :=
  fun v hv hv' l => ⟨rfl, lawfulGeometry_blockSpec l v (Nat.lt_succ_of_le hv') hv⟩

theorem capacity_eq {bs : BlockSpec} (hg2 : 0 < bs.g2b → bs.g2w = bs.g1w + 1) :
    bs.capacity = bs.g1w * bs.blocks + bs.g2b := by
  rw [BlockSpec.capacity, BlockSpec.blocks]
  obtain hzero | hpos := Nat.eq_zero_or_pos bs.g2b
  · rw [hzero, Nat.zero_mul, Nat.add_zero, Nat.add_zero, Nat.add_zero, Nat.mul_comm]
  · rw [hg2 hpos, Nat.mul_succ, ← Nat.add_assoc, ← Nat.add_mul, Nat.mul_comm]

theorem g1w_le_blockLength {bs : BlockSpec} (hg2 : 0 < bs.g2b → bs.g2w = bs.g1w + 1) {b : Nat} (hb : b < bs.blocks) :
    bs.g1w ≤ blockLength bs b := by
  rw [BlockSpec.blocks] at hb
  rw [blockLength]
  split
  · exact Nat.le_refl _
  · rw [hg2 (by omega)]
    exact Nat.le_succ _

theorem g1w_lt_blockLength_of_group2 {bs : BlockSpec} (hg2 : 0 < bs.g2b → bs.g2w = bs.g1w + 1) {b : Nat}
    (hb : b < bs.blocks) (hb2 : bs.g1b ≤ b) : bs.g1w < blockLength bs b := by
  rw [BlockSpec.blocks] at hb
  rw [blockLength, if_neg (Nat.not_lt.2 hb2), hg2 (by omega)]
  exact Nat.lt_succ_self _

/-! ## The blocks of the data -/

/-- The codewords of block b (R173); `splitBlocks_getElem?` says that it is the machine's block. -/
def blockData (bs : BlockSpec) (data : List Byte) (b : Nat) : List Byte :=
  (data.drop (blockStart bs b)).take (blockLength bs b)

theorem takeBlocks_getElem? {size count b : Nat} (hb : b < count) (data : List Byte) :
    (takeBlocks size count data)[b]? = some ((data.drop (b * size)).take size) := by
  induction count generalizing b data with
  | zero => omega
  | succ count ih =>
    cases b with
    | zero => rw [takeBlocks, List.getElem?_cons_zero, Nat.zero_mul, List.drop_zero]
    | succ b =>
      rw [takeBlocks, List.getElem?_cons_succ, ih (Nat.lt_of_succ_lt_succ hb), List.drop_drop, Nat.succ_mul,
        Nat.add_comm]

theorem splitBlocks_getElem? {bs : BlockSpec} {b : Nat} (hb : b < bs.blocks) (data : List Byte) :
    (splitBlocks bs data)[b]? = some (blockData bs data b) := by
  rw [splitBlocks, blockData, blockStart, blockLength]
  obtain h1 | h2 := Nat.lt_or_ge b bs.g1b
  · rw [List.getElem?_append_left (by rwa [takeBlocks_length]), takeBlocks_getElem? h1, if_pos h1, if_pos h1]
  · rw [BlockSpec.blocks] at hb
    rw [List.getElem?_append_right (by rwa [takeBlocks_length]), takeBlocks_length,
      takeBlocks_getElem? (by omega), List.drop_drop, if_neg (Nat.not_lt.2 h2), if_neg (Nat.not_lt.2 h2)]

theorem blockData_getD {bs : BlockSpec} {b i : Nat} (hi : i < blockLength bs b) (data : List Byte) :
    (blockData bs data b).getD i 0 = data.getD (blockStart bs b + i) 0 := by
  rw [blockData, List.getD_eq_getElem?_getD, List.getElem?_take_of_lt hi, List.getElem?_drop,
    List.getD_eq_getElem?_getD]

/-! ## Places in the stream -/

/-- Past the first list, a place counts from the start of the second. -/
theorem getElem?_append_add {xs : List Byte} {n : Nat} (hn : xs.length = n) (ys : List Byte) (k : Nat) :
    (xs ++ ys)[n + k]? = ys[k]? := by
  rw [List.getElem?_append_right (hn ▸ Nat.le_add_right n k), hn, Nat.add_sub_cancel_left]

/-- Codeword i of block b is in row i of the columns. -/
theorem columns_getElem? {blocks : List (List Byte)} {blk : List Byte} {n i b : Nat} (hi : i < n)
    (hb : blocks[b]? = some blk) : (columns blocks n)[i * blocks.length + b]? = some (blk.getD i 0) := by
  have hlt : b < blocks.length := (List.getElem?_eq_some_iff.1 hb).1
  induction n with
  | zero => omega
  | succ n ih =>
    have hsplit : columns blocks (n + 1) = columns blocks n ++ column blocks n := by
      rw [columns, columns, List.range_succ, List.flatMap_append, List.flatMap_singleton]
    rw [hsplit]
    obtain rfl | hin := Nat.eq_or_lt_of_le (Nat.le_of_lt_succ hi)
    · rw [getElem?_append_add (columns_length blocks i), column_getElem?, hb, Option.map_some]
    · have hrow : (i + 1) * blocks.length ≤ n * blocks.length := Nat.mul_le_mul_right _ hin
      rw [Nat.succ_mul] at hrow
      rw [List.getElem?_append_left (by rw [columns_length]; omega), ih hin]

theorem splitBlocks_length_eq_blocks (bs : BlockSpec) (data : List Byte) : (splitBlocks bs data).length = bs.blocks :=
  splitBlocks_length bs data

theorem dataColumns_length (bs : BlockSpec) (data : List Byte) :
    (columns (splitBlocks bs data) bs.g1w).length = bs.g1w * bs.blocks := by
  rw [columns_length, splitBlocks_length_eq_blocks]

section
variable (t : GfTables) (g : GenTable) {bs : BlockSpec} (data : List Byte) {b : Nat}

/-- The columns of the data come first. -/
theorem interleave_getElem?_data (hb : b < bs.blocks) {i : Nat} (hi : i < bs.g1w) :
    (interleave t g bs data)[i * bs.blocks + b]? = some ((blockData bs data b).getD i 0) := by
  have hcol := columns_getElem? hi (splitBlocks_getElem? hb data)
  rw [splitBlocks_length_eq_blocks] at hcol
  rw [interleave, List.getElem?_append_left (List.getElem?_eq_some_iff.1 hcol).1, hcol]

/-- After them stands one column with the trailing codewords of group 2. -/
theorem interleave_getElem?_trailing (hb : b < bs.blocks) (hb2 : bs.g1b ≤ b) :
    (interleave t g bs data)[bs.g1w * bs.blocks + (b - bs.g1b)]? = some ((blockData bs data b).getD bs.g1w 0) := by
  have hcol : (column ((splitBlocks bs data).drop bs.g1b) bs.g1w)[b - bs.g1b]?
      = some ((blockData bs data b).getD bs.g1w 0) := by
    rw [column_getElem?, List.getElem?_drop, Nat.add_sub_cancel' hb2, splitBlocks_getElem? hb, Option.map_some]
  rw [interleave, getElem?_append_add (dataColumns_length bs data),
    List.getElem?_append_left (List.getElem?_eq_some_iff.1 hcol).1, hcol]

/-- The columns of the ECC come last; the codewords before them are as many as the capacity. -/
theorem interleave_getElem?_ecc (hg2 : 0 < bs.g2b → bs.g2w = bs.g1w + 1) (hb : b < bs.blocks) {i : Nat}
    (hi : i < bs.ecc) :
    (interleave t g bs data)[bs.capacity + i * bs.blocks + b]?
      = some ((eccOf t g (blockData bs data b) bs.ecc).getD i 0) := by
  have htrailing : (column ((splitBlocks bs data).drop bs.g1b) bs.g1w).length = bs.g2b := by
    rw [column_length, List.length_drop, splitBlocks_length, Nat.add_sub_cancel_left]
  have hecc : ((splitBlocks bs data).map fun m => eccOf t g m bs.ecc)[b]?
      = some (eccOf t g (blockData bs data b) bs.ecc) := by
    rw [List.getElem?_map, splitBlocks_getElem? hb, Option.map_some]
  have hcol := columns_getElem? hi hecc
  rw [List.length_map, splitBlocks_length_eq_blocks] at hcol
  rw [interleave, capacity_eq hg2, Nat.add_assoc, Nat.add_assoc,
    getElem?_append_add (dataColumns_length bs data), getElem?_append_add htrailing, hcol]

end

/-! ## INTERLEAVE -/

theorem badVersion_eq_false {v : Nat} (hv : 1 ≤ v) (hv' : v ≤ 40) : badVersion v = false :=
  Bool.or_eq_false_iff.2 ⟨decide_eq_false (Nat.not_lt.2 hv), decide_eq_false (Nat.not_lt.2 hv')⟩

/-- INTERLEAVE without an error: its checks pass, and its data are written (R173). -/
theorem execInterleave_eq {v : Nat} {l : Level} {s : State} {data : List Byte} (hgen : s.status.genValid = true)
    (hv : 1 ≤ v) (hv' : v ≤ 40) (hcap : s.dataLength = (blockSpec v l).capacity)
    (hdata : s.mem.readBlock Buffer.data.base s.dataLength = some data) :
    execInterleave v l s
      = .next ((((s.writeBuffer .stream (interleave s.gf s.gen (blockSpec v l) data)).releaseWork).setStreamLen
          (interleave s.gf s.gen (blockSpec v l) data).length).complete
          (interleave s.gf s.gen (blockSpec v l) data).length) := by
  have hchecks : firstError [s.needsGen, (badVersion v, .unsupportedDegree),
      (decide (s.dataLength ≠ (blockSpec v l).capacity), .lengthMismatch)] = none := by
    simp [State.needsGen, hgen, badVersion_eq_false hv hv', hcap]
  rw [execInterleave, checked_of_none hchecks, withOperand_of_written hdata]

/-- A byte of the block that was written, read back at its place. -/
theorem read_writeBlock_of_getElem? {vs : List Byte} {k : Nat} {y : Byte} (h : vs[k]? = some y) (m : Memory)
    (base : Nat) : (m.writeBlock base vs).read (base + k) = some y := by
  have hk : k < vs.length := (List.getElem?_eq_some_iff.1 h).1
  rw [Memory.read_writeBlock_inside _ _ _ _ hk, List.getD_eq_getElem?_getD, h, Option.getD_some]

/-- Settles O48: the stream is the data columns, the column of group 2 and the ECC columns, and by law 2 of the geometry
the first two are as long as the capacity and codeword g1w of a group-2 block is its last one. -/
theorem interleavePlacesEveryByte : Obligations.InterleavePlacesEveryByte := by
  intro v l s data hgen hv hv' hlen hlen' hread
  obtain ⟨-, hg2, -⟩ := blockGeometryKeepsItsLaws v hv hv' l
  have hdata : s.mem.readBlock Buffer.data.base s.dataLength = some data :=
    (Memory.readBlock_eq_some_iff _ _ _ _).2 ⟨hlen'.symm, fun k hk => hread k (hlen' ▸ hk)⟩
  refine ⟨_, execInterleave_eq hgen hv hv' (hlen'.trans hlen) hdata, fun b hb => ⟨fun i hi => ?_, fun hb2 => ?_,
    fun i hi => ?_⟩⟩
  · rw [← blockData_getD (Nat.lt_of_lt_of_le hi (g1w_le_blockLength hg2 hb))]
    exact read_writeBlock_of_getElem? (interleave_getElem?_data _ _ data hb hi) _ _
  · rw [← blockData_getD (g1w_lt_blockLength_of_group2 hg2 hb hb2)]
    exact read_writeBlock_of_getElem? (interleave_getElem?_trailing _ _ data hb hb2) _ _
  · exact read_writeBlock_of_getElem? (interleave_getElem?_ecc _ _ data hg2 hb hi) _ _

end Sys2Proof.Proofs.Interleaver
end

