-- ==== Sys2Proof/Proofs/BuildMatrix.lean ====
section
/-! SUPPORT. BUILD_MATRIX without an error, and what stands in GRID after it (44_matrix R201, R227). -/

namespace Sys2Proof.Proofs.BuildMatrix

open Sys2Proof Sys2Proof.Machine Sys2Proof.Proofs.Interleaver

/-- BUILD_MATRIX without an error: its checks pass, and its stream is written (R201). -/
theorem execBuildMatrix_eq {v : Nat} (l : Level) (m : Nat) {s : State} {stream : List Byte} (hv : 1 ≤ v)
    (hv' : v ≤ 40) (hlen : s.streamLength = totalCodewords v)
    (hstream : s.mem.readBlock Buffer.stream.base (totalCodewords v) = some stream) :
    execBuildMatrix v l m s
      = .next (((s.writeGrid (buildGrid v l m stream)).setGridSide (sideOf v)).complete (sideOf v * sideOf v)) := by
  have hchecks : firstError [(badVersion v, .unsupportedDegree),
      (decide (totalCodewords v < s.streamLength), .outOfBounds),
      (decide (s.streamLength < totalCodewords v), .lengthMismatch)] = none := by
    simp [badVersion_eq_false hv hv', hlen]
  rw [execBuildMatrix, checked_of_none hchecks, withOperand_of_written (hlen ▸ hstream)]

/-- A byte of GRID after the grid's write: the grid's cell, whatever the state held. -/
theorem read_writeGrid_inside (g : Grid) (s : State) {k : Nat} (hk : k < g.cells.size) :
    (s.writeGrid g).mem.read (Buffer.grid.base + k) = some (g.cells.toList.getD k 0) := by
  rw [State.writeGrid_mem, Memory.read_writeBlock_inside _ _ _ _ (by rwa [Array.length_toList])]

/-- A block whose bytes all hold a value reads as those values. -/
theorem exists_readBlock_eq_some {m : Memory} {base n : Nat} (h : ∀ k < n, (m.read (base + k)).isSome) :
    ∃ vs, m.readBlock base n = some vs := by
  refine Option.ne_none_iff_exists'.1 fun hnone => ?_
  obtain ⟨k, hk, hread⟩ := (Memory.readBlock_eq_none_iff m base n).1 hnone
  have hsome := h k hk
  rw [hread] at hsome
  cases hsome

/-- A block read depends on the bytes of the block only. -/
theorem readBlock_eq_some_of_agree {m m' : Memory} {base n : Nat} {vs : List Byte}
    (h : ∀ k < n, m.read (base + k) = m'.read (base + k)) (hvs : m.readBlock base n = some vs) :
    m'.readBlock base n = some vs := by
  obtain ⟨hlen, hread⟩ := (Memory.readBlock_eq_some_iff _ _ _ _).1 hvs
  exact (Memory.readBlock_eq_some_iff _ _ _ _).2 ⟨hlen, fun k hk => (h k hk).symm.trans (hread k hk)⟩

/-- Settles O50: both states read the same stream, so both write the same grid, and GRID then holds its cells. -/
theorem gridDependsOnOperandsAndStreamOnly : Obligations.GridDependsOnOperandsAndStreamOnly := by
  intro v l m s s' hv hv' _ hlen hlen' hbytes
  obtain ⟨stream, hstream⟩ : ∃ stream, s.mem.readBlock Buffer.stream.base (totalCodewords v) = some stream :=
    exists_readBlock_eq_some fun k hk => (hbytes k hk).1
  have hstream' := readBlock_eq_some_of_agree (fun k hk => (hbytes k hk).2) hstream
  refine ⟨_, _, execBuildMatrix_eq l m hv hv' hlen hstream, execBuildMatrix_eq l m hv hv' hlen' hstream', rfl, rfl,
    fun k hk => ?_⟩
  have hcell : k < (buildGrid v l m stream).cells.size := by rwa [buildGrid_size]
  exact (read_writeGrid_inside _ s hcell).trans (read_writeGrid_inside _ s' hcell).symm

end Sys2Proof.Proofs.BuildMatrix
end

