-- ==== Sys2Proof/Proofs/FunctionCells.lean ====
section
/-! SUPPORT. The cells that phases A, B and C write (44_matrix R203–R214): row 6, column 6, the three corners, the two
version blocks and the alignment patterns; and from them the cells of the function grid that stay unset (R220). -/

namespace Sys2Proof.Proofs.FunctionCells

open Sys2Proof Sys2Proof.Machine

theorem le_sideOf {n v : Nat} (h : n ≤ v) : 4 * n + 17 ≤ sideOf v := by
  rw [sideOf]
  omega

/-! ## The cells that a list of writes names -/

/-- Some write of the list is to the cell (r, c). -/
def Names (ws : List CellWrite) (r c : Nat) : Prop := ∃ w ∈ ws, w.1 = r ∧ w.2.1 = c

section
variable {r c : Nat}

@[simp] theorem names_nil : ¬ Names [] r c := fun ⟨_, hw, _⟩ => List.not_mem_nil hw

@[simp] theorem names_cons (w : CellWrite) (ws : List CellWrite) :
    Names (w :: ws) r c ↔ (w.1 = r ∧ w.2.1 = c) ∨ Names ws r c := by
  simp only [Names, List.mem_cons, or_and_right, exists_or, exists_eq_left]

@[simp] theorem names_append (ws vs : List CellWrite) : Names (ws ++ vs) r c ↔ Names ws r c ∨ Names vs r c := by
  simp only [Names, List.mem_append, or_and_right, exists_or]

@[simp] theorem names_flatMap {α : Type} (xs : List α) (f : α → List CellWrite) :
    Names (xs.flatMap f) r c ↔ ∃ x ∈ xs, Names (f x) r c := by
  simp only [Names, List.mem_flatMap]
  exact ⟨fun ⟨w, ⟨x, hx, hw⟩, hrc⟩ => ⟨x, hx, w, hw, hrc⟩, fun ⟨x, hx, w, hw, hrc⟩ => ⟨w, ⟨x, hx, hw⟩, hrc⟩⟩

/-- A square block of n × n writes. -/
theorem names_square (n top left : Nat) (f : Nat → Nat → Byte) :
    Names ((List.range n).flatMap fun i => (List.range n).map fun j => (top + i, left + j, f i j)) r c
      ↔ (top ≤ r ∧ r < top + n) ∧ left ≤ c ∧ c < left + n := by
  simp only [Names, List.mem_flatMap, List.mem_range, List.mem_map]
  constructor
  · rintro ⟨_, ⟨i, hi, j, hj, rfl⟩, rfl, rfl⟩
    exact ⟨⟨Nat.le_add_right _ _, Nat.add_lt_add_left hi top⟩, Nat.le_add_right _ _, Nat.add_lt_add_left hj left⟩
  · rintro ⟨⟨hr, hr'⟩, hc, hc'⟩
    exact ⟨_, ⟨r - top, by omega, c - left, by omega, rfl⟩, Nat.add_sub_of_le hr, Nat.add_sub_of_le hc⟩

theorem names_finder (top left : Nat) :
    Names (finder top left) r c ↔ (top ≤ r ∧ r < top + 7) ∧ left ≤ c ∧ c < left + 7 := names_square 7 top left _

theorem names_alignmentPattern (a b : Nat) :
    Names (alignmentPattern a b) r c ↔ (a - 2 ≤ r ∧ r < a - 2 + 5) ∧ b - 2 ≤ c ∧ c < b - 2 + 5 :=
  names_square 5 (a - 2) (b - 2) _

theorem names_finders (side : Nat) : Names (finders side) r c
    ↔ (r < 7 ∧ c < 7) ∨ (r < 7 ∧ side - 7 ≤ c ∧ c < side - 7 + 7) ∨ (side - 7 ≤ r ∧ r < side - 7 + 7 ∧ c < 7) := by
  simp only [finders, names_append, names_finder]
  omega

theorem names_separators {side : Nat} (hside : 21 ≤ side) : Names (separators side) r c
    ↔ (r = 7 ∧ c < 8) ∨ (r < 8 ∧ c = 7) ∨ (r = 7 ∧ side - 8 ≤ c ∧ c < side) ∨ (r < 8 ∧ c = side - 8)
      ∨ (r = side - 8 ∧ c < 8) ∨ (side - 8 ≤ r ∧ r < side ∧ c = 7) := by
  simp only [separators, names_flatMap, names_cons, names_nil, List.mem_range, or_false]
  constructor
  · rintro ⟨k, hk, ⟨rfl, rfl⟩ | ⟨rfl, rfl⟩ | ⟨rfl, rfl⟩ | ⟨rfl, rfl⟩ | ⟨rfl, rfl⟩ | ⟨rfl, rfl⟩⟩
    · exact .inl ⟨rfl, hk⟩
    · exact .inr (.inl ⟨hk, rfl⟩)
    · exact .inr (.inr (.inl ⟨rfl, by omega⟩))
    · exact .inr (.inr (.inr (.inl ⟨hk, rfl⟩)))
    · exact .inr (.inr (.inr (.inr (.inl ⟨rfl, hk⟩))))
    · exact .inr (.inr (.inr (.inr (.inr (by omega)))))
  · rintro (⟨rfl, hc⟩ | ⟨hr, rfl⟩ | ⟨rfl, hc⟩ | ⟨hr, rfl⟩ | ⟨rfl, hc⟩ | ⟨hr, hr', rfl⟩)
    · exact ⟨c, hc, .inl ⟨rfl, rfl⟩⟩
    · exact ⟨r, hr, .inr (.inl ⟨rfl, rfl⟩)⟩
    · exact ⟨side - 1 - c, by omega, .inr (.inr (.inl ⟨rfl, by omega⟩))⟩
    · exact ⟨r, hr, .inr (.inr (.inr (.inl ⟨rfl, rfl⟩)))⟩
    · exact ⟨c, hc, .inr (.inr (.inr (.inr (.inl ⟨rfl, rfl⟩))))⟩
    · exact ⟨side - 1 - r, by omega, .inr (.inr (.inr (.inr (.inr ⟨by omega, rfl⟩))))⟩

/-- A finder and its separator fill a square of eight lines. -/
theorem names_finders_or_separators {side : Nat} (hside : 21 ≤ side) :
    Names (finders side) r c ∨ Names (separators side) r c
    ↔ (r < 8 ∧ c < 8) ∨ (r < 8 ∧ side - 8 ≤ c ∧ c < side) ∨ (side - 8 ≤ r ∧ r < side ∧ c < 8) := by
  rw [names_finders, names_separators hside]
  constructor
  · rintro ((h | h | h) | h | h | h | h | h | h)
    · exact .inl (by omega)
    · exact .inr (.inl (by omega))
    · exact .inr (.inr (by omega))
    · exact .inl (by omega)
    · exact .inl (by omega)
    · exact .inr (.inl (by omega))
    · exact .inr (.inl (by omega))
    · exact .inr (.inr (by omega))
    · exact .inr (.inr (by omega))
  · rintro (⟨hr, hc⟩ | ⟨hr, hc⟩ | ⟨hr, hr', hc⟩)
    · by_cases h7 : r = 7
      · exact .inr (.inl ⟨h7, hc⟩)
      by_cases h7' : c = 7
      · exact .inr (.inr (.inl ⟨hr, h7'⟩))
      exact .inl (.inl (by omega))
    · by_cases h7 : r = 7
      · exact .inr (.inr (.inr (.inl ⟨h7, hc⟩)))
      by_cases h8 : c = side - 8
      · exact .inr (.inr (.inr (.inr (.inl ⟨hr, h8⟩))))
      exact .inl (.inr (.inl (by omega)))
    · by_cases h8 : r = side - 8
      · exact .inr (.inr (.inr (.inr (.inr (.inl ⟨h8, hc⟩)))))
      by_cases h7 : c = 7
      · exact .inr (.inr (.inr (.inr (.inr (.inr ⟨hr, hr', h7⟩)))))
      exact .inl (.inr (.inr (by omega)))

theorem names_darkModule (side : Nat) : Names (darkModule side) r c ↔ r = side - 8 ∧ c = 8 := by
  simp only [darkModule, names_cons, names_nil, or_false, eq_comm]

theorem names_timing (side : Nat) : Names (timing side) r c
    ↔ (r = 6 ∧ 8 ≤ c ∧ c < side - 8) ∨ (8 ≤ r ∧ r < side - 8 ∧ c = 6) := by
  simp only [timing, names_flatMap, names_cons, names_nil, List.mem_range, or_false]
  constructor
  · rintro ⟨k, hk, h⟩
    omega
  · rintro (h | h)
    · exact ⟨c - 8, by omega⟩
    · exact ⟨r - 8, by omega⟩

theorem names_phaseB {v : Nat} (hv : 1 ≤ v) : Names (phaseB v) r c
    ↔ ((sideOf v - 11 ≤ r ∧ r < sideOf v - 8) ∧ c < 6) ∨ (r < 6 ∧ sideOf v - 11 ≤ c ∧ c < sideOf v - 8) := by
  simp only [phaseB, sideOf, names_flatMap, names_cons, names_nil, List.mem_range, or_false]
  constructor
  · rintro ⟨k, hk, ⟨rfl, rfl⟩ | ⟨rfl, rfl⟩⟩
    · exact .inl (by omega)
    · exact .inr (by omega)
  · rintro (h | h)
    · exact ⟨3 * c + (r - (4 * v + 17 - 11)), by omega, .inl (by omega)⟩
    · exact ⟨3 * r + (c - (4 * v + 17 - 11)), by omega, .inr (by omega)⟩

/-- Copy 1 of the format word goes around the corner of the top-left finder (R214). -/
theorem exists_formatCell1 : (∃ i < 15, (formatCell1 i).1 = r ∧ (formatCell1 i).2 = c)
    ↔ (r < 9 ∧ r ≠ 6 ∧ c = 8) ∨ (r = 8 ∧ c < 8 ∧ c ≠ 6) := by
  have hcell : ∀ i < 15, ((formatCell1 i).1 < 9 ∧ (formatCell1 i).1 ≠ 6 ∧ (formatCell1 i).2 = 8)
      ∨ ((formatCell1 i).1 = 8 ∧ (formatCell1 i).2 < 8 ∧ (formatCell1 i).2 ≠ 6) := by decide
  have hcolumn : ∀ r < 9, r ≠ 6 → ∃ i < 15, (formatCell1 i).1 = r ∧ (formatCell1 i).2 = 8 := by decide
  have hrow : ∀ c < 8, c ≠ 6 → ∃ i < 15, (formatCell1 i).1 = 8 ∧ (formatCell1 i).2 = c := by decide
  constructor
  · rintro ⟨i, hi, rfl, rfl⟩
    exact hcell i hi
  · rintro (⟨hr, h6, rfl⟩ | ⟨rfl, hc, h6⟩)
    · exact hcolumn r hr h6
    · exact hrow c hc h6

/-- Copy 2 stands in row 8 under the top-right finder and in column 8 beside the bottom-left one (R214). -/
theorem exists_formatCell2 {side : Nat} (hside : 21 ≤ side) :
    (∃ i < 15, (formatCell2 side i).1 = r ∧ (formatCell2 side i).2 = c)
    ↔ (r = 8 ∧ side - 8 ≤ c ∧ c < side) ∨ (side - 7 ≤ r ∧ r < side ∧ c = 8) := by
  have hfirst : ∀ i, i < 8 → formatCell2 side i = (8, side - 1 - i) := fun i hi => if_pos hi
  have hlast : ∀ i, ¬ i < 8 → formatCell2 side i = (side - 15 + i, 8) := fun i hi => if_neg hi
  constructor
  · rintro ⟨i, hi, rfl, rfl⟩
    by_cases h8 : i < 8
    · rw [hfirst i h8]
      exact .inl ⟨rfl, by simp only; omega⟩
    · rw [hlast i h8]
      exact .inr ⟨by simp only; omega, by simp only; omega, rfl⟩
  · rintro (⟨rfl, hc, hc'⟩ | ⟨hr, hr', rfl⟩)
    · refine ⟨side - 1 - c, by omega, ?_⟩
      rw [hfirst _ (by omega)]
      exact ⟨rfl, by simp only; omega⟩
    · refine ⟨r - (side - 15), by omega, ?_⟩
      rw [hlast _ (by omega)]
      exact ⟨by simp only; omega, rfl⟩

theorem names_phaseC {v : Nat} (hv : 1 ≤ v) (l : Level) (m : Nat) : Names (phaseC v l m) r c
    ↔ ((r < 9 ∧ r ≠ 6 ∧ c = 8) ∨ (r = 8 ∧ c < 8 ∧ c ≠ 6))
      ∨ (r = 8 ∧ sideOf v - 8 ≤ c ∧ c < sideOf v) ∨ (sideOf v - 7 ≤ r ∧ r < sideOf v ∧ c = 8) := by
  have hside : 21 ≤ sideOf v := le_sideOf hv
  rw [← exists_formatCell1, ← exists_formatCell2 hside]
  simp only [phaseC, names_flatMap, names_cons, names_nil, List.mem_range, or_false, and_or_left, exists_or]

theorem names_alignmentPatterns {v : Nat} : Names (alignmentPatterns v) r c
    ↔ ∃ p ∈ alignmentCentres v, (p.1 - 2 ≤ r ∧ r < p.1 - 2 + 5) ∧ p.2 - 2 ≤ c ∧ c < p.2 - 2 + 5 := by
  simp only [alignmentPatterns, names_flatMap, names_alignmentPattern]

end

/-! ## The colours -/

/-- Every write of the list is of a colour, not of the value "unset". -/
def Coloured (ws : List CellWrite) : Prop := ∀ w ∈ ws, w.2.2 ≠ unsetCell

theorem coloured_nil : Coloured [] := List.forall_mem_nil _

theorem coloured_cons (w : CellWrite) (ws : List CellWrite) :
    Coloured (w :: ws) ↔ w.2.2 ≠ unsetCell ∧ Coloured ws := List.forall_mem_cons

theorem coloured_append (ws vs : List CellWrite) : Coloured (ws ++ vs) ↔ Coloured ws ∧ Coloured vs :=
  List.forall_mem_append

theorem coloured_map {α : Type} (xs : List α) (f : α → CellWrite) :
    Coloured (xs.map f) ↔ ∀ x ∈ xs, (f x).2.2 ≠ unsetCell := List.forall_mem_map

theorem coloured_flatMap {α : Type} (xs : List α) (f : α → List CellWrite) :
    Coloured (xs.flatMap f) ↔ ∀ x ∈ xs, Coloured (f x) := List.forall_mem_flatMap

theorem cellOf_ne_unsetCell (b : Bool) : cellOf b ≠ unsetCell := by cases b <;> decide

theorem coloured_phaseA (v : Nat) : Coloured (phaseA v) := by
  have hwhite : ((0 : Byte) = unsetCell) = False := by decide
  have hblack : ((1 : Byte) = unsetCell) = False := by decide
  simp only [phaseA, finders, finder, separators, darkModule, alignmentPatterns, alignmentPattern, timing,
    coloured_append, coloured_flatMap, coloured_map, coloured_cons, coloured_nil, ne_eq, cellOf_ne_unsetCell, hwhite,
    hblack, not_false_eq_true, and_self, implies_true]

theorem coloured_phaseB (v : Nat) : Coloured (phaseB v) := by
  simp only [phaseB, coloured_flatMap, coloured_cons, coloured_nil, ne_eq, cellOf_ne_unsetCell, not_false_eq_true,
    and_self, implies_true]

theorem coloured_phaseC (v : Nat) (l : Level) (m : Nat) : Coloured (phaseC v l m) := by
  simp only [phaseC, coloured_flatMap, coloured_cons, coloured_nil, ne_eq, cellOf_ne_unsetCell, not_false_eq_true,
    and_self, implies_true]

theorem coloured_functionWrites (v : Nat) (l : Level) (m : Nat) : Coloured (functionWrites v l m) := by
  rw [functionWrites, coloured_append, coloured_append]
  refine ⟨coloured_phaseA v, ?_, coloured_phaseC v l m⟩
  split
  · exact coloured_phaseB v
  · exact coloured_nil

/-! ## The alignment centres -/

/-- The first coordinate of R207 is 6, and the others are past the near corner. -/
theorem eq_first_or_le_of_mem_align : ∀ v < 41, ∀ a ∈ align v, a = 6 ∨ 18 ≤ a := by decide

/-- The last coordinate of R207 is 4v + 10, and the others are before the version blocks. -/
theorem eq_last_or_le_of_mem_align : ∀ v < 41, ∀ a ∈ align v, a = 4 * v + 10 ∨ a + 12 ≤ 4 * v + 10 := by decide

theorem eq_or_apart_of_mem_align : ∀ v < 41, ∀ a ∈ align v, ∀ b ∈ align v, a = b ∨ a + 12 ≤ b ∨ b + 12 ≤ a := by
  decide

theorem nodup_align : ∀ v < 41, (align v).Nodup := by decide

theorem meetsZone_eq_false_iff {side r c : Nat} : meetsZone side r c = false ↔ ¬ (r - 2 ≤ 8 ∧ c - 2 ≤ 8)
    ∧ ¬ (r - 2 ≤ 8 ∧ side - 8 ≤ c + 2) ∧ ¬ (side - 8 ≤ r + 2 ∧ c - 2 ≤ 8) := by
  simp only [meetsZone, Bool.or_eq_false_iff, Bool.and_eq_false_iff, decide_eq_false_iff_not,
    Decidable.not_and_iff_not_or_not, and_assoc]

theorem mem_alignmentCentres {v : Nat} {p : Nat × Nat} : p ∈ alignmentCentres v
    ↔ p.1 ∈ align v ∧ p.2 ∈ align v ∧ meetsZone (sideOf v) p.1 p.2 = false := by
  obtain ⟨a, b⟩ := p
  simp only [alignmentCentres, List.mem_flatMap, List.mem_map, List.mem_filter, Bool.not_eq_true', Prod.mk.injEq]
  exact ⟨fun ⟨_, ha, _, hb, ha', hb'⟩ => ha' ▸ hb' ▸ ⟨ha, hb⟩, fun ⟨ha, hb⟩ => ⟨a, ha, b, hb, rfl, rfl⟩⟩

theorem nodup_alignmentCentres {v : Nat} (hv : v < 41) : (alignmentCentres v).Nodup := by
  have hnodup := nodup_align v hv
  refine List.pairwise_flatMap.2 ⟨fun r _ => ?_, hnodup.imp fun hne p hp q hq heq => ?_⟩
  · exact List.pairwise_map.2 ((hnodup.filter _).imp fun hne heq => hne (congrArg Prod.snd heq))
  · obtain ⟨_, -, rfl⟩ := List.mem_map.1 hp
    obtain ⟨_, -, rfl⟩ := List.mem_map.1 hq
    exact hne (congrArg Prod.fst heq)

/-! ## Rectangles of cells -/

/-- The cells where one of the rows meets one of the columns. -/
def rect (rows cols : List Nat) : List (Nat × Nat) := rows.flatMap fun r => cols.map fun c => (r, c)

theorem mem_rect {rows cols : List Nat} {r c : Nat} : (r, c) ∈ rect rows cols ↔ r ∈ rows ∧ c ∈ cols := by
  simp only [rect, List.mem_flatMap, List.mem_map, Prod.mk.injEq]
  exact ⟨fun ⟨_, hr, _, hc, hr', hc'⟩ => ⟨hr' ▸ hr, hc' ▸ hc⟩, fun ⟨hr, hc⟩ => ⟨r, hr, c, hc, rfl, rfl⟩⟩

theorem length_rect (rows cols : List Nat) : (rect rows cols).length = rows.length * cols.length := by
  induction rows with
  | nil => rw [rect, List.flatMap_nil, List.length_nil, List.length_nil, Nat.zero_mul]
  | cons r rows ih =>
    rw [rect] at ih
    rw [rect, List.flatMap_cons, List.length_append, List.length_map, ih, List.length_cons, Nat.succ_mul, Nat.add_comm]

theorem nodup_rect {rows cols : List Nat} (hrows : rows.Nodup) (hcols : cols.Nodup) : (rect rows cols).Nodup := by
  refine List.pairwise_flatMap.2 ⟨fun r _ => ?_, hrows.imp fun hne p hp q hq heq => ?_⟩
  · exact List.pairwise_map.2 (hcols.imp fun hne heq => hne (congrArg Prod.snd heq))
  · obtain ⟨_, -, rfl⟩ := List.mem_map.1 hp
    obtain ⟨_, -, rfl⟩ := List.mem_map.1 hq
    exact hne (congrArg Prod.fst heq)

/-! ## The cells of each pattern, outside row 6 and column 6 -/

/-- The line is not the one of the timing pattern. -/
def offTiming (i : Nat) : Bool := decide (i ≠ 6)

/-- The rows, or the columns, of a grid but the one of the timing pattern. -/
def lines (side : Nat) : List Nat := (List.range side).filter offTiming

/-- The lines of the finders at the origin. -/
def nearLines : List Nat := lines 9

/-- The lines of the other finders. -/
def farLines (side : Nat) : List Nat := List.range' (side - 8) 8

/-- The corners: the format words reach one line past the separators (R214), and the dark module stands there (R205). -/
def InCorner (side r c : Nat) : Prop :=
  (r < 9 ∧ c < 9) ∨ (r < 9 ∧ side - 8 ≤ c ∧ c < side) ∨ (side - 8 ≤ r ∧ r < side ∧ c < 9)

/-- The finders with their separators, the format words and the dark module fill three corners (R203–R205, R214). -/
def cornerCells (side : Nat) : List (Nat × Nat) :=
  rect nearLines nearLines ++ (rect nearLines (farLines side) ++ rect (farLines side) nearLines)

/-- The lines of the version blocks along their longer side. -/
def versionLines (v : Nat) : List Nat := List.range' (sideOf v - 11) 3

/-- The two version blocks (R211). -/
def versionCells (v : Nat) : List (Nat × Nat) :=
  if 7 ≤ v then rect (versionLines v) (List.range 6) ++ rect (List.range 6) (versionLines v) else []

/-- The lines of an alignment pattern whose centre is on line a. -/
def span (a : Nat) : List Nat := (List.range' (a - 2) 5).filter offTiming

/-- The alignment patterns (R206). -/
def alignmentCells (v : Nat) : List (Nat × Nat) := (alignmentCentres v).flatMap fun p => rect (span p.1) (span p.2)

/-- The cells of phases A, B and C outside row 6 and column 6. -/
def patternCells (v : Nat) : List (Nat × Nat) := cornerCells (sideOf v) ++ (versionCells v ++ alignmentCells v)

section
variable {v r c : Nat}

theorem mem_lines {side i : Nat} : i ∈ lines side ↔ i ≠ 6 ∧ i < side := by
  simp only [lines, offTiming, List.mem_filter, List.mem_range, decide_eq_true_eq, and_comm]

theorem mem_farLines {side i : Nat} (hside : 21 ≤ side) : i ∈ farLines side ↔ side - 8 ≤ i ∧ i < side := by
  rw [farLines, List.mem_range'_1, Nat.sub_add_cancel (by omega)]

theorem mem_versionLines {i : Nat} : i ∈ versionLines v ↔ sideOf v - 11 ≤ i ∧ i < sideOf v - 8 := by
  rw [versionLines, List.mem_range'_1, sideOf]
  omega

theorem mem_span {a i : Nat} : i ∈ span a ↔ i ≠ 6 ∧ a - 2 ≤ i ∧ i < a - 2 + 5 := by
  simp only [span, offTiming, List.mem_filter, List.mem_range'_1, decide_eq_true_eq, and_comm]

theorem mem_cornerCells {side : Nat} (hside : 21 ≤ side) :
    (r, c) ∈ cornerCells side ↔ (r ≠ 6 ∧ c ≠ 6) ∧ InCorner side r c := by
  simp only [cornerCells, nearLines, List.mem_append, mem_rect, mem_lines, mem_farLines hside]
  constructor
  · rintro (⟨⟨hr6, hr⟩, hc6, hc⟩ | ⟨⟨hr6, hr⟩, hc⟩ | ⟨hr, hc6, hc⟩)
    · exact ⟨⟨hr6, hc6⟩, .inl ⟨hr, hc⟩⟩
    · exact ⟨⟨hr6, by omega⟩, .inr (.inl ⟨hr, hc⟩)⟩
    · exact ⟨⟨by omega, hc6⟩, .inr (.inr ⟨hr.1, hr.2, hc⟩)⟩
  · rintro ⟨⟨hr6, hc6⟩, ⟨hr, hc⟩ | ⟨hr, hc⟩ | ⟨hr, hr', hc⟩⟩
    · exact .inl ⟨⟨hr6, hr⟩, hc6, hc⟩
    · exact .inr (.inl ⟨⟨hr6, hr⟩, hc⟩)
    · exact .inr (.inr ⟨⟨hr, hr'⟩, hc6, hc⟩)

theorem lt_of_inCorner {side : Nat} (hside : 21 ≤ side) (h : InCorner side r c) : r < side ∧ c < side := by
  obtain h | h | h := h <;> omega

theorem mem_versionCells : (r, c) ∈ versionCells v ↔ 7 ≤ v ∧
    (((sideOf v - 11 ≤ r ∧ r < sideOf v - 8) ∧ c < 6) ∨ (r < 6 ∧ sideOf v - 11 ≤ c ∧ c < sideOf v - 8)) := by
  rw [versionCells]
  split
  next hv =>
    rw [List.mem_append, mem_rect, mem_rect, mem_versionLines, mem_versionLines, List.mem_range, List.mem_range]
    exact ⟨fun h => ⟨hv, h⟩, And.right⟩
  next hv => exact ⟨fun h => absurd h List.not_mem_nil, fun h => absurd h.1 hv⟩

theorem mem_alignmentCells : (r, c) ∈ alignmentCells v ↔ (r ≠ 6 ∧ c ≠ 6) ∧ Names (alignmentPatterns v) r c := by
  simp only [alignmentCells, names_alignmentPatterns, List.mem_flatMap, mem_rect, mem_span]
  exact ⟨fun ⟨p, hp, hr, hc⟩ => ⟨⟨hr.1, hc.1⟩, p, hp, hr.2, hc.2⟩,
    fun ⟨⟨hr, hc⟩, p, hp, h⟩ => ⟨p, hp, ⟨hr, h.1⟩, hc, h.2⟩⟩

theorem lt_sideOf_of_names_alignmentPatterns (hv : v < 41) (h : Names (alignmentPatterns v) r c) :
    r < sideOf v ∧ c < sideOf v := by
  obtain ⟨p, hp, hr, hc⟩ := names_alignmentPatterns.1 h
  obtain ⟨h1, h2, -⟩ := mem_alignmentCentres.1 hp
  have hrow := eq_last_or_le_of_mem_align v hv _ h1
  have hcol := eq_last_or_le_of_mem_align v hv _ h2
  rw [sideOf]
  omega

theorem names_phaseA (hv : 1 ≤ v) : Names (phaseA v) r c
    ↔ (((r < 8 ∧ c < 8) ∨ (r < 8 ∧ sideOf v - 8 ≤ c ∧ c < sideOf v) ∨ (sideOf v - 8 ≤ r ∧ r < sideOf v ∧ c < 8))
        ∨ (r = sideOf v - 8 ∧ c = 8) ∨ (r = 6 ∧ 8 ≤ c ∧ c < sideOf v - 8) ∨ (8 ≤ r ∧ r < sideOf v - 8 ∧ c = 6))
      ∨ Names (alignmentPatterns v) r c := by
  have hside : 21 ≤ sideOf v := le_sideOf hv
  rw [← names_finders_or_separators hside, ← names_darkModule, ← names_timing]
  simp only [phaseA, names_append, or_assoc, or_comm (a := Names (alignmentPatterns v) r c)]

/-- The format words and the dark module close the corners that the finders and the separators leave open. -/
theorem names_phaseA_or_phaseC (hv : 1 ≤ v) (l : Level) (m : Nat) : Names (phaseA v) r c ∨ Names (phaseC v l m) r c
    ↔ ((r = 6 ∧ c < sideOf v) ∨ (r < sideOf v ∧ c = 6) ∨ InCorner (sideOf v) r c)
      ∨ Names (alignmentPatterns v) r c := by
  have hside : 21 ≤ sideOf v := le_sideOf hv
  rw [names_phaseA hv, names_phaseC hv, or_right_comm]
  refine or_congr_left ?_
  generalize sideOf v = side at hside
  constructor
  · rintro (((h | h | h) | h | h | h) | (h | h) | h | h)
    · exact .inr (.inr (.inl (by omega)))
    · exact .inr (.inr (.inr (.inl (by omega))))
    · exact .inr (.inr (.inr (.inr (by omega))))
    · exact .inr (.inr (.inr (.inr (by omega))))
    · exact .inl (by omega)
    · exact .inr (.inl (by omega))
    · exact .inr (.inr (.inl (by omega)))
    · exact .inr (.inr (.inl (by omega)))
    · exact .inr (.inr (.inr (.inl (by omega))))
    · exact .inr (.inr (.inr (.inr (by omega))))
  · rintro (⟨rfl, hc⟩ | ⟨hr, rfl⟩ | ⟨hr, hc⟩ | ⟨hr, hc⟩ | ⟨hr, hr', hc⟩)
    · by_cases h1 : c < 8
      · exact .inl (.inl (.inl ⟨by omega, h1⟩))
      by_cases h2 : c < side - 8
      · exact .inl (.inr (.inr (.inl (by omega))))
      exact .inl (.inl (.inr (.inl (by omega))))
    · by_cases h1 : r < 8
      · exact .inl (.inl (.inl ⟨h1, by omega⟩))
      by_cases h2 : r < side - 8
      · exact .inl (.inr (.inr (.inr (by omega))))
      exact .inl (.inl (.inr (.inr (by omega))))
    · by_cases h8 : r < 8 ∧ c < 8
      · exact .inl (.inl (.inl h8))
      by_cases hc8 : c = 8
      · by_cases h6 : r = 6
        · exact .inl (.inr (.inr (.inl (by omega))))
        exact .inr (.inl (.inl ⟨hr, h6, hc8⟩))
      · by_cases h6 : c = 6
        · exact .inl (.inr (.inr (.inr (by omega))))
        exact .inr (.inl (.inr (by omega)))
    · by_cases h8 : r < 8
      · exact .inl (.inl (.inr (.inl ⟨h8, hc⟩)))
      exact .inr (.inr (.inl ⟨by omega, hc⟩))
    · by_cases h1 : c < 8
      · exact .inl (.inl (.inr (.inr ⟨hr, hr', h1⟩)))
      by_cases h2 : r = side - 8
      · exact .inl (.inr (.inl (by omega)))
      exact .inr (.inr (.inr (by omega)))

/-- A cell is in row 6, in column 6, or in neither. -/
theorem eq_six_or_eq_six_or {P : Prop} (h : r ≠ 6 ∧ c ≠ 6 → P) : r = 6 ∨ c = 6 ∨ P := by
  by_cases hr : r = 6
  · exact .inl hr
  by_cases hc : c = 6
  · exact .inr (.inl hc)
  exact .inr (.inr (h ⟨hr, hc⟩))

/-- Phases A, B and C fill row 6, column 6 and the pattern cells. -/
theorem names_functionWrites (hv : 1 ≤ v) (hv' : v ≤ 40) (l : Level) (m : Nat) : Names (functionWrites v l m) r c
    ↔ (r < sideOf v ∧ c < sideOf v) ∧ (r = 6 ∨ c = 6 ∨ (r, c) ∈ patternCells v) := by
  have hside : 21 ≤ sideOf v := le_sideOf hv
  have hB : Names (if 7 ≤ v then phaseB v else []) r c ↔ (r, c) ∈ versionCells v := by
    rw [mem_versionCells, ← names_phaseB hv]
    split
    next hv7 => exact ⟨fun h => ⟨hv7, h⟩, And.right⟩
    next hv7 => exact ⟨fun h => absurd h names_nil, fun h => absurd h.1 hv7⟩
  have hsplit : Names (functionWrites v l m) r c
      ↔ (Names (phaseA v) r c ∨ Names (phaseC v l m) r c) ∨ (r, c) ∈ versionCells v := by
    rw [functionWrites, names_append, names_append, hB, or_assoc, or_comm (a := (r, c) ∈ versionCells v)]
  rw [hsplit, names_phaseA_or_phaseC hv, patternCells, List.mem_append, List.mem_append, mem_alignmentCells,
    mem_cornerCells hside]
  constructor
  · rintro (((⟨rfl, hc⟩ | ⟨hr, rfl⟩ | h) | h) | h)
    · exact ⟨⟨by omega, hc⟩, .inl rfl⟩
    · exact ⟨⟨hr, by omega⟩, .inr (.inl rfl)⟩
    · exact ⟨lt_of_inCorner hside h, eq_six_or_eq_six_or fun h6 => .inl ⟨h6, h⟩⟩
    · exact ⟨lt_sideOf_of_names_alignmentPatterns (Nat.lt_succ_of_le hv') h,
        eq_six_or_eq_six_or fun h6 => .inr (.inr ⟨h6, h⟩)⟩
    · have hbounds := mem_versionCells.1 h
      exact ⟨by omega, .inr (.inr (.inr (.inl h)))⟩
  · rintro ⟨⟨hr, hc⟩, rfl | rfl | ⟨-, h⟩ | h | ⟨-, h⟩⟩
    · exact .inl (.inl (.inl ⟨rfl, hc⟩))
    · exact .inl (.inl (.inr (.inl ⟨hr, rfl⟩)))
    · exact .inl (.inl (.inr (.inr h)))
    · exact .inr h
    · exact .inl (.inr h)

/-- The cells that stay unset: those of no pattern, outside row 6 and column 6 (R220). -/
theorem get_functionGrid_eq_unset_iff (hv : 1 ≤ v) (hv' : v ≤ 40) (l : Level) (m : Nat) (hr : r < sideOf v)
    (hc : c < sideOf v) : (functionGrid v l m).get r c = unsetCell ↔ (r ≠ 6 ∧ c ≠ 6) ∧ (r, c) ∉ patternCells v := by
  have hinside : ∀ w ∈ functionWrites v l m, w.1 < sideOf v ∧ w.2.1 < sideOf v ∧ w.2.2 ≠ unsetCell := by
    intro w hw
    obtain ⟨⟨h1, h2⟩, -⟩ := (names_functionWrites hv hv' l m).1 ⟨w, hw, rfl, rfl⟩
    exact ⟨h1, h2, coloured_functionWrites v l m w hw⟩
  have hsize : (Grid.blank (sideOf v)).cells.size = sideOf v * sideOf v := Grid.blank_size _
  calc (functionGrid v l m).get r c = unsetCell
    _ ↔ ¬ Names (functionWrites v l m) r c := by
      rw [functionGrid, Grid.get_apply_eq_unset_iff _ _ _ _ hsize hc hinside, Grid.get_blank]
      exact ⟨fun ⟨_, h⟩ ⟨w, hw, hrc⟩ => h w hw hrc, fun h => ⟨rfl, fun w hw hrc => h ⟨w, hw, hrc⟩⟩⟩
    _ ↔ (r ≠ 6 ∧ c ≠ 6) ∧ (r, c) ∉ patternCells v := by
      rw [names_functionWrites hv hv']
      simp only [hr, hc, and_self, true_and, not_or, and_assoc, ne_eq]

end

end Sys2Proof.Proofs.FunctionCells
end

