-- ==== Sys2Proof/Proofs/DataCells.lean ====
section
/-! SUPPORT. The number of data cells (44_matrix R220, R225, R226): the scan meets every cell outside column 6 once, and
outside row 6 and column 6 the corners, the version blocks and the alignment patterns have no cell in common. So the
data cells and the pattern cells together are the cells of the grid outside row 6 and column 6, each once. -/

namespace Sys2Proof.Proofs.DataCells

open Sys2Proof Sys2Proof.Machine Sys2Proof.Proofs.FunctionCells

/-! ## Lists of cells without repetition -/

theorem nodup_append_of_disjoint {xs ys : List (Nat × Nat)} (hxs : xs.Nodup) (hys : ys.Nodup)
    (h : ∀ r c, (r, c) ∈ xs → (r, c) ∉ ys) : (xs ++ ys).Nodup :=
  List.nodup_append.2 ⟨hxs, hys, fun p hp _ hq heq => h p.1 p.2 hp (heq ▸ hq)⟩

theorem length_eq_of_mem_iff {xs ys : List (Nat × Nat)} (hxs : xs.Nodup) (hys : ys.Nodup)
    (h : ∀ r c, (r, c) ∈ xs ↔ (r, c) ∈ ys) : xs.length = ys.length :=
  Nat.le_antisymm (hxs.length_le_of_subset fun p hp => (h p.1 p.2).1 hp)
    (hys.length_le_of_subset fun p hp => (h p.1 p.2).2 hp)

/-! ## The scan -/

section
variable (side n fuel : Nat) (upward : Bool)

/-- The scan from column 6: its lane is moved to column 5, and two more lanes follow it. -/
theorem scanFrom_six : scanFrom side (fuel + 3) 6 upward
    = laneCells side 5 upward ++ (laneCells side 3 (!upward) ++ laneCells side 1 (!!upward)) := by
  have hend : ∀ b, scanFrom side fuel 0 b = [] := fun b => by cases fuel <;> rfl
  have hlast : scanFrom side (fuel + 1) 1 (!!upward)
      = laneCells side 1 (!!upward) ++ scanFrom side fuel 0 (!!!upward) := rfl
  rw [hend, List.append_nil] at hlast
  rw [← hlast]
  rfl

/-- The scan from an even column past 6: one lane, then the scan from two columns on. -/
theorem scanFrom_even : scanFrom side (n + 1 + (fuel + 3)) (2 * (n + 1) + 6) upward
    = laneCells side (2 * (n + 1) + 6) upward ++ scanFrom side (n + (fuel + 3)) (2 * n + 6) (!upward) := by
  have hright : 2 * (n + 1) + 6 ≠ 6 := by omega
  rw [Nat.succ_add, scanFrom, if_neg (by omega), if_neg hright]
  rfl

/-- The lanes are the columns up to the first one, without column 6. -/
theorem mem_scanFrom {r c : Nat} : (r, c) ∈ scanFrom side (n + (fuel + 3)) (2 * n + 6) upward
    ↔ (c ≠ 6 ∧ c < 2 * n + 7) ∧ r < side := by
  induction n generalizing upward with
  | zero =>
    rw [Nat.zero_add, scanFrom_six]
    simp only [List.mem_append, mem_laneCells]
    omega
  | succ n ih =>
    rw [scanFrom_even, List.mem_append, mem_laneCells, ih]
    omega

theorem nodup_laneRows : (laneRows side upward).Nodup := by
  cases upward with
  | false => exact List.nodup_range
  | true => exact List.pairwise_reverse.2 (List.nodup_range.imp Ne.symm)

theorem nodup_laneCells {right : Nat} (h : 1 ≤ right) : (laneCells side right upward).Nodup := by
  refine List.pairwise_flatMap.2 ⟨fun r _ => ?_, (nodup_laneRows side upward).imp fun hne p hp q hq heq => ?_⟩
  · have hcolumns : right ≠ right - 1 := by omega
    exact List.pairwise_pair.2 fun heq => hcolumns (congrArg Prod.snd heq)
  · have hrow : ∀ {r' : Nat} {p : Nat × Nat}, p ∈ [(r', right), (r', right - 1)] → p.1 = r' := by
      intro r' p hp
      obtain rfl | hp := List.mem_cons.1 hp
      · rfl
      · rw [List.mem_singleton.1 hp]
    exact hne ((hrow hp).symm.trans ((congrArg Prod.fst heq).trans (hrow hq)))

theorem nodup_scanFrom : (scanFrom side (n + (fuel + 3)) (2 * n + 6) upward).Nodup := by
  induction n generalizing upward with
  | zero =>
    have hlane : ∀ {right : Nat} (b : Bool), 1 ≤ right → (laneCells side right b).Nodup :=
      fun b h => nodup_laneCells side b h
    rw [Nat.zero_add, scanFrom_six]
    refine nodup_append_of_disjoint (hlane _ (by decide))
      (nodup_append_of_disjoint (hlane _ (by decide)) (hlane _ (by decide)) fun r c h1 h2 => ?_) fun r c h1 h2 => ?_
    · rw [mem_laneCells] at h1 h2
      omega
    · rw [List.mem_append, mem_laneCells, mem_laneCells] at h2
      rw [mem_laneCells] at h1
      omega
  | succ n ih =>
    rw [scanFrom_even]
    refine nodup_append_of_disjoint (nodup_laneCells side upward (by omega)) (ih _) fun r c h1 h2 => ?_
    rw [mem_laneCells] at h1
    rw [mem_scanFrom] at h2
    omega

end

theorem scan_sideOf (v : Nat) :
    scan (sideOf v) = scanFrom (sideOf v) (2 * v + 5 + (2 * v + 9 + 3)) (2 * (2 * v + 5) + 6) true := by
  rw [scan, show sideOf v - 1 = 2 * (2 * v + 5) + 6 by rw [sideOf]; omega,
    show 2 * v + 5 + (2 * v + 9 + 3) = sideOf v by rw [sideOf]; omega]

/-- The scan of a grid meets every cell outside column 6, and it meets none twice. -/
theorem mem_scan {v r c : Nat} : (r, c) ∈ scan (sideOf v) ↔ (c ≠ 6 ∧ c < sideOf v) ∧ r < sideOf v := by
  rw [scan_sideOf, mem_scanFrom, show 2 * (2 * v + 5) + 7 = sideOf v by rw [sideOf]; omega]

theorem nodup_scan (v : Nat) : (scan (sideOf v)).Nodup := by
  rw [scan_sideOf]
  exact nodup_scanFrom _ _ _ _

/-! ## The lines -/

theorem nodup_lines (side : Nat) : (lines side).Nodup := List.nodup_range.filter _

theorem nodup_farLines (side : Nat) : (farLines side).Nodup := List.nodup_range'

theorem nodup_versionLines (v : Nat) : (versionLines v).Nodup := List.nodup_range'

theorem nodup_span (a : Nat) : (span a).Nodup := List.Pairwise.filter _ List.nodup_range'

theorem length_lines (n : Nat) : (lines (n + 7)).length = n + 6 := by
  induction n with
  | zero => rfl
  | succ n ih =>
    have hline : offTiming (n + 7) = true := decide_eq_true (by omega)
    rw [lines] at ih
    rw [lines, Nat.succ_add, List.range_succ, List.filter_append, List.length_append, ih, List.filter_cons_of_pos hline]
    exact Nat.add_right_comm n 6 1

/-- The number of lines of a span: the line of the timing pattern, if it is among them, does not count. -/
def spanSize (a : Nat) : Nat := if a = 6 then 4 else 5

theorem length_span {a : Nat} (h : a = 6 ∨ 18 ≤ a) : (span a).length = spanSize a := by
  obtain rfl | h := h
  · rfl
  · have hlines : ∀ i ∈ List.range' (a - 2) 5, offTiming i = true := by
      intro i hi
      have := List.mem_range'_1.1 hi
      exact decide_eq_true (by omega)
    rw [span, List.filter_eq_self.2 hlines, List.length_range', spanSize, if_neg (by omega)]

/-! ## The corners -/

theorem length_cornerCells (side : Nat) : (cornerCells side).length = 192 := by
  have hnear : nearLines.length = 8 := rfl
  have hfar : (farLines side).length = 8 := List.length_range'
  rw [cornerCells, List.length_append, List.length_append, length_rect, length_rect, length_rect, hnear, hfar]

theorem nodup_cornerCells {side : Nat} (hside : 21 ≤ side) : (cornerCells side).Nodup := by
  have hnear : nearLines.Nodup := nodup_lines 9
  have hfar := nodup_farLines side
  have hapart : ∀ {i : Nat}, i ∈ nearLines → i ∉ farLines side := by
    intro i h1 h2
    have := mem_lines.1 h1
    have := (mem_farLines hside).1 h2
    omega
  refine nodup_append_of_disjoint (nodup_rect hnear hnear)
    (nodup_append_of_disjoint (nodup_rect hnear hfar) (nodup_rect hfar hnear) fun r c h1 h2 => ?_) fun r c h1 h2 => ?_
  · exact hapart (mem_rect.1 h1).1 (mem_rect.1 h2).1
  · obtain h2 | h2 := List.mem_append.1 h2
    · exact hapart (mem_rect.1 h1).2 (mem_rect.1 h2).2
    · exact hapart (mem_rect.1 h1).1 (mem_rect.1 h2).1

/-! ## The version blocks -/

theorem length_versionCells (v : Nat) : (versionCells v).length = if 7 ≤ v then 36 else 0 := by
  have hlong : (versionLines v).length = 3 := List.length_range'
  rw [versionCells]
  split
  · rw [List.length_append, length_rect, length_rect, hlong, List.length_range]
  · rfl

theorem nodup_versionCells (v : Nat) : (versionCells v).Nodup := by
  have hlong := nodup_versionLines v
  rw [versionCells]
  split
  next hv =>
    have hside : 45 ≤ sideOf v := le_sideOf hv
    refine nodup_append_of_disjoint (nodup_rect hlong List.nodup_range) (nodup_rect List.nodup_range hlong)
      fun r c h1 h2 => ?_
    have := mem_versionLines.1 (mem_rect.1 h1).1
    have := List.mem_range.1 (mem_rect.1 h2).1
    omega
  · exact List.nodup_nil

/-! ## The alignment patterns -/

theorem not_mem_span_of_apart {a b i : Nat} (h : a + 12 ≤ b ∨ b + 12 ≤ a) (ha : i ∈ span a) : i ∉ span b := by
  intro hb
  have := mem_span.1 ha
  have := mem_span.1 hb
  omega

theorem length_alignmentCells {v : Nat} (hv : v < 41) : (alignmentCells v).length
    = ((alignmentCentres v).map fun p => spanSize p.1 * spanSize p.2).sum := by
  rw [alignmentCells, List.length_flatMap]
  refine congrArg List.sum (List.map_congr_left fun p hp => ?_)
  obtain ⟨hr, hc, -⟩ := mem_alignmentCentres.1 hp
  rw [length_rect, length_span (eq_first_or_le_of_mem_align v hv _ hr),
    length_span (eq_first_or_le_of_mem_align v hv _ hc)]

/-- Two alignment patterns have no cell in common: they differ in the row of their centres or in the column. -/
theorem nodup_alignmentCells {v : Nat} (hv : v < 41) : (alignmentCells v).Nodup := by
  refine List.pairwise_flatMap.2 ⟨fun p _ => nodup_rect (nodup_span _) (nodup_span _),
    (nodup_alignmentCentres hv).imp_of_mem fun {p q} hp hq hne => ?_⟩
  obtain ⟨hpr, hpc, -⟩ := mem_alignmentCentres.1 hp
  obtain ⟨hqr, hqc, -⟩ := mem_alignmentCentres.1 hq
  rintro ⟨r, c⟩ h1 _ h2 rfl
  obtain ⟨hr1, hc1⟩ := mem_rect.1 h1
  obtain ⟨hr2, hc2⟩ := mem_rect.1 h2
  obtain hr | hr := eq_or_apart_of_mem_align v hv _ hpr _ hqr
  · obtain hc | hc := eq_or_apart_of_mem_align v hv _ hpc _ hqc
    · exact hne (Prod.ext hr hc)
    · exact not_mem_span_of_apart hc hc1 hc2
  · exact not_mem_span_of_apart hr hr1 hr2

/-! ## The patterns have no cell in common -/

section
variable {v r c : Nat}

theorem not_mem_versionCells_of_corner (hv : 1 ≤ v) (h1 : (r, c) ∈ cornerCells (sideOf v)) :
    (r, c) ∉ versionCells v := by
  intro h2
  obtain ⟨-, hcorner⟩ := (mem_cornerCells (le_sideOf hv)).1 h1
  obtain ⟨hv7, hversion⟩ := mem_versionCells.1 h2
  have hside : 45 ≤ sideOf v := le_sideOf hv7
  obtain h | h | h := hcorner <;> omega

/-- R206 leaves out the patterns that would meet a corner. -/
theorem not_mem_alignmentCells_of_corner (hv : 1 ≤ v) (h1 : (r, c) ∈ cornerCells (sideOf v)) :
    (r, c) ∉ alignmentCells v := by
  intro h2
  have hside : 21 ≤ sideOf v := le_sideOf hv
  obtain ⟨-, hcorner⟩ := (mem_cornerCells hside).1 h1
  obtain ⟨p, hp, hr, hc⟩ := names_alignmentPatterns.1 (mem_alignmentCells.1 h2).2
  obtain ⟨-, -, hzone⟩ := mem_alignmentCentres.1 hp
  obtain h | h | h := hcorner
  · exact (meetsZone_eq_false_iff.1 hzone).1 (by omega)
  · exact (meetsZone_eq_false_iff.1 hzone).2.1 (by omega)
  · exact (meetsZone_eq_false_iff.1 hzone).2.2 (by omega)

/-- A pattern beside a version block would be one of those at a corner. -/
theorem not_mem_alignmentCells_of_version (hv : v < 41) (h1 : (r, c) ∈ versionCells v) : (r, c) ∉ alignmentCells v := by
  intro h2
  obtain ⟨hv7, hversion⟩ := mem_versionCells.1 h1
  obtain ⟨p, hp, hr, hc⟩ := names_alignmentPatterns.1 (mem_alignmentCells.1 h2).2
  obtain ⟨hpr, hpc, hzone⟩ := mem_alignmentCentres.1 hp
  have hrow := eq_last_or_le_of_mem_align v hv _ hpr
  have hcol := eq_last_or_le_of_mem_align v hv _ hpc
  rw [sideOf] at hversion hzone
  obtain h | h := hversion
  · exact (meetsZone_eq_false_iff.1 hzone).2.2 (by omega)
  · exact (meetsZone_eq_false_iff.1 hzone).2.1 (by omega)

end

theorem nodup_patternCells {v : Nat} (hv : 1 ≤ v) (hv' : v < 41) : (patternCells v).Nodup := by
  refine nodup_append_of_disjoint (nodup_cornerCells (le_sideOf hv))
    (nodup_append_of_disjoint (nodup_versionCells v) (nodup_alignmentCells hv')
      fun _ _ => not_mem_alignmentCells_of_version hv') fun r c h1 h2 => ?_
  obtain h2 | h2 := List.mem_append.1 h2
  · exact not_mem_versionCells_of_corner hv h1 h2
  · exact not_mem_alignmentCells_of_corner hv h1 h2

theorem length_patternCells {v : Nat} (hv : v < 41) : (patternCells v).length
    = 192 + ((if 7 ≤ v then 36 else 0) + ((alignmentCentres v).map fun p => spanSize p.1 * spanSize p.2).sum) := by
  rw [patternCells, List.length_append, List.length_append, length_cornerCells, length_versionCells,
    length_alignmentCells hv]

theorem lines_of_mem_patternCells {v r c : Nat} (hv : 1 ≤ v) (hv' : v < 41) (h : (r, c) ∈ patternCells v) :
    (r, c) ∈ rect (lines (sideOf v)) (lines (sideOf v)) := by
  have hside : 21 ≤ sideOf v := le_sideOf hv
  have hbounds : (r ≠ 6 ∧ c ≠ 6) ∧ r < sideOf v ∧ c < sideOf v := by
    rw [patternCells, List.mem_append, List.mem_append] at h
    obtain h | h | h := h
    · obtain ⟨h6, hcorner⟩ := (mem_cornerCells hside).1 h
      exact ⟨h6, lt_of_inCorner hside hcorner⟩
    · obtain ⟨hv7, hversion⟩ := mem_versionCells.1 h
      have hside7 : 45 ≤ sideOf v := le_sideOf hv7
      omega
    · obtain ⟨h6, hnames⟩ := mem_alignmentCells.1 h
      exact ⟨h6, lt_sideOf_of_names_alignmentPatterns hv' hnames⟩
  obtain ⟨⟨hr6, hc6⟩, hr, hc⟩ := hbounds
  exact mem_rect.2 ⟨mem_lines.2 ⟨hr6, hr⟩, mem_lines.2 ⟨hc6, hc⟩⟩

/-! ## The data cells -/

theorem mem_dataOrder_functionGrid {v r c : Nat} (hv : 1 ≤ v) (hv' : v ≤ 40) (l : Level) (m : Nat) :
    (r, c) ∈ dataOrder (functionGrid v l m)
      ↔ (r, c) ∈ rect (lines (sideOf v)) (lines (sideOf v)) ∧ (r, c) ∉ patternCells v := by
  rw [mem_dataOrder, functionGrid_side, mem_scan, mem_rect, mem_lines, mem_lines]
  constructor
  · rintro ⟨⟨⟨-, hc⟩, hr⟩, hunset⟩
    obtain ⟨⟨hr6, hc6⟩, hmem⟩ := (get_functionGrid_eq_unset_iff hv hv' l m hr hc).1 hunset
    exact ⟨⟨⟨hr6, hr⟩, hc6, hc⟩, hmem⟩
  · rintro ⟨⟨⟨hr6, hr⟩, hc6, hc⟩, hmem⟩
    exact ⟨⟨⟨hc6, hc⟩, hr⟩, (get_functionGrid_eq_unset_iff hv hv' l m hr hc).2 ⟨⟨hr6, hc6⟩, hmem⟩⟩

theorem nodup_dataOrder_functionGrid (v : Nat) (l : Level) (m : Nat) : (dataOrder (functionGrid v l m)).Nodup := by
  rw [dataOrder, functionGrid_side]
  exact (nodup_scan v).filter _

theorem length_dataOrder_add {v : Nat} (hv : 1 ≤ v) (hv' : v ≤ 40) (l : Level) (m : Nat) :
    (dataOrder (functionGrid v l m)).length + (patternCells v).length = (sideOf v - 1) * (sideOf v - 1) := by
  have hlt : v < 41 := Nat.lt_succ_of_le hv'
  have hlines : (lines (sideOf v)).length = sideOf v - 1 := length_lines (4 * v + 10)
  have hcells : (dataOrder (functionGrid v l m) ++ patternCells v).Nodup :=
    nodup_append_of_disjoint (nodup_dataOrder_functionGrid v l m) (nodup_patternCells hv hlt)
      fun r c h => ((mem_dataOrder_functionGrid hv hv' l m).1 h).2
  rw [← List.length_append, ← hlines, ← length_rect]
  refine length_eq_of_mem_iff hcells (nodup_rect (nodup_lines _) (nodup_lines _)) fun r c => ?_
  rw [List.mem_append, mem_dataOrder_functionGrid hv hv']
  constructor
  · rintro (h | h)
    · exact h.1
    · exact lines_of_mem_patternCells hv hlt h
  · intro h
    by_cases hp : (r, c) ∈ patternCells v
    · exact .inr hp
    · exact .inl ⟨h, hp⟩

/-- R225's formula counts the cells of the lines less those of the patterns, version by version of R207. -/
theorem rawCells_add : ∀ v < 41, 1 ≤ v → rawCells v + (192 + ((if 7 ≤ v then 36 else 0)
    + ((alignmentCentres v).map fun p => spanSize p.1 * spanSize p.2).sum)) = (sideOf v - 1) * (sideOf v - 1) := by
  decide

/-- The values of R226. -/
theorem remainderBits_eq : ∀ v < 41, 1 ≤ v → remainderBits v =
    if v = 1 then 0 else if v ≤ 6 then 7 else if v ≤ 13 then 0 else if v ≤ 20 then 3 else if v ≤ 27 then 4
    else if v ≤ 34 then 3 else 0 := by decide

theorem length_dataOrder_eq_rawCells {v : Nat} (hv : 1 ≤ v) (hv' : v ≤ 40) (l : Level) (m : Nat) :
    (dataOrder (functionGrid v l m)).length = rawCells v := by
  have hlt : v < 41 := Nat.lt_succ_of_le hv'
  have hraw := rawCells_add v hlt hv
  rw [← length_patternCells hlt] at hraw
  exact Nat.add_right_cancel ((length_dataOrder_add hv hv' l m).trans hraw.symm)

/-- Settles O55: the scan meets every cell outside column 6 once, and the disjoint patterns leave RAW of them unset. -/
theorem remainderBitsOfEveryVersion : Obligations.RemainderBitsOfEveryVersion :=
  fun v hv hv' => ⟨fun l m _ => length_dataOrder_eq_rawCells hv hv' l m, (Nat.div_add_mod _ _).symm, rfl,
    remainderBits_eq v (Nat.lt_succ_of_le hv') hv⟩

end Sys2Proof.Proofs.DataCells
end

