-- ==== Sys2Proof/Proofs/Exceptions.lean ====
section
/-! SUPPORT. Dropped commands and the interrupt output (60_exceptions R270, R275): what a host write to a register does
to STATUS, and which updates reach CMD_OVR and `irq`. -/

namespace Sys2Proof.Proofs.Exceptions

open Sys2Proof Sys2Proof.Machine

/-! ## Register writes at their addresses (10_state R22) -/

/-- A full-width write at a register's address is a write of that register. -/
theorem memWrite_addr {s : State} (hr : s.rst = false) (r : Register) (w : Word) :
    s.memWrite r.addr .four w = s.writeRegister w r := by
  unfold State.memWrite
  rw [hr]
  cases r <;> rfl

theorem offset_of_registerAt {k : Nat} {r : Register} (h : registerAt k = some r) : r.offset = k := by
  unfold registerAt at h
  split at h <;> cases h <;> rfl

theorem addr_of_registerAt {a : Addr} {r : Register} (h : registerAt a.toNat = some r) : a = r.addr := by
  rw [Register.addr, offset_of_registerAt h, BitVec.ofNat_toNat, BitVec.setWidth_eq]

/-- A host write keeps STATUS, or it is a full-width write at the address of a register. `memWrite_cases` does not say
which address, and R270 does. -/
theorem memWrite_status_cases {a : Addr} {n : AccessSize} {w : Word} {s t : State} (h : s.memWrite a n w = .next t) :
    t.status = s.status ∨ (n = .four ∧ ∃ r : Register, a = r.addr ∧ s.writeRegister w r = .next t) := by
  unfold State.memWrite at h
  split at h
  · cases h; exact .inl rfl
  · split at h
    · split at h
      · next r hreg => exact .inr ⟨rfl, r, addr_of_registerAt hreg, h⟩
      · cases h; exact .inl rfl
    · split at h
      · cases h; exact .inl rfl
      · dsimp only at h
        split at h
        · cases h
        · cases h; exact .inl rfl

theorem writeRegister_cmd_of_busy {s : State} (hb : s.status.busy = true) (w : Word) :
    s.writeRegister w .cmd = .next (s.setStatus s.status.overrun) := by
  rw [State.writeRegister, hb, if_pos rfl]

theorem writeRegister_cmd_of_idle {s : State} (hb : s.status.busy = false) (w : Word) :
    s.writeRegister w .cmd = .next (s.acceptCommand w) := by
  rw [State.writeRegister, hb, if_neg Bool.false_ne_true]

theorem writeRegister_status (s : State) (w : Word) :
    s.writeRegister w .status = .next (s.setStatus (s.status.clear w)) := rfl

/-- CMD and STATUS are the only registers whose writes change STATUS. -/
theorem writeRegister_keeps_status {w : Word} {s t : State} {r : Register} (hcmd : r ≠ .cmd) (hstatus : r ≠ .status)
    (h : s.writeRegister w r = .next t) : t.status = s.status := by
  cases r with
  | cmd => exact absurd rfl hcmd
  | status => exact absurd rfl hstatus
  | dataLen | streamLen =>
    rw [State.writeRegister] at h
    split at h <;> cases h
    rfl
  | result | ctrl | outLen | gridSide => cases h; rfl

/-! ## CMD_OVR (R270) -/

/-- A register write clears CMD_OVR only as an acceptance or as a STATUS write of 1 in bit 5. -/
theorem writeRegister_clears_cmdOvr {w : Word} {s t : State} {r : Register} (h : s.writeRegister w r = .next t)
    (hs : s.status.cmdOvr = true) (ht : t.status.cmdOvr = false) :
    (r = .cmd ∧ s.status.busy = false) ∨ (r = .status ∧ w.getLsbD 5 = true) := by
  by_cases hcmd : r = .cmd
  · subst hcmd
    refine .inl ⟨rfl, Bool.eq_false_iff.2 fun hb => ?_⟩
    rw [writeRegister_cmd_of_busy hb] at h
    cases h
    cases ht
  by_cases hstatus : r = .status
  · subst hstatus
    cases h
    exact .inr ⟨rfl, by simpa [hs] using ht⟩
  · rw [writeRegister_keeps_status hcmd hstatus h, hs] at ht
    cases ht

theorem memWrite_clears_cmdOvr {a : Addr} {n : AccessSize} {w : Word} {s t : State} (h : s.memWrite a n w = .next t)
    (hs : s.status.cmdOvr = true) (ht : t.status.cmdOvr = false) :
    n = .four ∧ ((a = 0x000 ∧ s.status.busy = false) ∨ (a = 0x004 ∧ w.getLsbD 5 = true)) := by
  obtain hkeep | ⟨hn, r, ha, hw⟩ := memWrite_status_cases h
  · rw [hkeep, hs] at ht
    cases ht
  · obtain ⟨rfl, hb⟩ | ⟨rfl, hbit⟩ := writeRegister_clears_cmdOvr hw hs ht
    · exact ⟨hn, .inl ⟨ha, hb⟩⟩
    · exact ⟨hn, .inr ⟨ha, hbit⟩⟩

theorem memRead_keeps_status (s : State) (a : Addr) (n : AccessSize) : (s.memRead a n).2.status = s.status := by
  rw [memRead_snd]

/-- Neither completion of R262 reaches CMD_OVR, and no command writes it before its completion. -/
theorem exec_keeps_cmdOvr {i : Instr} {s t : State} (h : exec i s = .next t) :
    t.status.cmdOvr = s.status.cmdOvr := by
  cases i with
  | gfInit => cases h; rfl
  | initTables => cases h; rfl
  | genInit => obtain ⟨-, rfl⟩ | ⟨-, rfl⟩ := execGenInit_cases h <;> rfl
  | gfMul a b => obtain ⟨c, -, -, rfl⟩ | ⟨v, rfl⟩ := execGfMul_cases h <;> rfl
  | gfExp e => obtain ⟨c, -, -, rfl⟩ | ⟨v, rfl⟩ := execGfExp_cases h <;> rfl
  | gfLog v => obtain ⟨c, -, -, rfl⟩ | ⟨v, rfl⟩ := execGfLog_cases h <;> rfl
  | genGet d => obtain ⟨c, -, -, rfl⟩ | ⟨-, rfl⟩ := execGenGet_cases h <;> rfl
  | polyDiv aDeg bDeg aShift => obtain ⟨c, -, -, rfl⟩ | ⟨-, vs, -, rfl⟩ := execPolyDiv_cases h <;> rfl
  | eccEncode msgLen eccCount => obtain ⟨c, -, -, rfl⟩ | ⟨-, vs, -, rfl⟩ := execEccEncode_cases h <;> rfl
  | interleave v l => obtain ⟨c, -, -, rfl⟩ | ⟨-, data, -, rfl⟩ := execInterleave_cases h <;> rfl
  | buildMatrix v l m => obtain ⟨c, -, -, rfl⟩ | ⟨-, stream, -, rfl⟩ := execBuildMatrix_cases h <;> rfl

/-- Settles O12: a register write does to CMD_OVR what its own rule says, every other access keeps STATUS, and a command
changes STATUS by a completion and the valid bits only. -/
theorem cmdOvrIsStickyUntilClearedOrAccepted : Obligations.CmdOvrIsStickyUntilClearedOrAccepted := by
  refine ⟨fun s w hr hb => ?_, fun s w hr hb => ?_, fun s w hr => ?_, fun s t a n w h hs ht => ?_, memRead_keeps_status,
    fun i s t h => exec_keeps_cmdOvr h⟩
  · exact ⟨_, (memWrite_addr hr .cmd w).trans (writeRegister_cmd_of_busy hb w), rfl, rfl, rfl, rfl, rfl, rfl⟩
  · exact ⟨_, (memWrite_addr hr .cmd w).trans (writeRegister_cmd_of_idle hb w), rfl⟩
  · exact ⟨_, (memWrite_addr hr .status w).trans (writeRegister_status s w), rfl⟩
  · exact memWrite_clears_cmdOvr h hs ht

/-! ## The interrupt output (R275) -/

theorem irq_eq_true_iff (s : State) :
    s.irq = true ↔ s.irqEn = true ∧ (s.status.done = true ∨ s.status.err = true) := by
  simp [State.irq]

theorem irq_eq_false_of_no_completion {s : State} (hd : s.status.done = false) (he : s.status.err = false) :
    s.irq = false := by
  simp [State.irq, hd, he]

/-- With a completion recorded the line follows IRQ_EN. -/
theorem irq_eq_irqEn {s : State} (h : s.status.done = true ∨ s.status.err = true) : s.irq = s.irqEn := by
  rw [State.irq, Bool.or_eq_true_iff.2 h, Bool.and_true]

theorem irq_clear_eq_false {w : Word} (h1 : w.getLsbD 1 = true) (h2 : w.getLsbD 2 = true) (s : State) :
    (s.setStatus (s.status.clear w)).irq = false :=
  irq_eq_false_of_no_completion (by simp [h1]) (by simp [h2])

/-- Settles O16: the line is low where neither DONE nor ERR is 1, which a clear of both, an acceptance and BUSY give, and
where one of them is 1 it is IRQ_EN. -/
theorem irqIsEnabledCompletion : Obligations.IrqIsEnabledCompletion := by
  intro s
  refine ⟨irq_eq_true_iff s, fun hok hb => ?_, fun hr w => ⟨fun h1 h2 => ?_, fun hb => ?_, fun h => ?_⟩⟩
  · obtain ⟨hdone, herr, -⟩ := hok.busyQuiet hb
    exact irq_eq_false_of_no_completion hdone herr
  · exact ⟨_, (memWrite_addr hr .status w).trans (writeRegister_status s w), irq_clear_eq_false h1 h2 s⟩
  · exact ⟨_, (memWrite_addr hr .cmd w).trans (writeRegister_cmd_of_idle hb w), irq_eq_false_of_no_completion rfl rfl⟩
  · exact ⟨_, memWrite_addr hr .ctrl w, irq_eq_irqEn (s := { s with irqEn := w.getLsbD 0 }) h, rfl, rfl⟩

end Sys2Proof.Proofs.Exceptions
end

