-- ==== Sys2Proof/Proofs/Commands.lean ====
section
/-! SUPPORT. What any command can do (60_exceptions R260–R263): its checks fail and it makes the error completion of the
first one, or an operand byte holds no value and it faults, or it completes in one of the eleven ways of `Completes`. -/

namespace Sys2Proof.Proofs.Commands

open Sys2Proof Sys2Proof.Machine Sys2Proof.Proofs.Interleaver Sys2Proof.Proofs.BuildMatrix

/-! ## The completions -/

/-- The eleven ways to complete: what each command writes, and its OUT_LEN. -/
inductive Completes : Instr → State → State → Prop where
  | gfInit (s : State) : Completes .gfInit s ((s.installGf (gfBuild s.gf)).complete 0)
  | genInit (s : State) : Completes .genInit s ((s.installGen (genBuild s.gf)).complete 0)
  | initTables (s : State) :
    Completes .initTables s (((s.installGf (gfBuild s.gf)).installGen (genBuild (gfBuild s.gf))).complete 0)
  | gfMul (a b : Nat) (s : State) (r : Byte) : Completes (.gfMul a b) s ((s.setResult r).complete 0)
  | gfExp (e : Nat) (s : State) (r : Byte) : Completes (.gfExp e) s ((s.setResult r).complete 0)
  | gfLog (v : Nat) (s : State) (r : Byte) : Completes (.gfLog v) s ((s.setResult r).complete 0)
  | genGet (d : Nat) (s : State) :
    Completes (.genGet d) s ((s.writeBuffer .bufOut (genRow s.gen d)).complete (d + 1))
  | polyDiv (aDeg bDeg aShift : Nat) (s : State) (vs : List Byte) (hlen : vs.length = bDeg) :
    Completes (.polyDiv aDeg bDeg aShift) s (((s.writeBuffer .bufOut vs).releaseWork).complete bDeg)
  | eccEncode (msgLen eccCount : Nat) (s : State) (vs : List Byte) (hlen : vs.length = eccCount) :
    Completes (.eccEncode msgLen eccCount) s (((s.writeBuffer .bufOut vs).releaseWork).complete eccCount)
  | interleave (v : Nat) (l : Level) (s : State) (data : List Byte) :
    Completes (.interleave v l) s
      ((((s.writeBuffer .stream (interleave s.gf s.gen (blockSpec v l) data)).releaseWork).setStreamLen
        (interleave s.gf s.gen (blockSpec v l) data).length).complete
        (interleave s.gf s.gen (blockSpec v l) data).length)
  | buildMatrix (v : Nat) (l : Level) (m : Nat) (s : State) (stream : List Byte) :
    Completes (.buildMatrix v l m) s
      (((s.writeGrid (buildGrid v l m stream)).setGridSide (sideOf v)).complete (sideOf v * sideOf v))

/-! ## Checks and bodies -/

/-- A command's checks, in order; `exec_eq` says that they are the machine's. -/
def checks : Instr → State → List (Bool × ErrCode)
  | .gfInit, _ => []
  | .initTables, _ => []
  | .genInit, s => [s.needsGf]
  | .gfMul _ _, s => [s.needsGf]
  | .gfExp e, s => [s.needsGf, (decide (254 < e), .outOfBounds)]
  | .gfLog v, s => [s.needsGf, (decide (elementOperand v = 0), .logOfZero)]
  | .genGet d, s => [s.needsGen, (badDegree d, .unsupportedDegree)]
  | .polyDiv aDeg bDeg aShift, s =>
    [s.needsGf, (badDegree bDeg, .unsupportedDegree), (decide (workMax < aDeg + 1 + aShift), .outOfBounds)]
  | .eccEncode msgLen eccCount, s =>
    [s.needsGen, (badDegree eccCount, .unsupportedDegree), (decide (msgLen = 0), .lengthMismatch),
      (decide (workMax < msgLen + eccCount), .outOfBounds)]
  | .interleave v l, s =>
    [s.needsGen, (badVersion v, .unsupportedDegree),
      (decide (s.dataLength ≠ (blockSpec v l).capacity), .lengthMismatch)]
  | .buildMatrix v _ _, s =>
    [(badVersion v, .unsupportedDegree), (decide (totalCodewords v < s.streamLength), .outOfBounds),
      (decide (s.streamLength < totalCodewords v), .lengthMismatch)]

/-- What a command does when no check fails; `exec_eq` says that it is the machine's. -/
def body : Instr → State → Host.Outcome State Fault Refusal
  | .gfInit, s => .next (s.buildGf.complete 0)
  | .genInit, s => .next (s.buildGen.complete 0)
  | .initTables, s => .next (s.buildGf.buildGen.complete 0)
  | .gfMul a b, s => .next ((s.setResult (s.gf.mul (elementOperand a) (elementOperand b))).complete 0)
  | .gfExp e, s => .next ((s.setResult (s.gf.expAt e)).complete 0)
  | .gfLog v, s => .next ((s.setResult (s.gf.logAt (elementOperand v))).complete 0)
  | .genGet d, s => .next ((s.writeBuffer .bufOut (genRow s.gen d)).complete (d + 1))
  | .polyDiv aDeg bDeg aShift, s =>
    s.withOperand .bufA (aDeg + 1) fun a => s.withOperand .bufB (bDeg + 1) fun e =>
      .next (((s.writeBuffer .bufOut (divRem s.gf a aShift e)).releaseWork).complete bDeg)
  | .eccEncode msgLen eccCount, s =>
    s.withOperand .bufA msgLen fun m =>
      .next (((s.writeBuffer .bufOut (eccOf s.gf s.gen m eccCount)).releaseWork).complete eccCount)
  | .interleave v l, s =>
    s.withOperand .data s.dataLength fun data =>
      .next ((((s.writeBuffer .stream (interleave s.gf s.gen (blockSpec v l) data)).releaseWork).setStreamLen
        (interleave s.gf s.gen (blockSpec v l) data).length).complete
        (interleave s.gf s.gen (blockSpec v l) data).length)
  | .buildMatrix v l m, s =>
    s.withOperand .stream s.streamLength fun stream =>
      .next (((s.writeGrid (buildGrid v l m stream)).setGridSide (sideOf v)).complete (sideOf v * sideOf v))

theorem exec_eq (i : Instr) (s : State) : exec i s = checked (checks i s) s (body i s) := by cases i <;> rfl

theorem needsGf_fails (s : State) : s.needsGf.1 = true ↔ s.status.gfValid = false := by simp [State.needsGf]

theorem needsGen_fails (s : State) : s.needsGen.1 = true ↔ s.status.genValid = false := by simp [State.needsGen]

theorem badDegree_iff {d : Nat} : badDegree d = true ↔ d = 0 ∨ 68 < d := by
  rw [badDegree, Bool.or_eq_true, decide_eq_true_eq, decide_eq_true_eq, Nat.lt_one_iff]
  rfl

theorem badVersion_iff {v : Nat} : badVersion v = true ↔ v = 0 ∨ 40 < v := by
  rw [badVersion, Bool.or_eq_true, decide_eq_true_eq, decide_eq_true_eq, Nat.lt_one_iff]
  rfl

theorem workMax_lt_iff {n : Nat} : workMax < n ↔ 191 < n := Iff.rfl

theorem elementOperand_eq_zero_iff {v : Nat} (hv : v < 256) : elementOperand v = 0#8 ↔ v = 0 := by
  rw [← BitVec.toNat_inj, BitVec.toNat_ofNat, Nat.mod_eq_of_lt hv]
  rfl

/-- The machine's checks are the causes of R261 in the order of R263. -/
theorem firstError_checks {i : Instr} (hi : i.wf = true) (s : State) : firstError (checks i s) = specError s i := by
  cases i with
  | gfExp e =>
    have he : 254 < e ↔ e = 255 := by
      simp only [Instr.wf, fitsByteField, decide_eq_true_eq] at hi
      omega
    simp [checks, specError, State.needsGf, he]
  | gfLog v =>
    simp only [Instr.wf, fitsByteField, decide_eq_true_eq] at hi
    simp [checks, specError, State.needsGf, elementOperand_eq_zero_iff hi]
  | gfInit | initTables => rfl
  | genInit | gfMul | genGet | polyDiv | eccEncode | interleave | buildMatrix =>
    simp [checks, specError, State.needsGf, State.needsGen, badDegree_iff, badVersion_iff, workMax_lt_iff]

theorem errorCompletion_eq (s : State) (c : ErrCode) : errorCompletion s c = s.raiseErr c := rfl

theorem successStatus_eq (st : Status) : successStatus st = st.succeed := rfl

/-- Settles O22: the machine's checks are those of R261, and the first that fails ends the command. -/
theorem failingCommandsOnlyReportTheirFirstError : Obligations.FailingCommandsOnlyReportTheirFirstError := by
  intro i s c hi hc
  rw [exec_eq, checked_of_error ((firstError_checks hi s).trans hc), errorCompletion_eq]

theorem exec_eq_body {i : Instr} {s : State} (h : firstError (checks i s) = none) : exec i s = body i s := by
  rw [exec_eq, checked_of_none h]

theorem exec_of_no_error {i : Instr} {s : State} (hi : i.wf = true) (h : specError s i = none) :
    exec i s = body i s := exec_eq_body ((firstError_checks hi s).trans h)

/-! ## Operands -/

theorem isSome_iff_exists_readBlock {m : Memory} {base n : Nat} :
    (∀ k < n, (m.read (base + k)).isSome) ↔ ∃ vs, m.readBlock base n = some vs := by
  refine ⟨exists_readBlock_eq_some, fun ⟨vs, hvs⟩ k hk => ?_⟩
  rw [((Memory.readBlock_eq_some_iff _ _ _ _).1 hvs).2 k hk]
  rfl

theorem forall_operand_cons {s : State} {b : Buffer} {n : Nat} {ps : List (Buffer × Nat)} :
    (∀ p ∈ (b, n) :: ps, ∀ k < p.2, (s.mem.read (p.1.base + k)).isSome)
      ↔ (∃ vs, s.mem.readBlock b.base n = some vs) ∧ ∀ p ∈ ps, ∀ k < p.2, (s.mem.read (p.1.base + k)).isSome := by
  rw [List.forall_mem_cons, isSome_iff_exists_readBlock]

/-- The outcome is a next state when P holds, and the fault of an unwritten operand when it does not. -/
def NextIf (P : Prop) (o : Host.Outcome State Fault Refusal) : Prop :=
  (P → ∃ t, o = .next t) ∧ (¬ P → o = .fault .unwrittenOperand)

theorem nextIf_next {P : Prop} (hP : P) (t : State) : NextIf P (.next t) := ⟨fun _ => ⟨t, rfl⟩, fun h => absurd hP h⟩

theorem nextIf_withOperand {P : Prop} {b : Buffer} {n : Nat} {s : State}
    {f : List Byte → Host.Outcome State Fault Refusal} (hf : ∀ vs, NextIf P (f vs)) :
    NextIf ((∃ vs, s.mem.readBlock b.base n = some vs) ∧ P) (s.withOperand b n f) := by
  cases h : s.mem.readBlock b.base n with
  | none =>
    rw [withOperand_of_unwritten h]
    exact ⟨fun ⟨⟨_, hvs⟩, _⟩ => (nomatch hvs), fun _ => rfl⟩
  | some vs =>
    rw [withOperand_of_written h]
    exact ⟨fun ⟨_, hP⟩ => (hf vs).1 hP, fun hP => (hf vs).2 fun hP' => hP ⟨⟨vs, rfl⟩, hP'⟩⟩

/-- A command that passes its checks depends on its operand bytes holding values, and on nothing else (R70). -/
theorem nextIf_body (i : Instr) (s : State) : NextIf (OperandsWritten i s) (body i s) := by
  unfold OperandsWritten
  cases i with
  | gfInit | genInit | initTables | gfMul | gfExp | gfLog | genGet => exact nextIf_next (List.forall_mem_nil _) _
  | eccEncode | interleave | buildMatrix =>
    rw [operandBytes, forall_operand_cons]
    exact nextIf_withOperand fun _ => nextIf_next (List.forall_mem_nil _) _
  | polyDiv =>
    rw [operandBytes, forall_operand_cons, forall_operand_cons]
    exact nextIf_withOperand fun _ => nextIf_withOperand fun _ => nextIf_next (List.forall_mem_nil _) _

/-- Settles O24: without an error only the operand reads can fault, and they do so on a byte without a value. -/
theorem unwrittenOperandsFault : Obligations.UnwrittenOperandsFault := by
  intro i s hi hnone
  rw [exec_of_no_error hi hnone]
  refine ⟨fun hfault hwritten => ?_, (nextIf_body i s).2⟩
  obtain ⟨t, ht⟩ := (nextIf_body i s).1 hwritten
  rw [ht] at hfault
  cases hfault

/-! ## What a command can do -/

theorem completes_of_body {i : Instr} {s t : State} (h : body i s = .next t) : Completes i s t := by
  cases i with
  | gfInit => cases h; exact .gfInit s
  | genInit => cases h; exact .genInit s
  | initTables => cases h; exact .initTables s
  | gfMul a b => cases h; exact .gfMul a b s _
  | gfExp e => cases h; exact .gfExp e s _
  | gfLog v => cases h; exact .gfLog v s _
  | genGet d => cases h; exact .genGet d s
  | polyDiv aDeg bDeg aShift =>
    obtain ⟨a, -, h⟩ := withOperand_cases h
    obtain ⟨e, he, h⟩ := withOperand_cases h
    cases h
    have hlen := ((Memory.readBlock_eq_some_iff _ _ _ _).1 he).1
    exact .polyDiv aDeg bDeg aShift s _ (by simp [hlen])
  | eccEncode msgLen eccCount =>
    obtain ⟨m, -, h⟩ := withOperand_cases h
    cases h
    exact .eccEncode msgLen eccCount s _ (eccOf_length _ _ _ _)
  | interleave v l =>
    obtain ⟨data, -, h⟩ := withOperand_cases h
    cases h
    exact .interleave v l s data
  | buildMatrix v l m =>
    obtain ⟨stream, -, h⟩ := withOperand_cases h
    cases h
    exact .buildMatrix v l m s stream

/-- What a command can do when it does not fault (R262). -/
theorem exec_cases {i : Instr} {s t : State} (h : exec i s = .next t) :
    (∃ c, firstError (checks i s) = some c ∧ t = s.raiseErr c)
      ∨ (firstError (checks i s) = none ∧ Completes i s t) := by
  rw [exec_eq] at h
  exact (checked_cases h).imp_right fun ⟨hnone, hbody⟩ => ⟨hnone, completes_of_body hbody⟩

/-! ## What a completion leaves alone -/

/-- The host's registers and the model's host-side fields are the same. -/
structure SameHostSide (s t : State) : Prop where
  lastOp : t.status.lastOp = s.status.lastOp
  cmdOvr : t.status.cmdOvr = s.status.cmdOvr
  cmd : t.cmd = s.cmd
  pend : t.pend = s.pend
  irqEn : t.irqEn = s.irqEn
  dataLen : t.dataLen = s.dataLen
  rst : t.rst = s.rst
  inputs : t.inputs = s.inputs
  engineDelay : t.engineDelay = s.engineDelay
  lastRead : t.lastRead = s.lastRead

theorem sameHostSide_raiseErr (c : ErrCode) (s : State) : SameHostSide s (s.raiseErr c) := by constructor <;> rfl

section
variable {i : Instr} {s t : State} (h : Completes i s t)
include h

theorem Completes.sameHostSide : SameHostSide s t := by cases h <;> constructor <;> rfl

theorem Completes.status_eq : t.status = Status.succeed { s.status with
    gfValid := s.status.gfValid || decide (i = .gfInit ∨ i = .initTables)
    genValid := s.status.genValid || decide (i = .genInit ∨ i = .initTables) } := by
  cases h <;> simp [Status.succeed, State.installGf, State.installGen]

end

theorem exec_sameHostSide {i : Instr} {s t : State} (h : exec i s = .next t) : SameHostSide s t := by
  obtain ⟨c, -, rfl⟩ | ⟨-, hc⟩ := exec_cases h
  · exact sameHostSide_raiseErr c s
  · exact hc.sameHostSide

/-- Settles O25: both completions of R262 end with BUSY = 0, and no command writes a register of the host. -/
theorem engineStepsLeaveTheHostsRegistersAlone : Obligations.EngineStepsLeaveTheHostsRegistersAlone := by
  intro i s t h
  obtain ⟨hlastOp, hcmdOvr, hcmd, hpend, hirqEn, hdataLen, hrst, hinputs, hdelay, hread⟩ := exec_sameHostSide h
  have hstatus : t.status.busy = false ∧ t.status.done = !t.status.err := by
    obtain ⟨c, -, rfl⟩ | ⟨-, hc⟩ := exec_cases h
    · exact ⟨rfl, rfl⟩
    · rw [hc.status_eq]
      exact ⟨rfl, rfl⟩
  exact ⟨hstatus.1, hstatus.2, hlastOp, hcmdOvr, hcmd, hpend, hirqEn, hdataLen, hrst, hinputs, hdelay, hread⟩

/-! ## Lengths and ranges of what a completion writes -/

theorem totalCodewords_le : ∀ v < 41, totalCodewords v ≤ 3706 := by decide

/-- The stream has TOTAL_CW bytes, by laws 2 and 3 of the geometry (R172, R174). -/
theorem interleave_length_eq {v : Nat} (hv : 1 ≤ v) (hv' : v ≤ 40) (l : Level) (t : GfTables) (g : GenTable)
    (data : List Byte) : (interleave t g (blockSpec v l) data).length = totalCodewords v := by
  obtain ⟨hg2, htotal, -⟩ := lawfulGeometry_blockSpec l v (Nat.lt_succ_of_le hv') hv
  rw [interleave_length, ← htotal]
  generalize blockSpec v l = b at hg2
  obtain hzero | hpos := Nat.eq_zero_or_pos b.g2b
  · simp only [hzero, Nat.mul_add, Nat.add_zero, Nat.zero_add, Nat.zero_mul]
    ac_rfl
  · simp only [hg2 hpos, Nat.mul_add, Nat.mul_one]
    ac_rfl

theorem degree_of_badDegree_eq_false {d : Nat} (h : badDegree d = false) : 1 ≤ d ∧ d ≤ 68 := by
  have hnot := mt badDegree_iff.2 (Bool.eq_false_iff.1 h)
  omega

theorem version_of_badVersion_eq_false {v : Nat} (h : badVersion v = false) : 1 ≤ v ∧ v ≤ 40 := by
  have hnot := mt badVersion_iff.2 (Bool.eq_false_iff.1 h)
  omega

section
variable {s : State} (v : Nat) (l : Level) (m : Nat)

theorem version_of_interleave (h : firstError (checks (.interleave v l) s) = none) : 1 ≤ v ∧ v ≤ 40 :=
  version_of_badVersion_eq_false (firstError_eq_none h (badVersion v, .unsupportedDegree) (by simp [checks]))

theorem version_of_buildMatrix (h : firstError (checks (.buildMatrix v l m) s) = none) : 1 ≤ v ∧ v ≤ 40 :=
  version_of_badVersion_eq_false (firstError_eq_none h (badVersion v, .unsupportedDegree) (by simp [checks]))

end

theorem cells_le_grid {v : Nat} (hv : v ≤ 40) : sideOf v * sideOf v ≤ Buffer.grid.size :=
  Nat.mul_le_mul (show 4 * v + 17 ≤ 177 by omega) (show 4 * v + 17 ≤ 177 by omega)

/-- The bytes of R62's "writes" set lie inside their buffer, when the command's checks pass. -/
theorem resultBytes_fit {i : Instr} {s : State} (h : firstError (checks i s) = none) :
    ∀ p ∈ resultBytes i, p.2 ≤ p.1.size := by
  cases i with
  | gfInit | genInit | initTables | gfMul | gfExp | gfLog => exact List.forall_mem_nil _
  | genGet d =>
    have hd := firstError_eq_none h (badDegree d, .unsupportedDegree) (by simp [checks])
    obtain ⟨-, hd⟩ := degree_of_badDegree_eq_false hd
    exact List.forall_mem_singleton.2 (show d + 1 ≤ 256 by omega)
  | polyDiv aDeg d aShift =>
    have hd := firstError_eq_none h (badDegree d, .unsupportedDegree) (by simp [checks])
    obtain ⟨-, hd⟩ := degree_of_badDegree_eq_false hd
    exact List.forall_mem_singleton.2 (show d ≤ 256 by omega)
  | eccEncode msgLen d =>
    have hd := firstError_eq_none h (badDegree d, .unsupportedDegree) (by simp [checks])
    obtain ⟨-, hd⟩ := degree_of_badDegree_eq_false hd
    exact List.forall_mem_singleton.2 (show d ≤ 256 by omega)
  | interleave v l =>
    obtain ⟨-, hv⟩ := version_of_interleave v l h
    have hle := totalCodewords_le v (Nat.lt_succ_of_le hv)
    exact List.forall_mem_singleton.2 (show totalCodewords v ≤ 4096 by omega)
  | buildMatrix v l m => exact List.forall_mem_singleton.2 (Nat.le_refl _)

theorem bufferSize_lt (b : Buffer) : b.size < 2 ^ 16 := by cases b <;> decide

/-- OUT_LEN fits its 16 bits (R29). -/
theorem outputLength_lt {i : Instr} {s : State} (h : firstError (checks i s) = none) : outputLength i < 2 ^ 16 := by
  have hfit := resultBytes_fit h
  cases i with
  | gfInit | genInit | initTables | gfMul | gfExp | gfLog => exact Nat.two_pow_pos 16
  | genGet | polyDiv | eccEncode =>
    exact Nat.lt_of_le_of_lt (hfit _ (.head _)) (bufferSize_lt _)
  | interleave v l => exact Nat.lt_of_le_of_lt (hfit _ (.head _)) (bufferSize_lt _)
  | buildMatrix v l m =>
    exact Nat.lt_of_le_of_lt (cells_le_grid (version_of_buildMatrix v l m h).2) (by decide)

section
variable {i : Instr} {s t : State} (hnone : firstError (checks i s) = none) (h : Completes i s t)
include hnone h

theorem Completes.outLen_eq : t.outLen = BitVec.ofNat 16 (outputLength i) := by
  cases h with
  | interleave v l s data =>
    obtain ⟨hv, hv'⟩ := version_of_interleave v l hnone
    rw [State.complete_outLen, interleave_length_eq hv hv']
    rfl
  | _ => rfl

/-- A completion leaves the buffers alone, or writes the bytes of its "writes" set, or a grid (R62, R201). -/
theorem Completes.mem_cases :
    t.mem = s.mem
      ∨ (∃ b vs, resultBytes i = [(b, vs.length)] ∧ vs.length ≤ b.size ∧ t.mem = s.mem.writeBlock b.base vs)
      ∨ (∃ g, resultBytes i = [(.grid, Buffer.grid.size)] ∧ g.cells.size ≤ Buffer.grid.size
        ∧ t.mem = (s.writeGrid g).mem) := by
  have hfit := resultBytes_fit hnone
  have hblock {b : Buffer} {vs : List Byte} (hbytes : resultBytes i = [(b, vs.length)])
      (hmem : t.mem = s.mem.writeBlock b.base vs) :
      ∃ b vs, resultBytes i = [(b, vs.length)] ∧ vs.length ≤ b.size ∧ t.mem = s.mem.writeBlock b.base vs := by
    rw [hbytes] at hfit
    exact ⟨b, vs, hbytes, hfit _ (.head _), hmem⟩
  cases h with
  | gfInit | genInit | initTables | gfMul | gfExp | gfLog => exact .inl rfl
  | genGet d => exact .inr (.inl (hblock (by rw [genRow_length]; rfl) rfl))
  | polyDiv aDeg bDeg aShift s vs hlen => exact .inr (.inl (hblock (by rw [hlen]; rfl) rfl))
  | eccEncode msgLen eccCount s vs hlen => exact .inr (.inl (hblock (by rw [hlen]; rfl) rfl))
  | interleave v l s data =>
    obtain ⟨hv, hv'⟩ := version_of_interleave v l hnone
    exact .inr (.inl (hblock (by rw [interleave_length_eq hv hv']; rfl) rfl))
  | buildMatrix v l m s stream =>
    refine .inr (.inr ⟨buildGrid v l m stream, rfl, ?_, rfl⟩)
    rw [buildGrid_size]
    exact cells_le_grid (version_of_buildMatrix v l m hnone).2

end

/-- Settles O23: without an error the body runs, its operands are written, and its completion is one of the eleven. -/
theorem commandsWithoutErrorComplete : Obligations.CommandsWithoutErrorComplete := by
  intro i s hi hnone hwritten
  have hchecks : firstError (checks i s) = none := (firstError_checks hi s).trans hnone
  obtain ⟨t, ht⟩ := (nextIf_body i s).1 hwritten
  have hc := completes_of_body ht
  have hsame := hc.sameHostSide
  refine ⟨t, (exec_of_no_error hi hnone).trans ht, ?_, hc.status_eq, hsame.cmd, hsame.pend, hsame.irqEn, hsame.dataLen⟩
  rw [hc.outLen_eq hchecks, BitVec.toNat_ofNat, Nat.mod_eq_of_lt (outputLength_lt hchecks)]

/-- Settles O26: an error completion and eight of the eleven completions write no table and no valid bit. -/
theorem onlyInitCommandsWriteTables : Obligations.OnlyInitCommandsWriteTables := by
  intro i s t hgf hgen hboth h
  obtain ⟨c, -, rfl⟩ | ⟨-, hc⟩ := exec_cases h
  · exact ⟨rfl, rfl, rfl, rfl⟩
  · cases hc with
    | gfInit => exact absurd rfl hgf
    | genInit => exact absurd rfl hgen
    | initTables => exact absurd rfl hboth
    | _ => exact ⟨rfl, rfl, rfl, rfl⟩

/-- Settles O27: a completion writes one block, or a grid after it has cleared GRID. -/
theorem commandsWriteOnlyTheirResultBytes : Obligations.CommandsWriteOnlyTheirResultBytes := by
  intro i s t x _ h hx
  obtain ⟨c, -, rfl⟩ | ⟨hnone, hc⟩ := exec_cases h
  · rfl
  · obtain hmem | ⟨b, vs, hbytes, -, hmem⟩ | ⟨g, hbytes, hsize, hmem⟩ := hc.mem_cases hnone
    · rw [hmem]
    · rw [hbytes] at hx
      rw [hmem, Memory.read_writeBlock_outside _ _ _ _ (hx _ (.head _))]
    · rw [hbytes] at hx
      rw [hmem, State.read_writeGrid_outside g s x hsize (hx _ (.head _))]

/-- Settles O28: an error completion clears RESULT only, and each completion writes the registers of its own rule. -/
theorem resultRegistersHaveTheirOwnWriters : Obligations.ResultRegistersHaveTheirOwnWriters := by
  intro i s t hi h
  rw [← firstError_checks hi s]
  obtain ⟨c, hsome, rfl⟩ | ⟨hnone, hc⟩ := exec_cases h
  · rw [hsome]
    exact ⟨fun _ => ⟨rfl, rfl, rfl⟩, nofun⟩
  · rw [hnone]
    refine ⟨nofun, fun _ => ?_⟩
    cases hc with
    | gfMul a b => exact ⟨fun hne => absurd rfl (hne a b), fun _ => rfl, fun _ => rfl, nofun⟩
    | gfExp e => exact ⟨fun _ hne => absurd rfl (hne e), fun _ => rfl, fun _ => rfl, nofun⟩
    | gfLog v => exact ⟨fun _ _ hne => absurd rfl (hne v), fun _ => rfl, fun _ => rfl, nofun⟩
    | interleave v l => exact ⟨fun _ _ _ => rfl, fun hne => absurd rfl (hne v l), fun _ => rfl, nofun⟩
    | buildMatrix v l m =>
      obtain ⟨-, hv⟩ := version_of_buildMatrix v l m hnone
      refine ⟨fun _ _ _ => rfl, fun _ => rfl, fun hne => absurd rfl (hne v l m), fun v' l' m' heq => ?_⟩
      cases heq
      exact Nat.mod_eq_of_lt (show 4 * v + 17 < 256 by omega)
    | _ => exact ⟨fun _ _ _ => rfl, fun _ => rfl, fun _ => rfl, nofun⟩

end Sys2Proof.Proofs.Commands
end

