-- ==== Sys2Proof/Proofs/Decoder.lean ====
section
/-! SUPPORT. Decoder and encoder are inverse to each other (30_encoding R81–R86): every row of the opcode map asks for
its OPC in the low byte, so at most one row selects a word, and the four byte fields of a word are the whole word. -/

namespace Sys2Proof.Proofs.Decoder

open Sys2Proof

/-! ## The rows of the opcode map -/

/-- A row that asks for its OPC and for zeros from bit k up: the form of every row of R83, as `opcodeTable_eq` says. -/
def highRow (name : String) (k opc : Nat) (build : Word → Instr) : OpcodeRow :=
  ⟨name, BitVec.ofNat 32 (2 ^ 32 - 2 ^ k + 255), BitVec.ofNat 32 opc, build⟩

theorem opcodeTable_eq : opcodeTable = [
    highRow "GF_INIT" 8 0x01 fun _ => .gfInit,
    highRow "GEN_INIT" 8 0x02 fun _ => .genInit,
    highRow "INIT_TABLES" 8 0x03 fun _ => .initTables,
    highRow "GF_MUL" 24 0x10 fun w => .gfMul (field w 8 8) (field w 16 8),
    highRow "GF_EXP" 16 0x11 fun w => .gfExp (field w 8 8),
    highRow "GF_LOG" 16 0x12 fun w => .gfLog (field w 8 8),
    highRow "GEN_GET" 16 0x20 fun w => .genGet (field w 8 8),
    highRow "POLY_DIV" 32 0x30 fun w => .polyDiv (field w 8 8) (field w 16 8) (field w 24 8),
    highRow "ECC_ENCODE" 24 0x31 fun w => .eccEncode (field w 8 8) (field w 16 8),
    highRow "INTERLEAVE" 18 0x40 fun w => .interleave (field w 8 8) (levelOfCode (field w 16 2)),
    highRow "BUILD_MATRIX" 21 0x50 fun w => .buildMatrix (field w 8 8) (levelOfCode (field w 16 2)) (field w 18 3)] :=
  rfl

theorem rowSelects_highRow {name : String} {k opc : Nat} {build : Word → Instr} {w : Word} (hk : 8 ≤ k ∧ k ≤ 32)
    (ho : opc < 256) :
    rowSelects (highRow name k opc build) w = true ↔ w.toNat % 256 = opc ∧ w.toNat / 2 ^ k = 0 :=
  rowSelects_high name k opc build w hk.1 hk.2 ho

/-- Every mask covers the OPC, and the pattern has no other bit. -/
theorem opcode_of_mem_opcodeTable : ∀ row ∈ opcodeTable,
    row.mask &&& 0xFF = 0xFF ∧ row.pattern &&& 0xFF = row.pattern := by decide

theorem opcode_of_rowSelects {row : OpcodeRow} (hrow : row ∈ opcodeTable) {w : Word} (h : rowSelects row w = true) :
    w &&& 0xFF = row.pattern := by
  obtain ⟨hmask, hpattern⟩ := opcode_of_mem_opcodeTable row hrow
  calc w &&& 0xFF
    _ = (w &&& row.mask) &&& 0xFF := by rw [BitVec.and_assoc, hmask]
    _ = row.pattern := by rw [beq_iff_eq.1 h, hpattern]

/-- Elements of a list are equal where a symmetric relation holds that holds between no two of them. -/
theorem eq_of_pairwise_not {α : Type} {R : α → α → Prop} (hsymm : ∀ {a b}, R a b → R b a) {xs : List α}
    (h : xs.Pairwise fun a b => ¬ R a b) {a b : α} (ha : a ∈ xs) (hb : b ∈ xs) (hab : R a b) : a = b :=
  List.Pairwise.forall_of_forall_of_flip (R := fun a b => R a b → a = b) (fun _ _ _ => rfl)
    (h.imp fun hnot hab => absurd hab hnot) (h.imp fun hnot hab => absurd (hsymm hab) hnot) ha hb hab

theorem nodup_patterns : (opcodeTable.map OpcodeRow.pattern).Nodup := by decide

theorem rowSelects_unique {row row' : OpcodeRow} (hrow : row ∈ opcodeTable) (hrow' : row' ∈ opcodeTable) {w : Word}
    (h : rowSelects row w = true) (h' : rowSelects row' w = true) : row' = row :=
  eq_of_pairwise_not (R := fun a b => a.pattern = b.pattern) Eq.symm (List.pairwise_map.1 nodup_patterns) hrow' hrow
    ((opcode_of_rowSelects hrow' h').symm.trans (opcode_of_rowSelects hrow h))

/-- The decoder takes the one row that selects the word (R83). -/
theorem decode_eq_ok_iff {w : Word} {i : Instr} :
    decode w = .ok i ↔ ∃ row ∈ opcodeTable, rowSelects row w = true ∧ row.build w = i := by
  unfold decode
  split
  next row hfind =>
    have hrow := List.mem_of_find?_eq_some hfind
    have hsel : rowSelects row w = true := List.find?_some (p := fun row => rowSelects row w) hfind
    constructor
    · intro h
      exact ⟨row, hrow, hsel, Except.ok.inj h⟩
    · rintro ⟨row', hrow', hsel', rfl⟩
      rw [rowSelects_unique hrow hrow' hsel hsel']
  next hfind =>
    constructor
    · intro h
      cases h
    · rintro ⟨row, hrow, hsel, -⟩
      exact absurd hsel (List.find?_eq_none.1 hfind row hrow)

/-! ## Fields -/

theorem field_lt (w : Word) (lo len : Nat) : field w lo len < 2 ^ len := by
  rw [field_eq]
  exact Nat.mod_lt _ (Nat.two_pow_pos len)

theorem fields_fieldsWord {opc f8 f16 f24 : Nat} (h0 : opc < 256) (h8 : f8 < 256) (h16 : f16 < 256) (h24 : f24 < 256) :
    field (fieldsWord opc f8 f16 f24) 8 8 = f8 ∧ field (fieldsWord opc f8 f16 f24) 16 8 = f16
      ∧ field (fieldsWord opc f8 f16 f24) 24 8 = f24 := by
  simp only [field_eq, fieldsWord_toNat _ _ _ _ h0 h8 h16 h24]
  omega

/-- LEVEL and MASK are parts of the byte at bit 16 (R81). -/
theorem level_and_mask_fields (w : Word) :
    field w 16 2 = field w 16 8 % 4 ∧ field w 18 3 = field w 16 8 / 4 % 8 := by
  simp only [field_eq]
  omega

theorem levelOfCode_code (l : Level) : levelOfCode l.code = l := by cases l <;> rfl

theorem code_levelOfCode : ∀ n < 4, (levelOfCode n).code = n := by decide

/-- The four byte fields are the whole word (R81). -/
theorem fieldsWord_eq {w : Word} {opc f8 f16 f24 : Nat} (h0 : w.toNat % 256 = opc) (h8 : field w 8 8 = f8)
    (h16 : field w 16 8 = f16) (h24 : field w 24 8 = f24) : fieldsWord opc f8 f16 f24 = w := by
  have hw := w.isLt
  apply BitVec.eq_of_toNat_eq
  subst h0 h8 h16 h24
  rw [fieldsWord_toNat _ _ _ _ (Nat.mod_lt _ (by decide)) (field_lt w 8 8) (field_lt w 16 8) (field_lt w 24 8)]
  simp only [field_eq]
  omega

/-- The fields above a fixed-zero bit are 0. -/
theorem field_eq_zero {w : Word} {k lo : Nat} (h : w.toNat / 2 ^ k = 0) (hk : k ≤ lo) (len : Nat) :
    field w lo len = 0 := by
  obtain ⟨n, rfl⟩ := Nat.exists_eq_add_of_le hk
  rw [field_eq, Nat.pow_add, ← Nat.div_div_eq_div_mul, h, Nat.zero_div, Nat.zero_mod]

/-- A word with one operand, in the byte at bit 8. -/
theorem fieldsWord_eq_of_zeros16 {w : Word} {opc : Nat} (h0 : w.toNat % 256 = opc) (hz : w.toNat / 2 ^ 16 = 0) :
    fieldsWord opc (field w 8 8) 0 0 = w :=
  fieldsWord_eq h0 rfl (field_eq_zero hz (by decide) 8) (field_eq_zero hz (by decide) 8)

/-- A word without operands. -/
theorem fieldsWord_eq_of_zeros {w : Word} {opc : Nat} (h0 : w.toNat % 256 = opc) (hz : w.toNat / 2 ^ 8 = 0) :
    fieldsWord opc 0 0 0 = w :=
  fieldsWord_eq h0 (field_eq_zero hz (by decide) 8) (field_eq_zero hz (by decide) 8) (field_eq_zero hz (by decide) 8)

/-! ## A command's word and back -/

theorem rowSelected : ∀ i : Instr, Laws.RowSelected.Statement i
  | .gfInit => Laws.RowSelected.gfInit
  | .genInit => Laws.RowSelected.genInit
  | .initTables => Laws.RowSelected.initTables
  | .gfMul a b => Laws.RowSelected.gfMul a b
  | .gfExp e => Laws.RowSelected.gfExp e
  | .gfLog v => Laws.RowSelected.gfLog v
  | .genGet d => Laws.RowSelected.genGet d
  | .polyDiv aDeg bDeg aShift => Laws.RowSelected.polyDiv aDeg bDeg aShift
  | .eccEncode msgLen eccCount => Laws.RowSelected.eccEncode msgLen eccCount
  | .interleave version level => Laws.RowSelected.interleave version level
  | .buildMatrix version level mask => Laws.RowSelected.buildMatrix version level mask

/-- The row with the command's mnemonic reads its operands back (R81, R82). -/
theorem build_encode {i : Instr} (hi : i.wf = true) :
    ∀ row ∈ opcodeTable, row.mnemonic = i.mnemonic → row.build (encode i) = i := by
  have hzero : 0 < 256 := by decide
  rw [opcodeTable_eq]
  cases i with
  | gfInit | genInit | initTables => simp [highRow, Instr.mnemonic]
  | gfExp n | gfLog n | genGet n =>
    simp only [Instr.wf, fitsByteField, decide_eq_true_eq] at hi
    have hfields (opc) (ho : opc < 256) := fields_fieldsWord ho hi hzero hzero
    simp [highRow, Instr.mnemonic, encode, hfields]
  | gfMul a b | eccEncode a b =>
    simp only [Instr.wf, fitsByteField, Bool.and_eq_true, decide_eq_true_eq] at hi
    have hfields (opc) (ho : opc < 256) := fields_fieldsWord ho hi.1 hi.2 hzero
    simp [highRow, Instr.mnemonic, encode, hfields]
  | polyDiv a b c =>
    simp only [Instr.wf, fitsByteField, Bool.and_eq_true, decide_eq_true_eq] at hi
    have hfields (opc) (ho : opc < 256) := fields_fieldsWord ho hi.1.1 hi.1.2 hi.2
    simp [highRow, Instr.mnemonic, encode, hfields]
  | interleave v l =>
    have hl := l.code_lt
    simp only [Instr.wf, fitsByteField, decide_eq_true_eq] at hi
    have hfields (opc) (ho : opc < 256) := fields_fieldsWord ho hi (show l.code < 256 by omega) hzero
    simp [highRow, Instr.mnemonic, encode, hfields, level_and_mask_fields, Nat.mod_eq_of_lt hl, levelOfCode_code]
  | buildMatrix v l m =>
    have hl := l.code_lt
    simp only [Instr.wf, fitsByteField, fitsMaskField, Bool.and_eq_true, decide_eq_true_eq] at hi
    have hfields (opc) (ho : opc < 256) := fields_fieldsWord ho hi.1 (show l.code + m * 4 < 256 by omega) hzero
    have hlevel : (l.code + m * 4) % 4 = l.code := by omega
    have hmask : (l.code + m * 4) / 4 % 8 = m := by omega
    simp [highRow, Instr.mnemonic, encode, hfields, level_and_mask_fields, hlevel, hmask, levelOfCode_code]

/-- Settles O1: the command's own row selects its word, no other row does, and the row reads the operands back. -/
theorem encodedCommandsDecodeBack : Obligations.EncodedCommandsDecodeBack := by
  intro i hi
  obtain ⟨row, hrow, hname, hsel⟩ := rowSelected i hi
  exact decode_eq_ok_iff.2 ⟨row, hrow, hsel, build_encode hi row hrow hname⟩

/-! ## A word's command and back -/

/-- The opcode map of R83 as arithmetic. -/
theorem decode_eq_ok_iff_opcode {w : Word} {i : Instr} : decode w = .ok i
    ↔ ((w.toNat % 256 = 0x01 ∧ w.toNat / 2 ^ 8 = 0) ∧ .gfInit = i)
      ∨ ((w.toNat % 256 = 0x02 ∧ w.toNat / 2 ^ 8 = 0) ∧ .genInit = i)
      ∨ ((w.toNat % 256 = 0x03 ∧ w.toNat / 2 ^ 8 = 0) ∧ .initTables = i)
      ∨ ((w.toNat % 256 = 0x10 ∧ w.toNat / 2 ^ 24 = 0) ∧ .gfMul (field w 8 8) (field w 16 8) = i)
      ∨ ((w.toNat % 256 = 0x11 ∧ w.toNat / 2 ^ 16 = 0) ∧ .gfExp (field w 8 8) = i)
      ∨ ((w.toNat % 256 = 0x12 ∧ w.toNat / 2 ^ 16 = 0) ∧ .gfLog (field w 8 8) = i)
      ∨ ((w.toNat % 256 = 0x20 ∧ w.toNat / 2 ^ 16 = 0) ∧ .genGet (field w 8 8) = i)
      ∨ ((w.toNat % 256 = 0x30 ∧ w.toNat / 2 ^ 32 = 0)
        ∧ .polyDiv (field w 8 8) (field w 16 8) (field w 24 8) = i)
      ∨ ((w.toNat % 256 = 0x31 ∧ w.toNat / 2 ^ 24 = 0) ∧ .eccEncode (field w 8 8) (field w 16 8) = i)
      ∨ ((w.toNat % 256 = 0x40 ∧ w.toNat / 2 ^ 18 = 0)
        ∧ .interleave (field w 8 8) (levelOfCode (field w 16 2)) = i)
      ∨ ((w.toNat % 256 = 0x50 ∧ w.toNat / 2 ^ 21 = 0)
        ∧ .buildMatrix (field w 8 8) (levelOfCode (field w 16 2)) (field w 18 3) = i) := by
  rw [decode_eq_ok_iff, opcodeTable_eq]
  simp (disch := decide) only [List.mem_cons, List.not_mem_nil, or_false, or_and_right, exists_or, exists_eq_left,
    rowSelects_highRow]
  rfl

/-- LEVEL and MASK are the byte at bit 16 when the bits above them are 0 (R81). -/
theorem level_add_mask {w : Word} (hz : w.toNat / 2 ^ 21 = 0) :
    field w 16 8 = (levelOfCode (field w 16 2)).code + field w 18 3 * 2 ^ 2 := by
  rw [code_levelOfCode _ (field_lt w 16 2)]
  simp only [field_eq]
  omega

/-- Settles O2: the row's fields and its zero bits are the whole word, and a field holds what fits it. -/
theorem decodedWordsEncodeBack : Obligations.DecodedWordsEncodeBack := by
  intro w i h
  have hbyte (lo : Nat) : fitsByteField (field w lo 8) = true := decide_eq_true (field_lt w lo 8)
  have hmask : fitsMaskField (field w 18 3) = true := decide_eq_true (field_lt w 18 3)
  rcases decode_eq_ok_iff_opcode.1 h with ⟨⟨ho, hz⟩, rfl⟩ | ⟨⟨ho, hz⟩, rfl⟩ | ⟨⟨ho, hz⟩, rfl⟩ | ⟨⟨ho, hz⟩, rfl⟩
    | ⟨⟨ho, hz⟩, rfl⟩ | ⟨⟨ho, hz⟩, rfl⟩ | ⟨⟨ho, hz⟩, rfl⟩ | ⟨⟨ho, hz⟩, rfl⟩ | ⟨⟨ho, hz⟩, rfl⟩ | ⟨⟨ho, hz⟩, rfl⟩
    | ⟨⟨ho, hz⟩, rfl⟩
  · exact ⟨fieldsWord_eq_of_zeros ho hz, rfl⟩
  · exact ⟨fieldsWord_eq_of_zeros ho hz, rfl⟩
  · exact ⟨fieldsWord_eq_of_zeros ho hz, rfl⟩
  · exact ⟨fieldsWord_eq ho rfl rfl (field_eq_zero hz (by decide) 8), by simp [Instr.wf, hbyte]⟩
  · exact ⟨fieldsWord_eq_of_zeros16 ho hz, hbyte 8⟩
  · exact ⟨fieldsWord_eq_of_zeros16 ho hz, hbyte 8⟩
  · exact ⟨fieldsWord_eq_of_zeros16 ho hz, hbyte 8⟩
  · exact ⟨fieldsWord_eq ho rfl rfl rfl, by simp [Instr.wf, hbyte]⟩
  · exact ⟨fieldsWord_eq ho rfl rfl (field_eq_zero hz (by decide) 8), by simp [Instr.wf, hbyte]⟩
  · have hlevel : field w 16 8 = (levelOfCode (field w 16 2)).code := by
      rw [level_add_mask (by omega), field_eq_zero hz (by decide) 3, Nat.zero_mul, Nat.add_zero]
    exact ⟨fieldsWord_eq ho rfl hlevel (field_eq_zero hz (by decide) 8), hbyte 8⟩
  · exact ⟨fieldsWord_eq ho rfl (level_add_mask hz) (field_eq_zero hz (by decide) 8), by simp [Instr.wf, hbyte, hmask]⟩

/-- Settles O3: the legal words of the opcode map, its eleven rows joined by their zero bits. -/
theorem legalWordsAreThoseOfTheOpcodeMap : Obligations.LegalWordsAreThoseOfTheOpcodeMap := by
  intro w
  have hw : w.toNat / 2 ^ 32 = 0 := Nat.div_eq_of_lt w.isLt
  simp only [decode_eq_ok_iff_opcode, exists_or, exists_and_left, exists_eq', and_true, hw, or_and_right, or_assoc]
  exact iff_of_eq (by ac_rfl)

end Sys2Proof.Proofs.Decoder
end

