-- ==== Sys2Proof/Proofs/TableCommands.lean ====
section
/-! SUPPORT. The commands of the field and of the generator table (40_gf R101–R106, 41_generator R121–R124): what
GF_INIT and GEN_INIT build, that a second build rewrites the same values, and what the other commands read of it. -/

namespace Sys2Proof.Proofs.TableCommands

open Sys2Proof Sys2Proof.Machine Sys2Proof.Proofs.Gf Sys2Proof.Proofs.Generator Sys2Proof.Proofs.Commands

/-! ## GF_INIT (R101) -/

/-- No power of α is 0, so `LOG[0]` is not written. -/
theorem gfLoop_log_zero (t : GfTables) (n : Nat) :
    ((List.range n).foldl gfLoopTurn ⟨1, t⟩).tables.log.read 0 = t.log.read 0 := by
  induction n with
  | zero => rfl
  | succ n ih =>
    have hne : (alpha n).toNat ≠ 0 := fun h => alpha_ne_zero n (BitVec.eq_of_toNat_eq h)
    rw [gfLoop_log_succ, if_neg hne, ih]

/-- Settles O29: the loop writes the powers of α one after another, and each logarithm stays. -/
theorem gfInitBuildsThePowersOfAlpha : Obligations.GfInitBuildsThePowersOfAlpha := by
  intro s
  refine ⟨_, rfl, rfl, fun i hi => ⟨?_, ?_⟩, fun i hi => ?_, gfLoop_log_zero s.gf 255⟩
  · exact (gfLoop_exp s.gf 255 i).trans (if_pos hi)
  · exact gfLoop_log_alpha s.gf (Nat.le_refl 255) hi
  · exact (gfLoop_exp s.gf 255 i).trans (if_neg (Nat.not_lt.2 hi))

/-- The loop leaves tables alone that are canonical and hold what it writes. -/
theorem gfLoop_eq_self {t : GfTables} (he : t.exp.wf) (hl : t.log.wf) (hexp : ∀ i < 255, t.exp.read i = some (alpha i))
    (hlog : ∀ i < 255, t.log.read (alpha i).toNat = some (byte i)) {n : Nat} (hn : n ≤ 255) :
    ((List.range n).foldl gfLoopTurn ⟨1, t⟩).tables = t := by
  induction n with
  | zero => rfl
  | succ n ih =>
    rw [List.range_succ, List.foldl_append, List.foldl_cons, List.foldl_nil, gfLoopTurn, gfLoop_x, ih (by omega),
      Memory.write_eq_self _ _ _ he (hexp n hn), Memory.write_eq_self _ _ _ hl (hlog n hn)]

/-- A second build rewrites the same values. -/
theorem gfBuild_gfBuild {t : GfTables} (he : t.exp.wf) (hl : t.log.wf) : gfBuild (gfBuild t) = gfBuild t := by
  obtain ⟨he', hl'⟩ := gfLoop_wf he hl 255
  exact gfLoop_eq_self he' hl' (fun i hi => (gfLoop_exp t 255 i).trans (if_pos hi))
    (fun i hi => gfLoop_log_alpha t (Nat.le_refl 255) hi) (Nat.le_refl 255)

theorem gfBuild_of_tablesOk {s : State} (h : TablesOk s) : gfBuild s.gf = gfBuild ⟨[], []⟩ := by
  cases hv : s.status.gfValid with
  | true => rw [h.gfBuilt hv, gfBuild_gfBuild .nil .nil]
  | false => rw [h.gfEmpty hv]

/-! ## GF_MUL, GF_EXP and GF_LOG (R104–R106) -/

/-- The machine's multiply is Horner's product (R100, R104). -/
theorem gfMul_eq_fieldProduct (t : GfTables) (a b : Byte) : (gfBuild t).mul a b = fieldProduct a b := by
  obtain rfl | ⟨i, rfl⟩ := eq_zero_or_alpha a
  · rw [gfMul_zero_left, fieldProduct_zero_left]
  · rw [gfMul_alpha_left, fieldProduct_alpha_left]

/-- Settles O31: the check passes, and the tables' multiply is the field's. -/
theorem gfMulGivesTheFieldProduct : Obligations.GfMulGivesTheFieldProduct := by
  intro a b s hok hvalid
  have hchecks : firstError (checks (.gfMul a b) s) = none := by simp [checks, State.needsGf, hvalid]
  have hproduct : s.gf.mul (elementOperand a) (elementOperand b) = fieldProduct (byte a) (byte b) := by
    rw [hok.gfBuilt hvalid, gfMul_eq_fieldProduct]
  rw [exec_eq_body hchecks, body, hproduct]
  rfl

/-- Settles O34: the errors are those of R261, and `EXP[e]` is the power. -/
theorem gfExpGivesAPowerOfAlpha : Obligations.GfExpGivesAPowerOfAlpha := by
  intro e s he hok
  have hwf : (Instr.gfExp e).wf = true := decide_eq_true he
  refine ⟨fun hvalid => ?_, fun hvalid hlast => ?_, fun hvalid hlt => ?_⟩
  · exact failingCommandsOnlyReportTheirFirstError _ s _ hwf (by simp [specError, hvalid])
  · exact failingCommandsOnlyReportTheirFirstError _ s _ hwf (by simp [specError, hvalid, hlast])
  · have hnone : specError s (.gfExp e) = none := by simp [specError, hvalid, Nat.ne_of_lt hlt]
    have hpower : s.gf.expAt e = alpha e := by rw [hok.gfBuilt hvalid, expAt_gfBuild _ hlt]
    rw [exec_of_no_error hwf hnone, body, hpower]
    rfl

/-- Settles O35: the errors are those of R261, and a nonzero byte is a power of α whose logarithm is its exponent. -/
theorem gfLogGivesTheExponent : Obligations.GfLogGivesTheExponent := by
  intro v s hv hok
  have hwf : (Instr.gfLog v).wf = true := decide_eq_true hv
  refine ⟨fun hvalid => ?_, fun hvalid hzero => ?_, fun hvalid hne => ?_⟩
  · exact failingCommandsOnlyReportTheirFirstError _ s _ hwf (by simp [specError, hvalid])
  · exact failingCommandsOnlyReportTheirFirstError _ s _ hwf (by simp [specError, hvalid, hzero])
  · have hnone : specError s (.gfLog v) = none := by simp [specError, hvalid, hne]
    obtain ⟨i, hi, hpower⟩ := exists_alpha_eq (mt (elementOperand_eq_zero_iff hv).1 hne)
    have hlog : s.gf.logAt (elementOperand v) = byte i := by
      rw [hok.gfBuilt hvalid, ← hpower, logAt_gfBuild_alpha _ hi]
    refine ⟨i, hi, hpower, ?_⟩
    rw [exec_of_no_error hwf hnone, body, hlog]
    rfl

/-! ## GEN_INIT, GEN_GET and INIT_TABLES (R121–R124) -/

theorem exec_genInit {s : State} (hvalid : s.status.gfValid = true) :
    exec .genInit s = .next ((s.installGen (genBuild s.gf)).complete 0) :=
  exec_eq_body (by simp [checks, State.needsGf, hvalid])

/-- Settles O36: the built entries are the logarithms of the coefficients, which follow the recursion. -/
theorem genInitBuildsTheRecursion : Obligations.GenInitBuildsTheRecursion := by
  intro s hok hvalid
  refine ⟨_, exec_genInit hvalid, rfl, ?_⟩
  rw [State.complete_gen, State.installGen_gen, hok.gfBuilt hvalid]
  have hentry {d j : Nat} (hd : 1 ≤ d) (hd' : d ≤ 68) (hj : j ≤ d) := genAt_genBuild ⟨[], []⟩ hd hd' hj
  have hcoeff {d j : Nat} (hd : 1 ≤ d) (hd' : d ≤ 68) (hj : j ≤ d) := alpha_genAt_genBuild ⟨[], []⟩ hd hd' hj
  refine ⟨?_, ?_, fun d hd hd' => ⟨?_, fun j hj hj' => ?_, ?_⟩⟩
  · rw [hentry (by decide) (by decide) (by decide), genEntry_zero_right]
  · rw [hentry (by decide) (by decide) (by decide), ← lastEntry_genEntry, genEntry_zero_right]
    rfl
  · rw [hentry (by omega) hd' (by omega), genEntry_zero_right]
  · obtain ⟨r, rfl⟩ := Nat.exists_eq_add_of_le' (show 1 ≤ d by omega)
    obtain ⟨k, rfl⟩ := Nat.exists_eq_add_of_le' hj
    rw [Nat.add_sub_cancel, Nat.add_sub_cancel, hcoeff (by omega) hd' (by omega),
      hcoeff (by omega) (by omega) (by omega), hcoeff (by omega) (by omega) (by omega), fieldProduct_alpha_left,
      genCoeff_succ_succ]
  · obtain ⟨r, rfl⟩ := Nat.exists_eq_add_of_le' (show 1 ≤ d by omega)
    rw [Nat.add_sub_cancel, hentry (by omega) hd' (by omega), hentry (by omega) (by omega) (by omega),
      lastEntry_genEntry]

theorem genRow_getD (g : GenTable) {d j : Nat} (hj : j ≤ d) : (genRow g d).getD j 0 = genAt g d j := by
  simp [genRow, Nat.lt_succ_of_le hj]

/-- Settles O38: the checks pass, and the block written to BUF_OUT is the row. -/
theorem genGetWritesTheRow : Obligations.GenGetWritesTheRow := by
  intro d s hd hd' hvalid
  have hchecks : firstError (checks (.genGet d) s) = none := by
    simp [checks, State.needsGen, hvalid, Division.badDegree_eq_false hd hd']
  refine ⟨_, exec_eq_body hchecks, rfl, fun j hj => ?_, fun x hx => ?_⟩
  · rw [← genRow_getD s.gen hj]
    exact Memory.read_writeBlock_inside _ _ _ j (by rw [genRow_length]; omega)
  · exact Memory.read_writeBlock_outside _ _ _ x (by rw [genRow_length]; exact hx)

/-- Settles O39: GF_VALID is 1 after GF_INIT, so that GEN_INIT's check passes, and INIT_TABLES makes both updates. -/
theorem initTablesIsBothInits : Obligations.InitTablesIsBothInits := by
  intro s
  exact ⟨_, _, rfl, exec_genInit rfl, rfl, rfl⟩

/-- Settles O40: a build from built tables writes to every entry what it holds. -/
theorem repeatedInitsRewriteTheSameValues : Obligations.RepeatedInitsRewriteTheSameValues := by
  intro s hok
  have hgf (hvalid : s.status.gfValid = true) : gfBuild s.gf = s.gf := by
    rw [gfBuild_of_tablesOk hok, hok.gfBuilt hvalid]
  have hgen (hvalid : s.status.gfValid = true) (hvalid' : s.status.genValid = true) : genBuild s.gf = s.gen := by
    rw [hok.gfBuilt hvalid, hok.genBuilt hvalid']
  refine ⟨fun hvalid => ⟨_, rfl, hgf hvalid, rfl, rfl⟩, fun hvalid hvalid' => ?_, fun hvalid hvalid' => ?_⟩
  · exact ⟨_, exec_genInit hvalid, rfl, hgen hvalid hvalid'⟩
  · refine ⟨_, rfl, hgf hvalid, ?_⟩
    exact (congrArg genBuild (hgf hvalid)).trans (hgen hvalid hvalid')

end Sys2Proof.Proofs.TableCommands
end

