-- ==== Sys2Proof/Proofs/Invariants.lean ====
section
/-! SUPPORT. The three invariants of Safety.lean. `step_keeps` says once that a step is one of few updates of the block
(`HostEffect`, an error completion, or one of the eleven completions), up to the fields that no invariant speaks of. -/

namespace Sys2Proof.Proofs.Invariants

open Sys2Proof Sys2Proof.Machine Sys2Proof.Proofs.Gf Sys2Proof.Proofs.Commands Sys2Proof.Proofs.TableCommands

/-! ## What a step can do to the block -/

/-- The fields that the invariants speak of are the same. -/
structure SameBlock (s t : State) : Prop where
  status : t.status = s.status
  cmd : t.cmd = s.cmd
  pend : t.pend = s.pend
  rst : t.rst = s.rst
  mem : t.mem = s.mem
  gf : t.gf = s.gf
  gen : t.gen = s.gen
  work : t.work = s.work

theorem SameBlock.refl (s : State) : SameBlock s s := by constructor <;> rfl

/-- A host read changes the count of draws only, and its delivery the model's last value. -/
theorem sameBlock_deliver (s : State) (a : Addr) (n : AccessSize) : SameBlock s (State.deliver (s.memRead a n)) := by
  rw [State.deliver, memRead_snd]
  constructor <;> rfl

/-- The updates of the block that an event from outside can make (10_state R23, R24; 20_memory R63; 60_exceptions R270;
70_reset R300). -/
inductive HostEffect (s : State) : State → Prop where
  | nothing : HostEffect s s
  | accept (w : Word) (hr : s.rst = false) : HostEffect s (s.acceptCommand w)
  | overrun : HostEffect s (s.setStatus s.status.overrun)
  | clear (w : Word) : HostEffect s (s.setStatus (s.status.clear w))
  | store (a : Nat) (n : AccessSize) (w : Word) : HostEffect s (s.setMem (s.mem.writeEach (bufferWrites a n w)))
  | reset (level : Bool) : HostEffect s (s.resetBlock level)

theorem hostEffect_of_memWrite {a : Addr} {n : AccessSize} {w : Word} {s t : State} (h : s.memWrite a n w = .next t) :
    ∃ u, HostEffect s u ∧ SameBlock u t := by
  obtain rfl | ⟨r, hr, h⟩ | ⟨-, rfl⟩ := memWrite_cases h
  · exact ⟨_, .nothing, .refl _⟩
  · obtain rfl | ⟨-, rfl⟩ | ⟨-, rfl⟩ | rfl | ⟨b, rfl⟩ | ⟨-, len, rfl⟩ | ⟨-, len, rfl⟩ := writeRegister_cases h
    · exact ⟨_, .nothing, .refl _⟩
    · exact ⟨_, .accept w hr, .refl _⟩
    · exact ⟨_, .overrun, .refl _⟩
    · exact ⟨_, .clear w, .refl _⟩
    · exact ⟨_, .nothing, by constructor <;> rfl⟩
    · exact ⟨_, .nothing, by constructor <;> rfl⟩
    · exact ⟨_, .nothing, by constructor <;> rfl⟩
  · exact ⟨_, .store a.toNat n w, .refl _⟩

theorem hostEffect_of_hostEvent {e : HostEvent} {s t : State} (h : s.hostEvent e = .next t) :
    ∃ u, HostEffect s u ∧ SameBlock u t := by
  obtain ⟨a, n, -, rfl⟩ | ⟨a, n, w, -, h⟩ | ⟨-, is, -, rfl⟩ | ⟨level, -, rfl | rfl⟩ := hostEvent_cases h
  · exact ⟨_, .nothing, sameBlock_deliver s a n⟩
  · exact hostEffect_of_memWrite h
  · exact ⟨_, .nothing, by constructor <;> simp [State.deliver]⟩
  · exact ⟨_, .nothing, .refl _⟩
  · exact ⟨_, .reset level, .refl _⟩

theorem codes_of_checks (i : Instr) (s : State) : ∀ p ∈ checks i s, p.2 ≠ .capacityOverflow ∧ p.2 ≠ .none := by
  cases i <;> simp [checks, State.needsGf, State.needsGen]

/-- A predicate of the block that every host effect, every error completion and every completion keeps is an invariant
of the step. -/
theorem step_keeps {P : State → Prop} (hsame : ∀ {s t}, SameBlock s t → P s → P t)
    (hhost : ∀ {s t}, HostEffect s t → P s → P t)
    (herror : ∀ {s c}, s.rst = false → c ≠ .capacityOverflow → c ≠ .none → P s → P (s.raiseErr c))
    (hcompletes : ∀ {i s t}, s.rst = false → firstError (checks i s) = none → Completes i s t → P s → P t)
    (s t : State) (hs : P s) (h : step s = .next t) : P t := by
  obtain ⟨hr, -, -, ⟨i, -, h⟩ | ⟨e, -, rfl⟩⟩ | ⟨e, rest, -, h⟩ | ⟨-, rfl⟩ := step_cases h
  · obtain ⟨c, hc, rfl⟩ | ⟨hnone, hc⟩ := exec_cases h
    · obtain ⟨hover, hne⟩ := firstError_ne_overflow (codes_of_checks i s) hc
      exact herror hr hover hne hs
    · exact hcompletes hr hnone hc hs
  · exact herror hr (by decide) (by decide) hs
  · obtain ⟨u, hu, hut⟩ := hostEffect_of_hostEvent h
    exact hsame hut (hhost hu (hsame (by constructor <;> rfl) hs))
  · exact hs

/-! ## STATUS, CMD and PEND (10_state R23, R24, R45) -/

theorem SameBlock.statusOk {s t : State} (he : SameBlock s t) (h : StatusOk s) : StatusOk t := by
  obtain ⟨h1, h2, h3, h4, h5, h6, h7, h8, h9⟩ := h
  constructor
  all_goals rw [he.status]
  · exact h1
  · exact h2
  · exact h3
  · exact h4
  · exact h5
  · rwa [he.pend, he.cmd]
  · rwa [he.cmd]
  · exact h8
  · rwa [he.rst]

theorem statusOk_reset : StatusOk State.reset := by constructor <;> decide

theorem statusOk_resetBlock (level : Bool) (s : State) : StatusOk (s.resetBlock level) := by
  obtain ⟨h1, h2, h3, h4, h5, h6, h7, h8, -⟩ := statusOk_reset
  exact ⟨h1, h2, h3, h4, h5, h6, h7, h8, fun _ => rfl⟩

theorem HostEffect.keeps_statusOk {s t : State} (he : HostEffect s t) (h : StatusOk s) : StatusOk t := by
  cases he with
  | nothing => exact h
  | accept w hr =>
    exact ⟨nofun, fun _ => ⟨rfl, rfl, rfl⟩, fun _ => rfl, nofun, nofun, fun _ => rfl, rfl, h.genNeedsGf,
      fun hr' => absurd (hr.symm.trans hr') (by decide)⟩
  | overrun | store =>
    exact ⟨h.notBoth, h.busyQuiet, h.doneHasNoCode, h.errHasCode, h.neverOverflow, h.pendIsCmd, h.lastOpOfCmd,
      h.genNeedsGf, h.rstIdle⟩
  | clear w =>
    have hdone (hd : (s.status.clear w).done = true) : s.status.done = true := (Bool.and_eq_true_iff.1 hd).1
    have herr (he : (s.status.clear w).err = true) : s.status.err = true := (Bool.and_eq_true_iff.1 he).1
    refine ⟨fun hd => ?_, fun hb => ?_, fun hd => h.doneHasNoCode (hdone hd), fun he => h.errHasCode (herr he),
      h.neverOverflow, h.pendIsCmd, h.lastOpOfCmd, h.genNeedsGf, h.rstIdle⟩
    · simp [h.notBoth (hdone hd)]
    · obtain ⟨hd, he, hcode⟩ := h.busyQuiet hb
      exact ⟨by simp [hd], by simp [he], hcode⟩
  | reset level => exact statusOk_resetBlock level s

theorem statusOk_raiseErr {s : State} {c : ErrCode} (hover : c ≠ .capacityOverflow) (hne : c ≠ .none) (h : StatusOk s) :
    StatusOk (s.raiseErr c) :=
  ⟨nofun, nofun, nofun, fun _ => hne, hover, nofun, h.lastOpOfCmd, h.genNeedsGf, fun _ => rfl⟩

/-- GEN_INIT has checked GF_VALID, and INIT_TABLES sets both bits. -/
theorem Completes.genNeedsGf {i : Instr} {s t : State} (hnone : firstError (checks i s) = none) (hc : Completes i s t)
    (h : s.status.genValid = true → s.status.gfValid = true) (hgen : t.status.genValid = true) :
    t.status.gfValid = true := by
  cases hc with
  | gfInit | initTables => rfl
  | genInit =>
    have hvalid := firstError_eq_none hnone s.needsGf (by simp [checks])
    simpa [State.needsGf] using hvalid
  | _ => exact h hgen

theorem Completes.keeps_statusOk {i : Instr} {s t : State} (hnone : firstError (checks i s) = none)
    (hc : Completes i s t) (h : StatusOk s) : StatusOk t := by
  have hgen := Completes.genNeedsGf hnone hc h.genNeedsGf
  have hside := hc.sameHostSide
  have hst := hc.status_eq
  have hlastOp : t.status.lastOp = t.cmd.extractLsb' 0 8 := by rw [hside.lastOp, hside.cmd, h.lastOpOfCmd]
  refine ⟨?_, ?_, ?_, ?_, ?_, ?_, hlastOp, hgen, ?_⟩
  all_goals rw [hst]
  · exact fun _ => rfl
  · exact nofun
  · exact fun _ => rfl
  · exact nofun
  · exact nofun
  · exact nofun
  · exact fun _ => rfl

/-- Settles O58: an acceptance and both completions set the fields together, and a STATUS write only clears. -/
theorem stepKeepsStatusOk : Obligations.StepKeepsStatusOk :=
  step_keeps SameBlock.statusOk HostEffect.keeps_statusOk (fun _ => statusOk_raiseErr)
    fun _ => Completes.keeps_statusOk

/-! ## The tables (10_state R40–R42) -/

theorem SameBlock.tablesOk {s t : State} (he : SameBlock s t) (h : TablesOk s) : TablesOk t := by
  obtain ⟨h1, h2, h3, h4⟩ := h
  constructor
  all_goals rw [he.status]
  · rwa [he.gf]
  · rwa [he.gf]
  · rwa [he.gen]
  · rwa [he.gen]

theorem tablesOk_reset : TablesOk State.reset := ⟨nofun, fun _ => rfl, nofun, fun _ => rfl⟩

theorem HostEffect.keeps_tablesOk {s t : State} (he : HostEffect s t) (h : TablesOk s) : TablesOk t := by
  cases he with
  | reset level =>
    obtain ⟨h1, h2, h3, h4⟩ := tablesOk_reset
    exact ⟨h1, h2, h3, h4⟩
  | _ => exact ⟨h.gfBuilt, h.gfEmpty, h.genBuilt, h.genEmpty⟩

theorem tablesOk_raiseErr {s : State} (c : ErrCode) (h : TablesOk s) : TablesOk (s.raiseErr c) :=
  ⟨h.gfBuilt, h.gfEmpty, h.genBuilt, h.genEmpty⟩

theorem Completes.keeps_tablesOk {i : Instr} {s t : State} (hnone : firstError (checks i s) = none)
    (hc : Completes i s t) (h : TablesOk s) : TablesOk t := by
  have hgf := gfBuild_of_tablesOk h
  cases hc with
  | gfInit => exact ⟨fun _ => hgf, nofun, h.genBuilt, h.genEmpty⟩
  | genInit =>
    have hvalid : s.status.gfValid = true := by
      simpa [State.needsGf] using firstError_eq_none hnone s.needsGf (by simp [checks])
    exact ⟨h.gfBuilt, h.gfEmpty, fun _ => congrArg genBuild (h.gfBuilt hvalid), nofun⟩
  | initTables => exact ⟨fun _ => hgf, nofun, fun _ => congrArg genBuild hgf, nofun⟩
  | _ => exact ⟨h.gfBuilt, h.gfEmpty, h.genBuilt, h.genEmpty⟩

/-- Settles O59: only the three build commands write tables, and each writes what the tables hold after one build. -/
theorem stepKeepsTablesOk : Obligations.StepKeepsTablesOk :=
  step_keeps SameBlock.tablesOk HostEffect.keeps_tablesOk (fun _ _ _ => tablesOk_raiseErr _)
    fun _ => Completes.keeps_tablesOk

/-! ## The memories (20_memory R61, 10_state R40–R43) -/

theorem SameBlock.memoryOk {s t : State} (he : SameBlock s t) (h : MemoryOk s) : MemoryOk t := by
  obtain ⟨h1, h2, h3, h4, h5, h6, h7, h8⟩ := h
  constructor
  · rwa [he.mem]
  · rwa [he.mem]
  · rwa [he.gf]
  · rwa [he.gf]
  · rwa [he.gf]
  · rwa [he.gf]
  · rwa [he.work]
  · rwa [he.work]

theorem memoryOk_reset : MemoryOk State.reset := ⟨.nil, nofun, .nil, nofun, .nil, nofun, .nil, nofun⟩

theorem HostEffect.keeps_memoryOk {s t : State} (he : HostEffect s t) (h : MemoryOk s) : MemoryOk t := by
  cases he with
  | reset level =>
    obtain ⟨h1, h2, h3, h4, h5, h6, h7, h8⟩ := memoryOk_reset
    exact ⟨h1, h2, h3, h4, h5, h6, h7, h8⟩
  | store a n w =>
    refine ⟨wf_writeEach _ h.memWf, fun c hc => ?_, h.expWf, h.expRange, h.logWf, h.logRange, h.workWf, h.workRange⟩
    obtain hc | hc := mem_writeEach hc
    · exact isBufferByte_of_mem_bufferWrites hc
    · exact h.memInBuffers c hc
  | _ => exact ⟨h.memWf, h.memInBuffers, h.expWf, h.expRange, h.logWf, h.logRange, h.workWf, h.workRange⟩

theorem memoryOk_raiseErr {s : State} (c : ErrCode) (h : MemoryOk s) : MemoryOk (s.raiseErr c) :=
  ⟨h.memWf, h.memInBuffers, h.expWf, h.expRange, h.logWf, h.logRange, h.workWf, h.workRange⟩

/-- The canonical form and the range of EXP and LOG (R40, R41). -/
def GfOk (t : GfTables) : Prop :=
  t.exp.wf ∧ (∀ c ∈ t.exp, c.1 < 255) ∧ t.log.wf ∧ ∀ c ∈ t.log, 0 < c.1 ∧ c.1 < 256

/-- The loop writes EXP at its own index and LOG at a power of α, which is not 0. -/
theorem gfLoop_gfOk {t : GfTables} (h : GfOk t) {n : Nat} (hn : n ≤ 255) :
    GfOk ((List.range n).foldl gfLoopTurn ⟨1, t⟩).tables := by
  induction n with
  | zero => exact h
  | succ n ih =>
    obtain ⟨hew, her, hlw, hlr⟩ := ih (Nat.le_of_lt hn)
    have hpos : 0 < (alpha n).toNat := Nat.pos_of_ne_zero fun h0 => alpha_ne_zero n (BitVec.eq_of_toNat_eq h0)
    rw [List.range_succ, List.foldl_append, List.foldl_cons, List.foldl_nil, gfLoopTurn, gfLoop_x]
    refine ⟨Memory.wf_write hew _ _, fun c hc => ?_, Memory.wf_write hlw _ _, fun c hc => ?_⟩
    · obtain rfl | hc := Memory.mem_write hc
      · exact hn
      · exact her c hc
    · obtain rfl | hc := Memory.mem_write hc
      · exact ⟨hpos, (alpha n).isLt⟩
      · exact hlr c hc

theorem isBufferByte_of_holds {b : Buffer} {x : Nat} (h : b.holds x) : isBufferByte x := by
  cases b with
  | bufA => exact .inl h
  | bufB => exact .inr (.inl h)
  | bufOut => exact .inr (.inr (.inl h))
  | data => exact .inr (.inr (.inr (.inl h)))
  | stream => exact .inr (.inr (.inr (.inr (.inl h))))
  | grid => exact .inr (.inr (.inr (.inr (.inr h))))

/-- The canonical form and the range of the buffers (R61). -/
def BuffersOk (m : Memory) : Prop := m.wf ∧ ∀ c ∈ m, isBufferByte c.1

theorem buffersOk_writeBlock {m : Memory} (h : BuffersOk m) {b : Buffer} {vs : List Byte} (hfit : vs.length ≤ b.size) :
    BuffersOk (m.writeBlock b.base vs) := by
  refine ⟨Memory.wf_writeBlock h.1 _ _, fun c hc => ?_⟩
  obtain ⟨hlo, hhi⟩ | hc := Memory.mem_writeBlock hc
  · exact isBufferByte_of_holds (b := b) ⟨hlo, by omega⟩
  · exact h.2 c hc

theorem buffersOk_forget {m : Memory} (h : BuffersOk m) (lo hi : Nat) : BuffersOk (m.forget lo hi) :=
  ⟨Memory.wf_forget h.1 lo hi, fun c hc => h.2 c (Memory.mem_forget hc)⟩

theorem Completes.keeps_buffersOk {i : Instr} {s t : State} (hnone : firstError (checks i s) = none)
    (hc : Completes i s t) (h : BuffersOk s.mem) : BuffersOk t.mem := by
  obtain hmem | ⟨b, vs, -, hfit, hmem⟩ | ⟨g, -, hsize, hmem⟩ := hc.mem_cases hnone
  · rwa [hmem]
  · rw [hmem]
    exact buffersOk_writeBlock h hfit
  · rw [hmem, State.writeGrid_mem]
    exact buffersOk_writeBlock (buffersOk_forget h _ _) hsize

theorem Completes.keeps_gfOk {i : Instr} {s t : State} (hc : Completes i s t) (h : GfOk s.gf) : GfOk t.gf := by
  cases hc with
  | gfInit | initTables => exact gfLoop_gfOk h (Nat.le_refl 255)
  | _ => exact h

/-- The canonical form and the range of WORK (R43). -/
def WorkOk (m : Memory) : Prop := m.wf ∧ ∀ c ∈ m, c.1 < 191

theorem workOk_releaseWork (s : State) : WorkOk s.releaseWork.work := by
  rw [State.releaseWork_work]
  refine ⟨Memory.wf_cells _ _, fun c hc => ?_⟩
  have hrange := (Memory.mem_cells hc).2
  rwa [List.length_map, List.length_range, Nat.zero_add] at hrange

theorem Completes.keeps_workOk {i : Instr} {s t : State} (hc : Completes i s t) (h : WorkOk s.work) :
    WorkOk t.work := by
  cases hc with
  | polyDiv | eccEncode | interleave => exact workOk_releaseWork _
  | _ => exact h

theorem Completes.keeps_memoryOk {i : Instr} {s t : State} (hnone : firstError (checks i s) = none)
    (hc : Completes i s t) (h : MemoryOk s) : MemoryOk t := by
  obtain ⟨hmw, hmr⟩ := Completes.keeps_buffersOk hnone hc ⟨h.memWf, h.memInBuffers⟩
  obtain ⟨hew, her, hlw, hlr⟩ := Completes.keeps_gfOk hc ⟨h.expWf, h.expRange, h.logWf, h.logRange⟩
  obtain ⟨hww, hwr⟩ := Completes.keeps_workOk hc ⟨h.workWf, h.workRange⟩
  exact ⟨hmw, hmr, hew, her, hlw, hlr, hww, hwr⟩

/-- Settles O60: every operation of memory keeps the canonical form, and what is written lies in its range. -/
theorem stepKeepsMemoryOk : Obligations.StepKeepsMemoryOk :=
  step_keeps SameBlock.memoryOk HostEffect.keeps_memoryOk (fun _ _ _ => memoryOk_raiseErr _)
    fun _ => Completes.keeps_memoryOk

/-- Settles O57: STATUS is 0 after reset, the tables and the memories hold no value. -/
theorem resetMeetsTheInvariants : Obligations.ResetMeetsTheInvariants :=
  ⟨statusOk_reset, tablesOk_reset, memoryOk_reset⟩

end Sys2Proof.Proofs.Invariants
end

