-- ==== Sys2Proof/Proofs/HostPort.lean ====
section
/-! SUPPORT. The host port (20_memory R63–R74, 10_state R22–R30). An access is ill placed, of one register, or aligned
at the buffers (`access_cases`), and each of the three has one rule for reads and one for writes. -/

namespace Sys2Proof.Proofs.HostPort

open Sys2Proof Sys2Proof.Machine Sys2Proof.Proofs.Exceptions

/-! ## The three kinds of access -/

/-- A register access that is not 4 bytes wide, or an unaligned access (R65, R66). -/
def IllPlaced (a : Addr) (n : AccessSize) : Prop := (a.toNat < 0x20 ∧ n ≠ .four) ∨ a.toNat % n.bytes ≠ 0

/-- An aligned access outside the registers. -/
def AtBuffers (a : Addr) (n : AccessSize) : Prop := 0x20 ≤ a.toNat ∧ a.toNat % n.bytes = 0

theorem registerAt_isSome : ∀ k < 0x20, k % 4 = 0 → (registerAt k).isSome := by decide

theorem access_cases (a : Addr) (n : AccessSize) :
    IllPlaced a n ∨ (n = .four ∧ ∃ r : Register, a = r.addr) ∨ AtBuffers a n := by
  by_cases halign : a.toNat % n.bytes = 0
  · obtain hlt | hge := Nat.lt_or_ge a.toNat 0x20
    · by_cases hn : n = .four
      · subst hn
        obtain ⟨r, hreg⟩ := Option.isSome_iff_exists.1 (registerAt_isSome _ hlt halign)
        exact .inr (.inl ⟨rfl, r, addr_of_registerAt hreg⟩)
      · exact .inl (.inl ⟨hlt, hn⟩)
    · exact .inr (.inr ⟨hge, halign⟩)
  · exact .inl (.inr halign)

theorem bytes_le_four (n : AccessSize) : n.bytes ≤ 4 := by cases n <;> decide

theorem offset_mod_four (r : Register) : r.offset % 4 = 0 := by cases r <;> rfl

/-- An ill-placed access of the register range meets no register. -/
theorem registerAt_of_illPlaced {a : Addr} (h : IllPlaced a .four) : registerAt a.toNat = none := by
  refine Option.eq_none_iff_forall_ne_some.2 fun r hr => ?_
  obtain ⟨-, hne⟩ | halign := h
  · exact hne rfl
  · rw [← offset_of_registerAt hr] at halign
    exact halign (offset_mod_four r)

theorem memRead_of_rst {s : State} (hr : s.rst = true) (a : Addr) (n : AccessSize) : s.memRead a n = (0, s) := by
  simp [State.memRead, hr]

theorem memWrite_of_rst {s : State} (hr : s.rst = true) (a : Addr) (n : AccessSize) (w : Word) :
    s.memWrite a n w = .next s := by
  simp [State.memWrite, hr]

theorem memRead_of_illPlaced {a : Addr} {n : AccessSize} (h : IllPlaced a n) (s : State) : s.memRead a n = (0, s) := by
  unfold State.memRead
  split
  · rfl
  split
  · split
    next r hreg => exact absurd hreg (by rw [registerAt_of_illPlaced h]; nofun)
    · rfl
  next hge =>
    rw [if_pos (h.resolve_left fun hlt => hge hlt.1)]

theorem memWrite_of_illPlaced {a : Addr} {n : AccessSize} (h : IllPlaced a n) (s : State) (w : Word) :
    s.memWrite a n w = .next s := by
  unfold State.memWrite
  split
  · rfl
  split
  · split
    next r hreg => exact absurd hreg (by rw [registerAt_of_illPlaced h]; nofun)
    · rfl
  next hge =>
    rw [if_pos (h.resolve_left fun hlt => hge hlt.1)]

/-- Settles O18: an ill-placed access meets no register, and outside the registers it is unaligned. -/
theorem illPlacedAccessesAreIgnored : Obligations.IllPlacedAccessesAreIgnored :=
  fun s _ _ w h => ⟨memRead_of_illPlaced h s, memWrite_of_illPlaced h s w⟩

/-- A full-width read at a register's address is a read of that register. -/
theorem memRead_addr {s : State} (hr : s.rst = false) (r : Register) :
    s.memRead r.addr .four = (s.readRegister r, s) := by
  unfold State.memRead
  rw [hr]
  cases r <;> rfl

section
variable {s : State} {a : Addr} {n : AccessSize} (hr : s.rst = false) (h : AtBuffers a n)
include hr h

theorem memRead_atBuffers : s.memRead a n = s.readBytes (accessBytes a.toNat n) := by
  obtain ⟨hge, halign⟩ := h
  simp [State.memRead, hr, Nat.not_lt.2 hge, halign]

theorem memWrite_atBuffers (w : Word) : s.memWrite a n w =
    if s.status.busy ∧ bufferWrites a.toNat n w ≠ [] then .fault .hostWriteWhileBusy
    else .next (s.setMem (s.mem.writeEach (bufferWrites a.toNat n w))) := by
  obtain ⟨hge, halign⟩ := h
  simp [State.memWrite, hr, Nat.not_lt.2 hge, halign]

end

/-! ## The registers (10_state R22–R30) -/

/-- Settles O11: an idle block accepts the word into CMD and PEND, and a busy one records the overrun. -/
theorem cmdWriteAcceptsOrIsDropped : Obligations.CmdWriteAcceptsOrIsDropped := by
  intro s w hr
  refine ⟨fun hb => ⟨s.acceptCommand w, ?_, rfl, memRead_addr (s := s.acceptCommand w) hr .cmd⟩, fun hb => ?_⟩
  · exact (memWrite_addr hr .cmd w).trans (writeRegister_cmd_of_idle hb w)
  · exact (memWrite_addr hr .cmd w).trans (writeRegister_cmd_of_busy hb w)

theorem and_not_eq_ite (b c : Bool) : (b && !c) = if c then false else b := by cases c <;> simp

/-- Settles O14: the bit that is kept where a 0 is written. -/
theorem statusWriteClearsOnlyWrittenOnes : Obligations.StatusWriteClearsOnlyWrittenOnes := by
  intro s w hr
  refine (memWrite_addr hr .status w).trans ?_
  rw [writeRegister_status, Status.clear, and_not_eq_ite, and_not_eq_ite, and_not_eq_ite]
  rfl

/-- Settles O15: each register's write takes its field, and its read shows the field with zeros above it. -/
theorem registersTakeAndReadTheirFields : Obligations.RegistersTakeAndReadTheirFields := by
  intro s w hr
  have hidle (hb : s.status.busy = false) (t u : Host.Outcome State Fault Refusal) :
      (if s.status.busy then t else u) = u := if_neg (Bool.eq_false_iff.1 hb)
  refine ⟨memWrite_addr hr .ctrl w, fun hb => ⟨?_, ?_⟩, memWrite_addr hr .result w, memWrite_addr hr .outLen w,
    memWrite_addr hr .gridSide w, ?_, ?_, ?_, ?_, ?_, ?_⟩
  · exact (memWrite_addr hr .dataLen w).trans (hidle hb _ _)
  · exact (memWrite_addr hr .streamLen w).trans (hidle hb _ _)
  · rw [BitVec.ofNat_toNat]
    exact memRead_addr hr .result
  · refine (memRead_addr hr .ctrl).trans ?_
    rw [State.readRegister]
    cases s.irqEn <;> rfl
  · rw [BitVec.ofNat_toNat]
    exact memRead_addr hr .dataLen
  · rw [BitVec.ofNat_toNat]
    exact memRead_addr hr .streamLen
  · rw [BitVec.ofNat_toNat]
    exact memRead_addr hr .outLen
  · rw [BitVec.ofNat_toNat]
    exact memRead_addr hr .gridSide

/-! ## STATUS as a word (R24, R261) -/

theorem code_lt (c : ErrCode) : c.code < 2 ^ 4 := by cases c <;> decide

/-- The fields of STATUS leave no carry. -/
theorem toWord_toNat (st : Status) : st.toWord.toNat = st.busy.toNat + st.done.toNat * 2 ^ 1 + st.err.toNat * 2 ^ 2
    + st.gfValid.toNat * 2 ^ 3 + st.genValid.toNat * 2 ^ 4 + st.cmdOvr.toNat * 2 ^ 5 + st.errCode.code * 2 ^ 8
    + st.lastOp.toNat * 2 ^ 16 := by
  have hcode := code_lt st.errCode
  have hop := st.lastOp.isLt
  have hbits (b : Bool) : b.toNat ≤ 1 := Bool.toNat_le b
  have h1 := hbits st.busy
  have h2 := hbits st.done
  have h3 := hbits st.err
  have h4 := hbits st.gfValid
  have h5 := hbits st.genValid
  have h6 := hbits st.cmdOvr
  rw [Status.toWord, BitVec.toNat_ofNat, Nat.mod_eq_of_lt (by omega)]

theorem getLsbD_eq_of_div_mod {w : Word} {i : Nat} {b : Bool} (h : w.toNat / 2 ^ i % 2 = b.toNat) :
    w.getLsbD i = b := by
  rw [BitVec.getLsbD, Nat.testBit_eq_decide_div_mod_eq, h]
  cases b <;> rfl

theorem extractLsb'_eq_of_div_mod {w : Word} {lo len : Nat} {v : BitVec len}
    (h : w.toNat / 2 ^ lo % 2 ^ len = v.toNat) : w.extractLsb' lo len = v := by
  apply BitVec.eq_of_toNat_eq
  rw [BitVec.extractLsb'_toNat, Nat.shiftRight_eq_div_pow, h]

theorem extractLsb'_eq_zero_of_div_mod {w : Word} {lo len : Nat} (h : w.toNat / 2 ^ lo % 2 ^ len = 0) :
    w.extractLsb' lo len = 0 := extractLsb'_eq_of_div_mod (v := 0) h

/-- Settles O13: the word is the sum of the fields at their places, so a division finds each. -/
theorem statusReadsItsFieldsAtTheirBits : Obligations.StatusReadsItsFieldsAtTheirBits := by
  intro s hr
  refine ⟨s.status.toWord, memRead_addr hr .status, ?_⟩
  have hword := toWord_toNat s.status
  have hcode := code_lt s.status.errCode
  have hop := s.status.lastOp.isLt
  have h0 := Bool.toNat_le s.status.busy
  have h1 := Bool.toNat_le s.status.done
  have h2 := Bool.toNat_le s.status.err
  have h3 := Bool.toNat_le s.status.gfValid
  have h4 := Bool.toNat_le s.status.genValid
  have h5 := Bool.toNat_le s.status.cmdOvr
  have herrCode : s.status.toWord.toNat / 2 ^ 8 % 2 ^ 4 = s.status.errCode.code := by omega
  refine ⟨getLsbD_eq_of_div_mod (by omega), getLsbD_eq_of_div_mod (by omega), getLsbD_eq_of_div_mod (by omega),
    getLsbD_eq_of_div_mod (by omega), getLsbD_eq_of_div_mod (by omega), getLsbD_eq_of_div_mod (by omega),
    extractLsb'_eq_zero_of_div_mod (by omega), extractLsb'_eq_zero_of_div_mod (by omega), ?_,
    extractLsb'_eq_of_div_mod (by omega), extractLsb'_eq_zero_of_div_mod (by omega)⟩
  rw [BitVec.extractLsb'_toNat, Nat.shiftRight_eq_div_pow, herrCode]
  cases s.status.errCode <;> rfl

/-! ## Bytes as a value, the first the least significant (20_memory R63) -/

/-- The value of these bytes. -/
def littleEndian : List Byte → Word
  | [] => 0
  | v :: vs => v.setWidth 32 ||| (littleEndian vs <<< 8)

theorem littleEndian_toNat_cons {v : Byte} {vs : List Byte} (hlt : (littleEndian vs).toNat < 2 ^ 24) :
    (littleEndian (v :: vs)).toNat = 2 ^ 8 * (littleEndian vs).toNat + v.toNat := by
  have hlow : (v.setWidth 32).toNat = v.toNat := BitVec.toNat_setWidth_of_le (by decide)
  have hhigh : (littleEndian vs <<< 8).toNat = 2 ^ 8 * (littleEndian vs).toNat := by
    rw [BitVec.toNat_shiftLeft, Nat.shiftLeft_eq, Nat.mod_eq_of_lt (by omega), Nat.mul_comm]
  rw [littleEndian, BitVec.toNat_or, hlow, hhigh, Nat.or_comm, Nat.two_pow_add_eq_or_of_lt v.isLt]

theorem littleEndian_toNat_lt {vs : List Byte} (h : vs.length ≤ 4) : (littleEndian vs).toNat < 2 ^ (8 * vs.length) := by
  induction vs with
  | nil => exact Nat.two_pow_pos 0
  | cons v vs ih =>
    rw [List.length_cons] at h
    have htail := ih (by omega)
    have hlt : (littleEndian vs).toNat < 2 ^ 24 :=
      Nat.lt_of_lt_of_le htail (Nat.pow_le_pow_right (by decide) (by omega))
    have hv := v.isLt
    rw [littleEndian_toNat_cons hlt, List.length_cons, Nat.mul_succ, Nat.add_comm, Nat.pow_add]
    omega

theorem littleEndian_extractLsb' {vs : List Byte} (h : vs.length ≤ 4) {k : Nat} (hk : k < vs.length) :
    (littleEndian vs).extractLsb' (8 * k) 8 = vs.getD k 0 := by
  apply extractLsb'_eq_of_div_mod
  induction vs generalizing k with
  | nil => exact absurd hk (Nat.not_lt_zero k)
  | cons v vs ih =>
    rw [List.length_cons] at h hk
    have hlt : (littleEndian vs).toNat < 2 ^ 24 :=
      Nat.lt_of_lt_of_le (littleEndian_toNat_lt (by omega)) (Nat.pow_le_pow_right (by decide) (by omega))
    have hv := v.isLt
    rw [littleEndian_toNat_cons hlt]
    cases k with
    | zero =>
      rw [List.getD_cons_zero]
      omega
    | succ k =>
      have hrest := ih (by omega) (Nat.lt_of_succ_lt_succ hk)
      rw [Nat.mul_succ, Nat.add_comm (8 * k), Nat.pow_add, ← Nat.div_div_eq_div_mul,
        Nat.mul_add_div (Nat.two_pow_pos 8), Nat.div_eq_of_lt hv, Nat.add_zero, hrest, List.getD_cons_succ]

theorem littleEndian_eq_zero {vs : List Byte} (h : ∀ v ∈ vs, v = 0) : littleEndian vs = 0 := by
  induction vs with
  | nil => rfl
  | cons v vs ih =>
    obtain ⟨rfl, hvs⟩ := List.forall_mem_cons.1 h
    rw [littleEndian, ih hvs]
    rfl

/-! ## Reads of the buffers (R63, R67, R70, R74) -/

/-- The byte the host reads where nothing is free: what a buffer byte holds, and 0 at a reserved address. -/
def heldByte (s : State) (x : Nat) : Byte := if isBufferByte x then (s.mem.read x).getD 0 else 0

/-- Nothing is free about the byte: it is reserved, or it holds a value that no command in flight may write. -/
def Held (s : State) (x : Nat) : Prop := isBufferByte x → s.inFlight x = false ∧ (s.mem.read x).isSome

theorem readByte_of_held {s : State} {x : Nat} (h : Held s x) : s.readByte x = (heldByte s x, s) := by
  unfold State.readByte heldByte
  split
  next hx =>
    obtain ⟨hflight, hsome⟩ := h hx
    obtain ⟨v, hv⟩ := Option.isSome_iff_exists.1 hsome
    simp [hflight, hv]
  · rfl

theorem readBytes_of_held {s : State} {as : List Nat} (h : ∀ x ∈ as, Held s x) :
    s.readBytes as = (littleEndian (as.map (heldByte s)), s) := by
  induction as with
  | nil => rfl
  | cons a as ih =>
    obtain ⟨ha, has⟩ := List.forall_mem_cons.1 h
    simp only [State.readBytes, readByte_of_held ha, ih has]
    rfl

/-- Reserved bytes read 0, whatever the state (R67). -/
theorem readBytes_of_reserved {s : State} {as : List Nat} (h : ∀ x ∈ as, ¬ isBufferByte x) :
    s.readBytes as = (0, s) := by
  have hzero : ∀ x ∈ as, heldByte s x = 0 := fun x hx => if_neg (h x hx)
  rw [readBytes_of_held fun x hx hbuf => absurd hbuf (h x hx), littleEndian_eq_zero (List.forall_mem_map.2 hzero)]

theorem length_accessBytes (a : Nat) (n : AccessSize) : (accessBytes a n).length = n.bytes := by
  rw [accessBytes, List.length_map, List.length_range]

/-- An aligned read outside the registers, where nothing is free. -/
theorem memRead_of_held {s : State} {a : Addr} {n : AccessSize} (hr : s.rst = false) (hat : AtBuffers a n)
    (h : ∀ k < n.bytes, Held s (a.toNat + k)) :
    ∃ w, s.memRead a n = (w, s) ∧ w.toNat < 2 ^ (8 * n.bytes)
      ∧ ∀ k < n.bytes, w.extractLsb' (8 * k) 8 = heldByte s (a.toNat + k) := by
  have hheld : ∀ x ∈ accessBytes a.toNat n, Held s x :=
    List.forall_mem_map.2 fun k hk => h k (List.mem_range.1 hk)
  have hlen : ((accessBytes a.toNat n).map (heldByte s)).length = n.bytes := by
    rw [List.length_map, length_accessBytes]
  have hle : ((accessBytes a.toNat n).map (heldByte s)).length ≤ 4 := hlen ▸ bytes_le_four n
  refine ⟨_, (memRead_atBuffers hr hat).trans (readBytes_of_held hheld), ?_, fun k hk => ?_⟩
  · have hlt := littleEndian_toNat_lt hle
    rwa [hlen] at hlt
  · rw [littleEndian_extractLsb' hle (hlen.symm ▸ hk)]
    simp [accessBytes, hk]

/-- Log 8: what may be in flight is R62's "writes" set, or less. -/
theorem exists_resultBytes_of_inWritesSet {i : Instr} {x : Nat}
    (h : inWritesSet i x .bufOut = true ∨ inWritesSet i x .stream = true ∨ inWritesSet i x .grid = true) :
    ∃ p ∈ resultBytes i, p.1.base ≤ x ∧ x < p.1.base + p.2 := by
  simp only [inWritesSet, Bool.and_eq_true, decide_eq_true_eq] at h
  cases i with
  | gfInit | genInit | initTables | gfMul | gfExp | gfLog =>
    simp only [writesSet, Nat.add_zero] at h
    omega
  | genGet | polyDiv | eccEncode | buildMatrix =>
    simp only [writesSet, Nat.add_zero] at h
    exact ⟨_, .head _, by simp only; omega⟩
  | interleave v l =>
    simp only [writesSet, Nat.add_zero] at h
    refine ⟨(.stream, totalCodewords v), .head _, ?_⟩
    split at h
    · omega
    · simp only
      omega

theorem inFlight_eq_false {s : State} {x : Nat} (h : s.status.busy = true → ∀ i, decode s.pend = .ok i →
    ∀ p ∈ resultBytes i, x < p.1.base ∨ p.1.base + p.2 ≤ x) : s.inFlight x = false := by
  unfold State.inFlight
  cases hb : s.status.busy with
  | false => rfl
  | true =>
    rw [Bool.true_and]
    split
    next i hi =>
      refine Bool.eq_false_iff.2 fun hin => ?_
      rw [Bool.or_eq_true, Bool.or_eq_true, or_assoc] at hin
      obtain ⟨p, hp, hlo, hhi⟩ := exists_resultBytes_of_inWritesSet hin
      have hout := h hb i hi p hp
      omega
    · rfl

/-- Settles O21: a read at most draws free values, and where nothing is free it is the value of the bytes. -/
theorem hostReadsReturnHeldBytesAndChangeNothing : Obligations.HostReadsReturnHeldBytesAndChangeNothing := by
  refine ⟨fun s a n => memRead_snd a n s, fun s a n hr hge halign hbytes => ?_⟩
  have hheld : ∀ k < n.bytes, Held s (a.toNat + k) := fun k hk hbuf =>
    ⟨inFlight_eq_false (hbytes k hk hbuf).2, (hbytes k hk hbuf).1⟩
  obtain ⟨w, hread, hlt, hw⟩ := memRead_of_held hr ⟨hge, halign⟩ hheld
  refine ⟨w, hread, hlt, fun k hk => ?_⟩
  rw [hw k hk, heldByte]
  split
  next hbuf =>
    obtain ⟨v, hv⟩ := Option.isSome_iff_exists.1 (hbytes k hk hbuf).1
    rw [hv, Option.getD_some]
  · rfl

/-! ## Writes of the buffers (R63, R66, R67, R73) -/

theorem mem_bufferWrites {a : Nat} {n : AccessSize} {w : Word} {c : Nat × Byte} : c ∈ bufferWrites a n w
    ↔ ∃ k < n.bytes, isBufferByte (a + k) ∧ c = (a + k, w.extractLsb' (8 * k) 8) := by
  simp only [bufferWrites, List.mem_filter, List.mem_map, List.mem_range, decide_eq_true_eq]
  constructor
  · rintro ⟨⟨k, hk, rfl⟩, hbuf⟩
    exact ⟨k, hk, hbuf, rfl⟩
  · rintro ⟨k, hk, hbuf, rfl⟩
    exact ⟨⟨k, hk, rfl⟩, hbuf⟩

theorem bufferWrites_eq_nil_iff {a : Nat} {n : AccessSize} {w : Word} :
    bufferWrites a n w = [] ↔ ∀ k < n.bytes, ¬ isBufferByte (a + k) := by
  rw [List.eq_nil_iff_forall_not_mem]
  constructor
  · exact fun h k hk hbuf => h _ (mem_bufferWrites.2 ⟨k, hk, hbuf, rfl⟩)
  · rintro h c hc
    obtain ⟨k, hk, hbuf, -⟩ := mem_bufferWrites.1 hc
    exact h k hk hbuf

/-- No address is written twice. -/
theorem pairwise_bufferWrites (a : Nat) (n : AccessSize) (w : Word) :
    (bufferWrites a n w).Pairwise fun c d => c.1 ≠ d.1 := by
  refine List.Pairwise.filter _ (List.pairwise_map.2 (List.nodup_range.imp fun hne heq => hne ?_))
  exact Nat.add_left_cancel heq

theorem read_writeEach_of_mem {ws : List (Nat × Byte)} (hws : ws.Pairwise fun c d => c.1 ≠ d.1) {c : Nat × Byte}
    (hc : c ∈ ws) (m : Memory) : (m.writeEach ws).read c.1 = some c.2 := by
  induction ws generalizing m with
  | nil => exact absurd hc List.not_mem_nil
  | cons d ws ih =>
    obtain ⟨hd, hws⟩ := List.pairwise_cons.1 hws
    obtain rfl | hc := List.mem_cons.1 hc
    · exact (read_writeEach_other ws _ _ fun e he => (hd e he).symm).trans (by rw [Memory.read_write, if_pos rfl])
    · exact ih hws hc _

/-- Settles O19: no byte of the access is a buffer byte, so the read joins zeros and the write has no byte to put. -/
theorem reservedAddressesReadZeroAndIgnoreWrites : Obligations.ReservedAddressesReadZeroAndIgnoreWrites := by
  intro s a n w hge hreserved
  cases hr : s.rst with
  | true => exact ⟨memRead_of_rst hr a n, memWrite_of_rst hr a n w⟩
  | false =>
    by_cases halign : a.toNat % n.bytes = 0
    · refine ⟨?_, ?_⟩
      · rw [memRead_atBuffers hr ⟨hge, halign⟩]
        exact readBytes_of_reserved (List.forall_mem_map.2 fun k hk => hreserved k (List.mem_range.1 hk))
      · rw [memWrite_atBuffers hr ⟨hge, halign⟩, bufferWrites_eq_nil_iff.2 hreserved, if_neg (by simp)]
        rfl
    · exact ⟨memRead_of_illPlaced (.inr halign) s, memWrite_of_illPlaced (.inr halign) s w⟩

/-- Settles O17: the bytes go to different addresses, so each stays as written, and the read then finds them held. -/
theorem alignedAccessesAreLittleEndian : Obligations.AlignedAccessesAreLittleEndian := by
  intro s a n w hr hb hge halign
  have hwrite : s.memWrite a n w = .next (s.setMem (s.mem.writeEach (bufferWrites a.toNat n w))) := by
    rw [memWrite_atBuffers hr ⟨hge, halign⟩, if_neg fun h => Bool.eq_false_iff.1 hb h.1]
  have hput : ∀ k < n.bytes, isBufferByte (a.toNat + k) →
      (s.mem.writeEach (bufferWrites a.toNat n w)).read (a.toNat + k) = some (w.extractLsb' (8 * k) 8) :=
    fun k hk hbuf => read_writeEach_of_mem (pairwise_bufferWrites _ _ _) (mem_bufferWrites.2 ⟨k, hk, hbuf, rfl⟩) _
  have hheld : ∀ k < n.bytes, Held (s.setMem (s.mem.writeEach (bufferWrites a.toNat n w))) (a.toNat + k) :=
    fun k hk hbuf => ⟨inFlight_eq_false fun hb' => absurd (hb.symm.trans hb') (by decide),
      Option.isSome_iff_exists.2 ⟨_, hput k hk hbuf⟩⟩
  obtain ⟨v, hread, hlt, hv⟩ :=
    memRead_of_held (s := s.setMem (s.mem.writeEach (bufferWrites a.toNat n w))) hr ⟨hge, halign⟩ hheld
  refine ⟨_, v, hwrite, rfl, hput, fun x hx => ?_, hread, hlt, fun k hk => ?_⟩
  · refine read_writeEach_other _ _ _ fun c hc heq => ?_
    obtain ⟨k, hk, hbuf, rfl⟩ := mem_bufferWrites.1 hc
    subst heq
    obtain hx | hx | hx := hx
    · simp only at hx
      omega
    · simp only at hx
      omega
    · exact hx hbuf
  · rw [hv k hk, heldByte]
    split
    next hbuf => rw [State.setMem_mem, hput k hk hbuf, Option.getD_some]
    · rfl

theorem not_isBufferByte_of_lt {x : Nat} (h : x < 0x100) : ¬ isBufferByte x := by
  simp only [isBufferByte, Buffer.holds, Buffer.base]
  omega

/-- The writes that R73 forbids while BUSY = 1. -/
def ReachesOperands (a : Addr) (n : AccessSize) : Prop :=
  (n = .four ∧ (a = 0x010 ∨ a = 0x014)) ∨ (a.toNat % n.bytes = 0 ∧ ∃ k < n.bytes, isBufferByte (a.toNat + k))

theorem not_reachesOperands_of_illPlaced {a : Addr} {n : AccessSize} (h : IllPlaced a n) : ¬ ReachesOperands a n := by
  have hbytes := bytes_le_four n
  rintro (⟨rfl, rfl | rfl⟩ | ⟨halign, k, hk, hbuf⟩)
  · exact absurd h (by simp only [IllPlaced]; decide)
  · exact absurd h (by simp only [IllPlaced]; decide)
  · obtain ⟨hlt, -⟩ | hne := h
    · exact not_isBufferByte_of_lt (by omega) hbuf
    · exact hne halign

theorem addr_lt (r : Register) : r.addr.toNat < 0x20 := by cases r <;> decide

theorem reachesOperands_addr_iff (r : Register) : ReachesOperands r.addr .four ↔ r = .dataLen ∨ r = .streamLen := by
  have hbuf : ¬ ∃ k < AccessSize.four.bytes, isBufferByte (r.addr.toNat + k) := by
    rintro ⟨k, hk, hbuf⟩
    have hlt := addr_lt r
    exact not_isBufferByte_of_lt (Nat.lt_of_lt_of_le (Nat.add_lt_add hlt hk) (by decide)) hbuf
  rw [ReachesOperands, or_iff_left fun h => hbuf h.2]
  cases r <;> decide

theorem reachesOperands_iff_of_atBuffers {a : Addr} {n : AccessSize} (h : AtBuffers a n) (w : Word) :
    ReachesOperands a n ↔ bufferWrites a.toNat n w ≠ [] := by
  obtain ⟨hge, halign⟩ := h
  rw [ne_eq, bufferWrites_eq_nil_iff]
  constructor
  · rintro (⟨-, rfl | rfl⟩ | ⟨-, k, hk, hbuf⟩) hnone
    · exact absurd hge (by decide)
    · exact absurd hge (by decide)
    · exact hnone k hk hbuf
  · intro hsome
    obtain ⟨k, hk⟩ := Classical.not_forall.1 hsome
    obtain ⟨hk, hbuf⟩ := Classical.not_imp.1 hk
    exact .inr ⟨halign, k, hk, Classical.not_not.1 hbuf⟩

/-- A register write faults exactly at DATA_LEN and STREAM_LEN while BUSY = 1 (R73). -/
theorem writeRegister_answers (s : State) (w : Word) (r : Register) :
    (s.writeRegister w r = .fault .hostWriteWhileBusy ↔ s.status.busy = true ∧ (r = .dataLen ∨ r = .streamLen))
      ∧ (s.writeRegister w r ≠ .fault .hostWriteWhileBusy → ∃ t, s.writeRegister w r = .next t) := by
  cases r with
  | dataLen | streamLen =>
    rw [State.writeRegister]
    cases s.status.busy <;> simp
  | _ => exact ⟨by simp [State.writeRegister], fun _ => ⟨_, rfl⟩⟩

/-- Settles O20: of the three kinds of access an ill-placed one is ignored, a register's own rule says which fault, and
one at the buffers faults when it has a byte to put. -/
theorem hostWriteFaultsExactlyOnBusyOperands : Obligations.HostWriteFaultsExactlyOnBusyOperands := by
  intro s a n w hr
  change (_ ↔ s.status.busy = true ∧ ReachesOperands a n) ∧ _
  obtain hill | ⟨rfl, r, rfl⟩ | hat := access_cases a n
  · rw [memWrite_of_illPlaced hill]
    exact ⟨⟨nofun, fun h => absurd h.2 (not_reachesOperands_of_illPlaced hill)⟩, fun _ => ⟨s, rfl⟩⟩
  · rw [memWrite_addr hr, reachesOperands_addr_iff]
    exact writeRegister_answers s w r
  · rw [memWrite_atBuffers hr hat, reachesOperands_iff_of_atBuffers hat w]
    split
    next h => exact ⟨⟨fun _ => h, fun _ => rfl⟩, fun hne => absurd rfl hne⟩
    next h => exact ⟨⟨nofun, fun h' => absurd h' h⟩, fun _ => ⟨_, rfl⟩⟩

end Sys2Proof.Proofs.HostPort
end

