-- ==== Sys2Proof/Proofs/Steps.lean ====
section
/-! SUPPORT. Whose step it is (70_reset R300, R310, R312; 60_exceptions R285): the engine's when it is ready, else that
of the next host event; and the runs of a host that waits (30_encoding R87). -/

namespace Sys2Proof.Proofs.Steps

open Sys2Proof Sys2Proof.Machine Sys2Proof.Proofs.Decoder Sys2Proof.Proofs.Commands Sys2Proof.Proofs.HostPort

/-! ## The engine's step (R310) -/

theorem engineReady_iff {s : State} :
    s.engineReady = true ↔ s.rst = false ∧ s.status.busy = true ∧ (s.engineDelay = 0 ∨ s.inputs = []) := by
  simp [State.engineReady, and_assoc]

theorem step_of_engineReady {s : State} (h : s.engineReady = true) : step s = s.engineStep := by
  simp [step, State.nextAgent, h]

theorem engineStep_of_ok {s : State} {i : Instr} (h : decode s.pend = .ok i) : s.engineStep = exec i s := by
  simp [State.engineStep, h]

theorem engineStep_of_error {s : State} {e : DecodeReject} (h : decode s.pend = .error e) :
    s.engineStep = .next (s.raiseErr .illegalCommand) := by
  simp [State.engineStep, h]

theorem decode_of_decodeTableWord {nbits w : Nat} {i : Instr} (h : decodeTableWord nbits w = some i) :
    decode (BitVec.ofNat 32 (w % 2 ^ nbits)) = .ok i := by
  unfold decodeTableWord at h
  cases hd : decode (BitVec.ofNat 32 (w % 2 ^ nbits)) with
  | ok j =>
    rw [hd] at h
    exact congrArg _ (Option.some.inj h)
  | error e =>
    rw [hd] at h
    cases h

/-- Settles O5: the engine is ready, and its step decodes PEND; an acceptance makes it ready with the word in PEND. -/
theorem engineStepRunsTheDecodedCommand : Obligations.EngineStepRunsTheDecodedCommand := by
  refine ⟨fun s hr hb hdue => ?_, fun s nbits w i h => ?_⟩
  · have hstep := step_of_engineReady (engineReady_iff.2 ⟨hr, hb, hdue⟩)
    exact ⟨fun i hi => hstep.trans (engineStep_of_ok hi), fun e he => hstep.trans (engineStep_of_error he)⟩
  · have hready : (s.withFetchWord nbits w).engineReady = true := engineReady_iff.2 ⟨rfl, rfl, .inl rfl⟩
    exact (step_of_engineReady hready).trans (engineStep_of_ok (decode_of_decodeTableWord h))

/-! ## The host's steps (R285) -/

theorem step_of_event {s : State} (h : s.engineReady = false) {e : HostEvent} {rest : List HostEvent}
    (hin : s.inputs = e :: rest) : step s = (s.takeEvent rest).hostEvent e := by
  simp [step, State.nextAgent, h, State.hostStep, hin]

theorem step_of_nobody {s : State} (h : s.engineReady = false) (hin : s.inputs = []) : step s = .next s := by
  simp [step, State.nextAgent, h, hin]

/-- A wait line is one read of STATUS (R87, log 18). -/
theorem hostEvent_wait (s : State) : s.hostEvent .wait = .next { s with
    lastRead := (s.memRead statusAddr .four).1
    inputs := if (s.memRead statusAddr .four).1.getLsbD 0 then .wait :: s.inputs else s.inputs } := by
  simp only [State.hostEvent, State.deliver, memRead_status_snd]
  split <;> rfl

/-- Settles O6: an engine that is not ready leaves the step to the next event, whose own rule is its meaning. -/
theorem otherStepsAreTheHosts : Obligations.OtherStepsAreTheHosts := by
  refine ⟨fun s h => ?_, fun s a n w => ⟨rfl, rfl⟩, hostEvent_wait, fun s hr => ?_⟩
  · have hready : s.engineReady = false := by
      refine Bool.eq_false_iff.2 fun hready => ?_
      obtain ⟨hr, hb, hdue⟩ := engineReady_iff.1 hready
      obtain hb' | hr' | ⟨hdelay, hin⟩ := h
      · exact absurd (hb.symm.trans hb') (by decide)
      · exact absurd (hr.symm.trans hr') (by decide)
      · exact hdue.elim hdelay hin
    exact ⟨fun e rest hin => step_of_event hready hin, step_of_nobody hready⟩
  · rw [State.hostEvent, hr]
    rfl

/-- Settles O10: an event of `rst` replaces the block by its reset state, and while `rst` is 1 the port does nothing. -/
theorem rstResetsTheBlock : Obligations.RstResetsTheBlock := by
  refine ⟨fun s rest hin hready => ?_, fun s rest hin hr => ?_, fun s a n w hr => ?_⟩
  · rw [step_of_event hready hin, State.hostEvent, Bool.or_true]
    rfl
  · have hready : s.engineReady = false :=
      Bool.eq_false_iff.2 fun h => absurd ((engineReady_iff.1 h).1.symm.trans hr) (by decide)
    have hlevel : ((s.takeEvent rest).rst || false) = true := Bool.or_eq_true_iff.2 (.inl hr)
    rw [step_of_event hready hin, State.hostEvent, if_pos hlevel]
    rfl
  · exact ⟨memRead_of_rst hr a n, memWrite_of_rst hr a n w⟩

/-! ## Runs of a host that waits (R87, R312) -/

theorem run_succ_of_step {s t : State} (h : step s = .next t) (k : Nat) :
    Sys2Proof.core.run (k + 1) s = Sys2Proof.core.run k t := by
  have hstep : Sys2Proof.core.step s = .next t := h
  simp only [Host.Core.run, hstep]

theorem step_of_run_succ {k : Nat} {s u : State} (h : Sys2Proof.core.run (k + 1) s = .next u) :
    ∃ t, step s = .next t ∧ Sys2Proof.core.run k t = .next u := by
  simp only [Host.Core.run] at h
  split at h
  next t ht => exact ⟨t, ht, h⟩
  · cases h
  · cases h

theorem run_one {s t : State} (h : step s = .next t) : Sys2Proof.core.run 1 s = .next t := run_succ_of_step h 0

theorem run_trans {j k : Nat} {s t u : State} (hj : Sys2Proof.core.run j s = .next t)
    (hk : Sys2Proof.core.run k t = .next u) : Sys2Proof.core.run (k + j) s = .next u := by
  induction j generalizing s with
  | zero =>
    cases hj
    exact hk
  | succ j ih =>
    obtain ⟨s', hs, hj⟩ := step_of_run_succ hj
    exact (run_succ_of_step hs (k + j)).trans (ih hj)

theorem toWord_getLsbD_zero (st : Status) : st.toWord.getLsbD 0 = st.busy := by
  refine getLsbD_eq_of_div_mod ?_
  have hle := Bool.toNat_le st.busy
  rw [toWord_toNat]
  omega

/-- One turn of the loop, when the engine is not ready: the line stays while STATUS reads BUSY = 1. -/
theorem step_wait {s : State} {rest : List HostEvent} (hr : s.rst = false) (hready : s.engineReady = false)
    (hin : s.inputs = .wait :: rest) : step s = .next { s with
      lastRead := s.status.toWord
      inputs := if s.status.busy then .wait :: rest else rest
      engineDelay := s.engineDelay - 1 } := by
  have hread : ((s.takeEvent rest).memRead statusAddr .four).1 = s.status.toWord :=
    congrArg Prod.fst (memRead_addr (s := s.takeEvent rest) hr .status)
  rw [step_of_event hready hin, hostEvent_wait, hread, toWord_getLsbD_zero]
  rfl

/-- While BUSY = 1 the loop counts the delay down and changes nothing else of the block. -/
theorem run_wait {n : Nat} {s : State} {rest : List HostEvent} (hn : s.engineDelay = n) (hr : s.rst = false)
    (hb : s.status.busy = true) (hin : s.inputs = .wait :: rest) :
    ∃ v, Sys2Proof.core.run n s = .next { s with engineDelay := 0, lastRead := v } := by
  induction n generalizing s with
  | zero =>
    have hsame : s = { s with engineDelay := 0, lastRead := s.lastRead } := by rw [← hn]
    exact ⟨s.lastRead, congrArg _ hsame⟩
  | succ n ih =>
    have hready : s.engineReady = false := by
      refine Bool.eq_false_iff.2 fun h => ?_
      obtain ⟨-, -, hdue⟩ := engineReady_iff.1 h
      rw [hn, hin] at hdue
      exact hdue.elim (Nat.succ_ne_zero n) nofun
    have hstep := step_wait hr hready hin
    rw [hb, if_pos rfl, ← hin] at hstep
    obtain ⟨v, hv⟩ := ih (s := { s with lastRead := s.status.toWord, engineDelay := s.engineDelay - 1 })
      (by simp [hn]) hr hb hin
    exact ⟨v, (run_succ_of_step hstep n).trans hv⟩

/-- Settles O7: each turn of the loop takes one from the delay, and at 0 the engine is ready. -/
theorem waitingReachesTheEngineStep : Obligations.WaitingReachesTheEngineStep := by
  intro s rest hr hb hin
  obtain ⟨v, hv⟩ := run_wait rfl hr hb hin
  exact ⟨s.engineDelay, _, Nat.le_refl _, hv, engineReady_iff.2 ⟨hr, hb, .inl rfl⟩, rfl, rfl, rfl, rfl⟩

/-- The contract is about the registers and the buffers, which a waiting host leaves alone (70_reset R311). -/
theorem commandSafe_of_waited {i : Instr} {s : State} (h : CommandSafe i s) (v : Word) :
    CommandSafe i { s with engineDelay := 0, lastRead := v } := by
  have herror : specError { s with engineDelay := 0, lastRead := v } i = specError s i := by cases i <;> rfl
  have hbytes : operandBytes { s with engineDelay := 0, lastRead := v } i = operandBytes s i := by cases i <;> rfl
  rw [CommandSafe, OperandsWritten, herror, hbytes]
  exact h

/-- A command that keeps to the contract does not fault. -/
theorem exec_of_commandSafe {i : Instr} {s : State} (hi : i.wf = true) (h : CommandSafe i s) :
    ∃ t, exec i s = .next t := by
  cases herror : specError s i with
  | some c => exact ⟨_, failingCommandsOnlyReportTheirFirstError i s c hi herror⟩
  | none =>
    have hwritten : OperandsWritten i s := h.resolve_left (by rw [herror]; nofun)
    obtain ⟨t, ht, -⟩ := commandsWithoutErrorComplete i s hi herror hwritten
    exact ⟨t, ht⟩

/-- The engine's step, under the contract, ends with BUSY = 0 and leaves `rst` and the events alone. -/
theorem engineStep_of_commandSafe {s : State} (h : ∀ i, decode s.pend = .ok i → CommandSafe i s) :
    ∃ t, s.engineStep = .next t ∧ t.status.busy = false ∧ t.rst = s.rst ∧ t.inputs = s.inputs := by
  cases hd : decode s.pend with
  | error e => exact ⟨_, engineStep_of_error hd, rfl, rfl, rfl⟩
  | ok i =>
    obtain ⟨-, hwf⟩ := decodedWordsEncodeBack s.pend i hd
    obtain ⟨t, ht⟩ := exec_of_commandSafe hwf (h i hd)
    have hsame := exec_sameHostSide ht
    obtain ⟨hb, -⟩ := engineStepsLeaveTheHostsRegistersAlone i s t ht
    exact ⟨t, (engineStep_of_ok hd).trans ht, hb, hsame.rst, hsame.inputs⟩

/-- The last turn of the loop: BUSY = 0, so the line ends. -/
theorem run_last_wait {s : State} {rest : List HostEvent} (hr : s.rst = false) (hb : s.status.busy = false)
    (hin : s.inputs = .wait :: rest) : ∃ t, Sys2Proof.core.run 1 s = .next t ∧ t.inputs = rest
      ∧ t.status.busy = false ∧ t.lastRead.getLsbD 0 = false := by
  have hready : s.engineReady = false :=
    Bool.eq_false_iff.2 fun h => absurd ((engineReady_iff.1 h).2.1.symm.trans hb) (by decide)
  refine ⟨_, run_one (step_wait hr hready hin), ?_, hb, (toWord_getLsbD_zero _).trans hb⟩
  rw [hb]
  rfl

/-- Settles O8: the loop runs to the engine's step, which ends the command, and then it runs once more. -/
theorem waitLoopsEnd : Obligations.WaitLoopsEnd := by
  intro s rest hr hin hsafe
  cases hb : s.status.busy with
  | false => exact ⟨1, run_last_wait hr hb hin⟩
  | true =>
    obtain ⟨v, hrun⟩ := run_wait rfl hr hb hin
    obtain ⟨t, ht, htb, htr, htin⟩ :=
      engineStep_of_commandSafe (s := { s with engineDelay := 0, lastRead := v })
        fun i hi => commandSafe_of_waited (hsafe hb i hi) v
    have hready : { s with engineDelay := 0, lastRead := v }.engineReady = true :=
      engineReady_iff.2 ⟨hr, hb, .inl rfl⟩
    have hengine := run_one ((step_of_engineReady hready).trans ht)
    obtain ⟨u, hu, hend⟩ := run_last_wait (htr.trans hr) htb (htin.trans hin)
    exact ⟨_, u, run_trans (run_trans hrun hengine) hu, hend⟩

end Sys2Proof.Proofs.Steps
end

