-- ==== Sys2Proof/Proofs/Remainder.lean ====
section
/-! SUPPORT. The remainder of the polynomial division (42_division R140–R142, R146, R150). A step of the division by
e ‖ es leaves, past the leading coefficient, `divNext`, which does not depend on e; with the tables built it takes away
the leading coefficient's multiple of the divisor, which is how the quotient of R142 grows by one coefficient. -/

namespace Sys2Proof.Proofs.Remainder

open Sys2Proof Sys2Proof.Machine Sys2Proof.Proofs.Gf Sys2Proof.Proofs.Generator Sys2Proof.Proofs.Division
  Sys2Proof.Proofs.Commands Sys2Proof.Proofs.TableCommands

/-! ## One step past the leading coefficient -/

/-- WORK past its leading coefficient f after a step by the divisor e ‖ es. -/
def divNext (t : GfTables) (es : List Byte) (f : Byte) (rest : List Byte) : List Byte :=
  if f = 0 then rest else xorInto 0 (es.map fun x => t.scale f x.toNat) rest

/-- The remaining coefficients after n such steps; the division is this, as `drop_foldl_divStep` says. -/
def divTail (t : GfTables) (es : List Byte) : Nat → List Byte → List Byte
  | 0, work => work
  | n + 1, f :: rest => divTail t es n (divNext t es f rest)
  | _ + 1, [] => []

theorem divNext_length (t : GfTables) (es : List Byte) (f : Byte) (rest : List Byte) :
    (divNext t es f rest).length = rest.length := by
  rw [divNext]
  split
  · rfl
  · exact xorInto_length _ _ _

theorem divStep_cons (t : GfTables) (e : Byte) (es : List Byte) (f : Byte) (rest : List Byte) :
    ∃ f', divStep t (e :: es) (f :: rest) 0 = f' :: divNext t es f rest := by
  rw [divStep, divNext]
  simp only [List.getD_cons_zero]
  split
  · exact ⟨f, rfl⟩
  · exact ⟨_, rfl⟩

/-- The steps from `pre.length` on work behind `pre`. -/
theorem foldl_divStep_append (t : GfTables) (e : Byte) (es : List Byte) {n : Nat} {pre work : List Byte}
    (hn : n ≤ work.length) : ∃ pre', pre'.length = pre.length + n
      ∧ (List.range' pre.length n).foldl (divStep t (e :: es)) (pre ++ work) = pre' ++ divTail t es n work := by
  induction n generalizing pre work with
  | zero => exact ⟨pre, rfl, rfl⟩
  | succ n ih =>
    obtain ⟨f, rest, rfl⟩ := List.exists_cons_of_length_pos (Nat.lt_of_lt_of_le (Nat.succ_pos n) hn)
    obtain ⟨f', hf'⟩ := divStep_cons t e es f rest
    obtain ⟨pre', hlen, hpre'⟩ := ih (pre := pre ++ [f']) (work := divNext t es f rest)
      (by rw [divNext_length]; exact Nat.le_of_succ_le_succ hn)
    rw [List.length_append, List.length_singleton] at hlen hpre'
    refine ⟨pre', by omega, ?_⟩
    rw [List.range'_succ, List.foldl_cons, divStep_append, hf', divTail, ← hpre', List.append_assoc]
    rfl

/-- The remainder of a dividend that is long enough: what the steps leave (R141). -/
theorem divRem_eq_divTail (t : GfTables) (a : List Byte) (shift : Nat) (e : Byte) (es : List Byte)
    (h : es.length ≤ a.length + shift) :
    divRem t a shift (e :: es) = divTail t es (a.length + shift - es.length) (divLoad a shift) := by
  obtain ⟨pre, hpre, hrun⟩ := foldl_divStep_append t e es (pre := []) (work := divLoad a shift)
    (n := a.length + shift - es.length) (by rw [divLoad_length]; exact Nat.sub_le _ _)
  rw [List.length_nil, Nat.zero_add] at hpre
  have hsteps : divRun t a shift (e :: es)
      = pre ++ divTail t es (a.length + shift - es.length) (divLoad a shift) := by
    rw [divRun, List.length_cons, Nat.add_sub_cancel, List.range_eq_range']
    exact hrun
  rw [divRem, divTake, divRun_length, List.length_cons, Nat.add_sub_cancel, Nat.sub_eq_zero_of_le h, hsteps]
  exact List.drop_left' hpre

/-! ## The laws for any tables (R142 laws 1, 4, 5) -/

/-- A dividend of at most b_deg coefficients takes no step, and is padded (R141). -/
theorem divRem_of_short (t : GfTables) (a : List Byte) (shift : Nat) (e : Byte) (es : List Byte)
    (h : a.length + shift ≤ es.length) : divRem t a shift (e :: es)
      = List.replicate (es.length - (a.length + shift)) 0 ++ (a ++ List.replicate shift 0) := by
  rw [divRem, divTake, divRun_length, divRun, List.length_cons, Nat.add_sub_cancel, Nat.sub_eq_zero_of_le h,
    List.range_zero, List.foldl_nil, List.drop_zero, divLoad]

theorem divRem_first_irrelevant (t : GfTables) (a : List Byte) (shift : Nat) (e e' : Byte) (es : List Byte) :
    divRem t a shift (e :: es) = divRem t a shift (e' :: es) := by
  obtain h | h := Nat.le_total es.length (a.length + shift)
  · rw [divRem_eq_divTail t a shift e es h, divRem_eq_divTail t a shift e' es h]
  · rw [divRem_of_short t a shift e es h, divRem_of_short t a shift e' es h]

/-- The exponent 255 read as 0. -/
def foldedExponent (x : Byte) : Byte := if x = 255 then 0 else x

theorem scale_foldedExponent (t : GfTables) (f x : Byte) :
    t.scale f (foldedExponent x).toNat = t.scale f x.toNat := by
  rw [foldedExponent]
  split
  next h =>
    rw [h]
    exact gfScale_mod t f 255
  · rfl

theorem divStep_map_foldedExponent (t : GfTables) (es work : List Byte) (off : Nat) :
    divStep t (es.map foldedExponent) work off = divStep t es work off := by
  simp only [divStep, List.map_map, Function.comp_def, scale_foldedExponent]

theorem divRem_map_foldedExponent (t : GfTables) (a : List Byte) (shift : Nat) (es : List Byte) :
    divRem t a shift (es.map foldedExponent) = divRem t a shift es := by
  have hstep : divStep t (es.map foldedExponent) = divStep t es :=
    funext fun work => funext fun off => divStep_map_foldedExponent t es work off
  rw [divRem, divRun, List.length_map, hstep]
  rfl

/-- A zero leading coefficient takes nothing away. -/
theorem foldl_divStep_zeros (t : GfTables) (es : List Byte) (n : Nat) (offs : List Nat) :
    offs.foldl (divStep t es) (List.replicate n 0) = List.replicate n 0 := by
  induction offs with
  | nil => rfl
  | cons off offs ih =>
    have hlead : (List.replicate n (0 : Byte)).getD off 0 = 0 := by
      rw [List.getD_eq_getElem?_getD, List.getElem?_replicate]
      split <;> rfl
    rw [List.foldl_cons, divStep, hlead]
    exact ih

theorem divRem_of_zeros (t : GfTables) {a : List Byte} (ha : ∀ x ∈ a, x = 0) (shift : Nat) (es : List Byte) :
    divRem t a shift es = List.replicate (es.length - 1) 0 := by
  have hload : divLoad a shift = List.replicate (a.length + shift) 0 := by
    rw [divLoad, List.eq_replicate_of_mem ha, List.length_replicate, List.replicate_append_replicate]
  rw [divRem, divTake, divRun_length, divRun, hload, foldl_divStep_zeros, List.drop_replicate,
    List.replicate_append_replicate]
  congr 1
  omega

/-- Settles O41: the steps do not depend on the first exponent, they read the others through `scale`, a zero leading
coefficient takes nothing away, and a short dividend takes no step. -/
theorem remainderLawsOfTheDivision : Obligations.RemainderLawsOfTheDivision :=
  fun t a shift => ⟨divRem_first_irrelevant t a shift, divRem_map_foldedExponent t a shift,
    fun es ha => divRem_of_zeros t ha shift es, divRem_of_short t a shift⟩

/-! ## Quotient and remainder (R142 law 2) -/

theorem zipWith_xor_cancel {xs zs : List Byte} (h : xs.length = zs.length) :
    List.zipWith (· ^^^ ·) (List.zipWith (· ^^^ ·) xs zs) zs = xs := by
  refine List.ext_getElem (by simp [h]) fun i h₁ h₂ => ?_
  rw [List.getElem_zipWith, List.getElem_zipWith, BitVec.xor_assoc, BitVec.xor_self, BitVec.xor_zero]

theorem eq_zipWith_xor_iff {xs ys zs : List Byte} (hx : xs.length = zs.length) (hy : ys.length = zs.length) :
    xs = List.zipWith (· ^^^ ·) ys zs ↔ List.zipWith (· ^^^ ·) xs zs = ys :=
  ⟨fun h => by rw [h, zipWith_xor_cancel hy], fun h => by rw [← h, zipWith_xor_cancel hx]⟩

theorem zipWith_xor_zeros (xs : List Byte) : List.zipWith (· ^^^ ·) xs (List.replicate xs.length 0) = xs :=
  List.ext_getElem (by simp) fun i h₁ h₂ => by
    rw [List.getElem_zipWith, List.getElem_replicate]
    exact byte_xor_zero _

theorem xorInto_eq_zipWith (ds : List Byte) {ws : List Byte} {n : Nat} (h : ws.length = ds.length + n) :
    xorInto 0 ds ws = List.zipWith (· ^^^ ·) ws (ds ++ List.replicate n 0) := by
  induction ds generalizing ws with
  | nil =>
    obtain rfl : ws.length = n := by rw [h, List.length_nil, Nat.zero_add]
    rw [List.nil_append, zipWith_xor_zeros]
    cases ws <;> rfl
  | cons d ds ih =>
    obtain ⟨w, ws, rfl⟩ := List.exists_cons_of_length_pos (l := ws) (by rw [h, List.length_cons]; omega)
    rw [xorInto, ih (by rw [List.length_cons, List.length_cons] at h; omega)]
    rfl

/-- f times the divisor past its leading coefficient, with n coefficients of WORK behind it. -/
def multiple (f : Byte) (es : List Byte) (n : Nat) : List Byte :=
  (fromExponents es).map (fieldProduct f) ++ List.replicate n 0

theorem multiple_length (f : Byte) (es : List Byte) (n : Nat) : (multiple f es n).length = es.length + n := by
  simp [multiple, fromExponents]

/-- The tables' scaling is the field's: a step takes away the leading coefficient's multiple of the divisor. -/
theorem divNext_eq_zipWith (t : GfTables) (es : List Byte) (f : Byte) {rest : List Byte} {n : Nat}
    (h : rest.length = es.length + n) :
    divNext (gfBuild t) es f rest = List.zipWith (· ^^^ ·) rest (multiple f es n) := by
  have hscale : es.map (fun x => (gfBuild t).scale f x.toNat) = (fromExponents es).map (fieldProduct f) := by
    rw [fromExponents, List.map_map]
    exact List.map_congr_left fun x _ => by rw [gfScale_eq_mul_alpha, gfMul_eq_fieldProduct]; rfl
  rw [divNext]
  split
  next hf =>
    have hzero : multiple f es n = List.replicate rest.length 0 := by
      rw [hf, multiple, funext fieldProduct_zero_left, List.map_const', List.replicate_append_replicate,
        fromExponents, List.length_map, h]
    rw [hzero, zipWith_xor_zeros]
  next => rw [hscale, xorInto_eq_zipWith _ (by rw [List.length_map, fromExponents, List.length_map, h]), multiple]

theorem quotientTimesPlus_cons (es : List Byte) (q : Byte) (qs r : List Byte) :
    quotientTimesPlus (fromExponents (0 :: es)) (q :: qs) r
      = q :: List.zipWith (· ^^^ ·) (quotientTimesPlus (fromExponents (0 :: es)) qs r) (multiple q es qs.length) := by
  have hlead : (0 : Byte) ^^^ fieldProduct q (alpha (0 : Byte).toNat) = q := by
    rw [fieldProduct_alpha_right]
    exact BitVec.zero_xor
  exact congrArg (· :: _) hlead

theorem quotientTimesPlus_length {es r : List Byte} (hr : r.length = es.length) (qs : List Byte) :
    (quotientTimesPlus (fromExponents (0 :: es)) qs r).length = es.length + qs.length := by
  induction qs with
  | nil => exact hr
  | cons q qs ih =>
    rw [quotientTimesPlus_cons, List.length_cons, List.length_zipWith, ih, multiple_length, Nat.min_self]
    rfl

/-- The quotient's first coefficient is the dividend's, and the others are the quotient of what the step leaves. -/
theorem cons_eq_quotientTimesPlus_iff (t : GfTables) {es r rest qs : List Byte} {f q : Byte}
    (hr : r.length = es.length) (hrest : rest.length = es.length + qs.length) :
    f :: rest = quotientTimesPlus (fromExponents (0 :: es)) (q :: qs) r
      ↔ f = q ∧ divNext (gfBuild t) es f rest = quotientTimesPlus (fromExponents (0 :: es)) qs r := by
  rw [quotientTimesPlus_cons, List.cons.injEq]
  refine and_congr_right fun hf => ?_
  rw [hf, divNext_eq_zipWith t es q hrest]
  exact eq_zipWith_xor_iff (by rw [hrest, multiple_length]) (by rw [quotientTimesPlus_length hr, multiple_length])

theorem divTail_length (t : GfTables) (es : List Byte) {n k : Nat} {work : List Byte} (h : work.length = k + n) :
    (divTail t es n work).length = k := by
  induction n generalizing work with
  | zero => exact h
  | succ n ih =>
    obtain ⟨f, rest, rfl⟩ := List.exists_cons_of_length_pos (l := work) (by rw [h]; omega)
    rw [divTail]
    exact ih (by rw [divNext_length]; exact Nat.succ.inj h)

/-- The leading coefficients that the steps take away are a quotient. -/
theorem exists_quotient (t : GfTables) (es : List Byte) {n : Nat} {work : List Byte} (h : work.length = es.length + n) :
    ∃ qs, qs.length = n
      ∧ work = quotientTimesPlus (fromExponents (0 :: es)) qs (divTail (gfBuild t) es n work) := by
  induction n generalizing work with
  | zero => exact ⟨[], rfl, rfl⟩
  | succ n ih =>
    obtain ⟨f, rest, rfl⟩ := List.exists_cons_of_length_pos (l := work) (by rw [h]; omega)
    have hrest : rest.length = es.length + n := Nat.succ.inj h
    have hnext : (divNext (gfBuild t) es f rest).length = es.length + n := by rw [divNext_length, hrest]
    obtain ⟨qs, hlen, hqs⟩ := ih hnext
    refine ⟨f :: qs, congrArg Nat.succ hlen, ?_⟩
    rw [cons_eq_quotientTimesPlus_iff t (divTail_length _ _ h) (by rw [hrest, hlen])]
    exact ⟨rfl, hqs⟩

/-- Whatever the quotient is, the steps leave its remainder. -/
theorem divTail_quotientTimesPlus (t : GfTables) {es r : List Byte} (hr : r.length = es.length) {qs work : List Byte}
    (h : work = quotientTimesPlus (fromExponents (0 :: es)) qs r) : divTail (gfBuild t) es qs.length work = r := by
  induction qs generalizing work with
  | nil => exact h
  | cons q qs ih =>
    have hlen : work.length = es.length + (qs.length + 1) := by rw [h, quotientTimesPlus_length hr]; rfl
    obtain ⟨f, rest, rfl⟩ := List.exists_cons_of_length_pos (l := work) (by omega)
    exact ih ((cons_eq_quotientTimesPlus_iff t hr (Nat.succ.inj hlen)).1 h).2

/-- Settles O42: the remainder is what the steps leave, their leading coefficients are the quotient, and every other
quotient and remainder go through the same steps. -/
theorem divisionGivesTheUniqueRemainder : Obligations.DivisionGivesTheUniqueRemainder := by
  intro s hok hvalid a shift es hlong
  rw [hok.gfBuilt hvalid]
  have hrem := divRem_eq_divTail (gfBuild ⟨[], []⟩) a shift 0 es hlong
  have hload : (divLoad a shift).length = es.length + (a.length + shift - es.length) := by
    rw [divLoad_length, Nat.add_sub_cancel' hlong]
  refine ⟨divRem_length _ _ _ _, ?_, fun q r hr hq => ?_⟩
  · obtain ⟨qs, -, hqs⟩ := exists_quotient _ es hload
    exact ⟨qs, by rw [hrem]; exact hqs⟩
  · have hlen := congrArg List.length hq
    rw [quotientTimesPlus_length hr, ← divLoad, hload] at hlen
    rw [hrem, Nat.add_left_cancel hlen]
    exact (divTail_quotientTimesPlus _ hr hq).symm

end Sys2Proof.Proofs.Remainder
end

