-- ==== Sys2Proof/Proofs/BlockCommands.lean ====
section
/-! SUPPORT. The commands that write a block: POLY_DIV and its equality with ECC_ENCODE (42_division R146, R150),
INTERLEAVE (43_interleaver R173, R174). -/

namespace Sys2Proof.Proofs.BlockCommands

open Sys2Proof Sys2Proof.Machine Sys2Proof.Proofs.Commands Sys2Proof.Proofs.TableCommands

/-! ## POLY_DIV and ECC_ENCODE -/

/-- POLY_DIV without an error: its checks pass, and its operands are written (R146). -/
theorem exec_polyDiv {aDeg bDeg aShift : Nat} {s : State} {a e : List Byte} (hgf : s.status.gfValid = true)
    (hdeg : 1 ≤ bDeg) (hdeg' : bDeg ≤ 68) (hsum : aDeg + 1 + aShift ≤ 191)
    (ha : s.mem.readBlock Buffer.bufA.base (aDeg + 1) = some a)
    (he : s.mem.readBlock Buffer.bufB.base (bDeg + 1) = some e) :
    exec (.polyDiv aDeg bDeg aShift) s
      = .next (((s.writeBuffer .bufOut (divRem s.gf a aShift e)).releaseWork).complete bDeg) := by
  have hchecks : firstError (checks (.polyDiv aDeg bDeg aShift) s) = none := by
    simp [checks, State.needsGf, hgf, Division.badDegree_eq_false hdeg hdeg', workMax_lt_iff, Nat.not_lt.2 hsum]
  rw [exec_eq_body hchecks, body, withOperand_of_written ha, withOperand_of_written he]

/-- Settles O43: the block written to BUF_OUT is the remainder, which has B_DEG coefficients. -/
theorem polyDivWritesTheRemainder : Obligations.PolyDivWritesTheRemainder := by
  intro aDeg bDeg aShift s a e hgf hdeg hdeg' hsum ha hreadA he hreadE
  have hA : s.mem.readBlock Buffer.bufA.base (aDeg + 1) = some a :=
    (Memory.readBlock_eq_some_iff _ _ _ _).2 ⟨ha, fun k hk => hreadA k (Nat.le_of_lt_succ hk)⟩
  have hE : s.mem.readBlock Buffer.bufB.base (bDeg + 1) = some e :=
    (Memory.readBlock_eq_some_iff _ _ _ _).2 ⟨he, fun k hk => hreadE k (Nat.le_of_lt_succ hk)⟩
  have hlen : (divRem s.gf a aShift e).length = bDeg := by rw [divRem_length, he, Nat.add_sub_cancel]
  refine ⟨_, exec_polyDiv hgf hdeg hdeg' hsum hA hE, rfl, fun k hk => ?_, fun x hx => ?_⟩
  · exact Memory.read_writeBlock_inside _ _ _ k (by rwa [hlen])
  · exact Memory.read_writeBlock_outside _ _ _ x (by rwa [hlen])

/-- Settles O45: BUF_B reads as the generator's row, and `eccOf` is the remainder by it. -/
theorem eccEncodeIsDivisionByTheGenerator : Obligations.EccEncodeIsDivisionByTheGenerator := by
  intro msgLen eccCount s hgf hgen hecc hecc' hmsg hsum hwritten hrow
  obtain ⟨m, hm⟩ : ∃ m, s.mem.readBlock Buffer.bufA.base msgLen = some m :=
    BuildMatrix.exists_readBlock_eq_some hwritten
  have hB : s.mem.readBlock Buffer.bufB.base (eccCount + 1) = some (genRow s.gen eccCount) :=
    (Memory.readBlock_eq_some_iff _ _ _ _).2 ⟨genRow_length _ _, fun j hj => by
      rw [genRow_getD s.gen (Nat.le_of_lt_succ hj)]
      exact hrow j (Nat.le_of_lt_succ hj)⟩
  have hsucc : msgLen - 1 + 1 = msgLen := Nat.sub_add_cancel hmsg
  exact ⟨_, Division.execEccEncode_eq hgen hecc hecc' hmsg hsum hm,
    exec_polyDiv hgf hecc hecc' (by rwa [hsucc]) (by rwa [hsucc]) hB⟩

/-! ## INTERLEAVE -/

/-- Settles O47: the block written to STREAM has TOTAL_CW bytes, a number that both lengths hold. -/
theorem interleaveFillsTheStream : Obligations.InterleaveFillsTheStream := by
  intro v l s hgen hv hv' hcap hwritten
  obtain ⟨data, hdata⟩ : ∃ data, s.mem.readBlock Buffer.data.base s.dataLength = some data :=
    BuildMatrix.exists_readBlock_eq_some hwritten
  have hlen : (interleave s.gf s.gen (blockSpec v l) data).length = totalCodewords v :=
    interleave_length_eq hv hv' l _ _ data
  have hmax : totalCodewords v ≤ 3706 := totalCodewords_le v (Nat.lt_succ_of_le hv')
  refine ⟨_, hlen ▸ Interleaver.execInterleave_eq hgen hv hv' hcap hdata, rfl, ?_, ?_, fun q hq => ?_, fun x hx => ?_⟩
  · exact Nat.mod_eq_of_lt (by omega)
  · exact Nat.mod_eq_of_lt (by omega)
  · exact Option.isSome_of_eq_some (Memory.read_writeBlock_inside _ _ _ q (by rwa [hlen]))
  · exact Memory.read_writeBlock_outside _ _ _ x (by rwa [hlen])

end Sys2Proof.Proofs.BlockCommands
end

