-- ==== Sys2Proof/Proofs/FinishedGrid.lean ====
section
/-! SUPPORT. The function patterns in the finished grid (44_matrix R203–R214). Phases A to C are six parts that name no
cell in common (the alignment patterns and the timing strips are one part: they cross, in the same colours), and phase D
writes none of their cells; so a part's cell holds the part's colour. -/

namespace Sys2Proof.Proofs.FinishedGrid

open Sys2Proof Sys2Proof.Machine Sys2Proof.Proofs.FunctionCells Sys2Proof.Proofs.DataCells

/-! ## The value that a list of writes leaves -/

section
variable {r c : Nat}

/-- A cell that some write names has a property of all that is written to it, and so has one that had it before. -/
theorem get_apply_of_writes {P : Byte → Prop} {g : Grid} {ws : List CellWrite} (hs : g.cells.size = g.side * g.side)
    (hr : r < g.side) (hc : c < g.side) (hw : ∀ w ∈ ws, w.1 = r → w.2.1 = c → P w.2.2)
    (h : P (g.get r c) ∨ Names ws r c) : P ((g.apply ws).get r c) := by
  induction ws generalizing g with
  | nil => exact h.resolve_right names_nil
  | cons w ws ih =>
    rw [List.forall_mem_cons] at hw
    rw [names_cons, ← or_assoc] at h
    rw [Grid.apply_cons]
    refine ih (by simp [hs]) (by simpa using hr) (by simpa using hc) hw.2 (h.imp_left fun hput => ?_)
    by_cases hin : w.1 < g.side ∧ w.2.1 < g.side
    · rw [Grid.get_put g w r c hs hin.1 hin.2 hc]
      split
      next hrc => exact hw.1 hrc.1 hrc.2
      next hrc => exact hput.resolve_right hrc
    · rw [Grid.put, if_neg hin]
      exact hput.resolve_right fun hrc => hin (by rw [hrc.1, hrc.2]; exact ⟨hr, hc⟩)

/-- Every write of the list to the cell (r, c) is of x. -/
def Writes (ws : List CellWrite) (r c : Nat) (x : Byte) : Prop := ∀ w ∈ ws, w.1 = r → w.2.1 = c → w.2.2 = x

variable {x : Byte}

@[simp] theorem writes_nil : Writes [] r c x := List.forall_mem_nil _

@[simp] theorem writes_cons (w : CellWrite) (ws : List CellWrite) :
    Writes (w :: ws) r c x ↔ (w.1 = r → w.2.1 = c → w.2.2 = x) ∧ Writes ws r c x := List.forall_mem_cons

@[simp] theorem writes_append (ws vs : List CellWrite) : Writes (ws ++ vs) r c x ↔ Writes ws r c x ∧ Writes vs r c x :=
  List.forall_mem_append

@[simp] theorem writes_flatMap {α : Type} (xs : List α) (f : α → List CellWrite) :
    Writes (xs.flatMap f) r c x ↔ ∀ y ∈ xs, Writes (f y) r c x := List.forall_mem_flatMap

/-- The writes of a square block: one of each of its cells. -/
theorem writes_square {n top left : Nat} {f : Nat → Nat → Byte}
    (h : ∀ i < n, ∀ j < n, top + i = r → left + j = c → f i j = x) :
    Writes ((List.range n).flatMap fun i => (List.range n).map fun j => (top + i, left + j, f i j)) r c x := by
  intro w hw hr hc
  obtain ⟨i, hi, hw⟩ := List.mem_flatMap.1 hw
  obtain ⟨j, hj, rfl⟩ := List.mem_map.1 hw
  exact h i (List.mem_range.1 hi) j (List.mem_range.1 hj) hr hc

/-! ## Cells of the function patterns -/

variable {v : Nat}

theorem functionGrid_size_eq (v : Nat) (l : Level) (m : Nat) :
    (functionGrid v l m).cells.size = (functionGrid v l m).side * (functionGrid v l m).side := by
  rw [functionGrid_size, functionGrid_side]

/-- A cell that phases A to C name is set, so that it is no data cell. -/
theorem get_functionGrid_ne_unset (hv : 1 ≤ v) (hv' : v ≤ 40) {l : Level} {m : Nat}
    (h : Names (functionWrites v l m) r c) : (functionGrid v l m).get r c ≠ unsetCell := by
  obtain ⟨⟨hr, hc⟩, hcell⟩ := (names_functionWrites hv hv' l m).1 h
  rw [ne_eq, get_functionGrid_eq_unset_iff hv hv' l m hr hc]
  rintro ⟨⟨hr6, hc6⟩, hpattern⟩
  exact hcell.elim hr6 (Or.elim · hc6 hpattern)

theorem mem_dataOrder_of_mem_phaseD {v m : Nat} {stream : List Byte} {order : List (Nat × Nat)} {w : CellWrite}
    (h : w ∈ phaseD v m stream order) : (w.1, w.2.1) ∈ order := by
  obtain ⟨p, hp, rfl⟩ := List.mem_map.1 h
  exact (List.mem_zipIdx' hp).2 ▸ List.getElem_mem _

/-- Phase D leaves the cells of the function patterns. -/
theorem get_buildGrid_of_named (hv : 1 ≤ v) (hv' : v ≤ 40) {l : Level} {m : Nat} (stream : List Byte)
    (h : Names (functionWrites v l m) r c) : (buildGrid v l m stream).get r c = (functionGrid v l m).get r c := by
  obtain ⟨⟨hr, hc⟩, -⟩ := (names_functionWrites hv hv' l m).1 h
  refine Grid.get_apply_other _ _ _ _ (functionGrid_size_eq v l m) (by rwa [functionGrid_side]) ?_
  rintro w hw ⟨rfl, rfl⟩
  exact get_functionGrid_ne_unset hv hv' h ((mem_dataOrder _ _ _).1 (mem_dataOrder_of_mem_phaseD hw)).2

/-! ## The parts of phases A to C -/

/-- Phases A to C, as lists of writes that name no cell in common. -/
def parts (v : Nat) (l : Level) (m : Nat) : List (List CellWrite) :=
  [finders (sideOf v), separators (sideOf v), darkModule (sideOf v), alignmentPatterns v ++ timing (sideOf v),
    if 7 ≤ v then phaseB v else [], phaseC v l m]

theorem flatten_parts (v : Nat) (l : Level) (m : Nat) : (parts v l m).flatten = functionWrites v l m := by
  simp [parts, functionWrites, phaseA]

theorem names_optional {p : Prop} [Decidable p] {ws : List CellWrite} :
    Names (if p then ws else []) r c ↔ p ∧ Names ws r c := by
  split
  next hp => exact (and_iff_right hp).symm
  next hp => exact ⟨fun h => absurd h names_nil, fun h => absurd h.1 hp⟩

/-- The alignment patterns keep off the corners and the version blocks (R206). -/
theorem outside_of_names_alignmentPatterns (hv : v < 41) (h : Names (alignmentPatterns v) r c) :
    (¬ (r ≤ 8 ∧ c ≤ 8) ∧ ¬ (r ≤ 8 ∧ sideOf v - 8 ≤ c) ∧ ¬ (sideOf v - 8 ≤ r ∧ c ≤ 8))
      ∧ ¬ (sideOf v - 11 ≤ r ∧ c < 6) ∧ ¬ (r < 6 ∧ sideOf v - 11 ≤ c) := by
  obtain ⟨p, hp, hr, hc⟩ := names_alignmentPatterns.1 h
  obtain ⟨hpr, hpc, hzone⟩ := mem_alignmentCentres.1 hp
  have hrow := eq_last_or_le_of_mem_align v hv _ hpr
  have hcol := eq_last_or_le_of_mem_align v hv _ hpc
  rw [sideOf] at hzone ⊢
  obtain ⟨h1, h2, h3⟩ := meetsZone_eq_false_iff.1 hzone
  refine ⟨⟨?_, ?_, ?_⟩, ?_, ?_⟩ <;> omega

theorem pairwise_parts (hv : 1 ≤ v) (hv' : v ≤ 40) (l : Level) (m : Nat) (r c : Nat) :
    (parts v l m).Pairwise fun ws vs => ¬ (Names ws r c ∧ Names vs r c) := by
  have hside : 21 ≤ sideOf v := le_sideOf hv
  have halign := outside_of_names_alignmentPatterns (r := r) (c := c) (Nat.lt_succ_of_le hv')
  generalize hA : Names (alignmentPatterns v) r c = A at halign
  simp only [parts, List.pairwise_cons, List.forall_mem_cons, List.not_mem_nil, false_implies, implies_true, and_true,
    List.Pairwise.nil, names_append, names_finders, names_separators hside, names_darkModule, names_timing, hA,
    names_optional, names_phaseB hv, names_phaseC hv]
  by_cases h : A
  · obtain ⟨⟨h1, h2, h3⟩, h4, h5⟩ := halign h
    simp only [h, true_or]
    omega
  · simp only [h, false_or]
    omega

/-- A part's cell holds the colour that all of the part's writes give it. -/
theorem get_buildGrid_of_part (hv : 1 ≤ v) (hv' : v ≤ 40) {l : Level} {m : Nat} {ws : List CellWrite}
    (hws : ws ∈ parts v l m) (hn : Names ws r c) (hx : Writes ws r c x) (stream : List Byte) :
    (buildGrid v l m stream).get r c = x := by
  have hnamed : Names (functionWrites v l m) r c := by
    obtain ⟨w, hw, hrc⟩ := hn
    exact ⟨w, flatten_parts v l m ▸ List.mem_flatten_of_mem hws hw, hrc⟩
  have hwrites : Writes (functionWrites v l m) r c x := by
    intro w hw hwr hwc
    obtain ⟨vs, hvs, hw⟩ := List.mem_flatten.1 (flatten_parts v l m ▸ hw)
    obtain rfl : ws = vs :=
      Decoder.eq_of_pairwise_not And.symm (pairwise_parts hv hv' l m r c) hws hvs ⟨hn, w, hw, hwr, hwc⟩
    exact hx w hw hwr hwc
  obtain ⟨⟨hr, hc⟩, -⟩ := (names_functionWrites hv hv' l m).1 hnamed
  rw [get_buildGrid_of_named hv hv' stream hnamed]
  exact get_apply_of_writes (P := (· = x)) (Grid.blank_size _) hr hc hwrites (.inr hnamed)

end

/-! ## Finders, separators, the dark module and the timing strips (R203–R205, R209) -/

section
variable {v r c : Nat} {x : Byte}

/-- The finder's rings, as R203 draws them. -/
theorem finder_colour : ∀ i < 7, ∀ j < 7, cellOf (max (distance i 3) (distance j 3) ≠ 2)
    = if (i = 1 ∨ i = 5 ∨ j = 1 ∨ j = 5) ∧ 1 ≤ i ∧ i ≤ 5 ∧ 1 ≤ j ∧ j ≤ 5 then 0 else 1 := by decide

theorem writes_finder {top left : Nat} (h : ∀ i < 7, ∀ j < 7, top + i = r → left + j = c →
      cellOf (max (distance i 3) (distance j 3) ≠ 2) = x) : Writes (finder top left) r c x := writes_square h

/-- The first line of a finder, and with it all seven, is at the near or at the far end. -/
def FinderLine (side a : Nat) : Prop := a = 0 ∨ a = side - 7

theorem finderLines_of_mem {side : Nat} {p : Nat × Nat} (hp : p ∈ [(0, 0), (0, side - 7), (side - 7, 0)]) :
    FinderLine side p.1 ∧ FinderLine side p.2 := by
  simp only [List.mem_cons, List.not_mem_nil, or_false] at hp
  obtain rfl | rfl | rfl := hp
  · exact ⟨.inl rfl, .inl rfl⟩
  · exact ⟨.inl rfl, .inr rfl⟩
  · exact ⟨.inr rfl, .inl rfl⟩

theorem eq_of_finderLine_eq {side a b i j : Nat} (hside : 21 ≤ side) (ha : FinderLine side a) (hb : FinderLine side b)
    (hi : i < 7) (hj : j < 7) (h : a + i = b + j) : i = j := by
  rw [FinderLine] at ha hb
  omega

/-- A finder's cell: the other two finders are elsewhere. -/
theorem writes_finders {side a b i j : Nat} (hside : 21 ≤ side) (ha : FinderLine side a) (hb : FinderLine side b)
    (hi : i < 7) (hj : j < 7) :
    Writes (finders side) (a + i) (b + j) (cellOf (max (distance i 3) (distance j 3) ≠ 2)) := by
  have hcell : ∀ {top left : Nat}, FinderLine side top → FinderLine side left →
      Writes (finder top left) (a + i) (b + j) (cellOf (max (distance i 3) (distance j 3) ≠ 2)) := by
    intro top left htop hleft
    refine writes_finder fun i' hi' j' hj' hr hc => ?_
    rw [eq_of_finderLine_eq hside htop ha hi' hi hr, eq_of_finderLine_eq hside hleft hb hj' hj hc]
  rw [finders, writes_append, writes_append]
  exact ⟨hcell (.inl rfl) (.inl rfl), hcell (.inl rfl) (.inr rfl), hcell (.inr rfl) (.inl rfl)⟩

theorem writes_separators (side r c : Nat) : Writes (separators side) r c 0 := by
  simp only [separators, writes_flatMap, writes_cons, writes_nil, implies_true, and_self]

theorem writes_darkModule (side r c : Nat) : Writes (darkModule side) r c 1 := by
  simp only [darkModule, writes_cons, writes_nil, implies_true, and_self]

/-- The alternating colours of R209. -/
theorem cellOf_even (k : Nat) : cellOf (k % 2 = 0) = if k % 2 = 0 then 1 else 0 := by
  simp only [cellOf, decide_eq_true_eq]

theorem writes_timing_row (side k : Nat) : Writes (timing side) 6 k (cellOf (k % 2 = 0)) := by
  simp only [timing, writes_flatMap, writes_cons, writes_nil, and_true]
  refine fun i _ => ⟨fun _ hk => ?_, fun h => absurd h (by omega)⟩
  rw [← hk, show (8 + i) % 2 = i % 2 by omega]

theorem writes_timing_column (side k : Nat) : Writes (timing side) k 6 (cellOf (k % 2 = 0)) := by
  simp only [timing, writes_flatMap, writes_cons, writes_nil, and_true]
  refine fun i _ => ⟨fun _ h => absurd h (by omega), fun hk _ => ?_⟩
  rw [← hk, show (8 + i) % 2 = i % 2 by omega]

/-! ## Alignment patterns (R206) -/

theorem even_of_mem_align : ∀ v < 41, ∀ a ∈ align v, a % 2 = 0 := by decide

/-- The alignment pattern's rings, as R206 draws them. -/
theorem alignment_colour : ∀ i < 5, ∀ j < 5, cellOf (max (distance i 2) (distance j 2) ≠ 1)
    = if (i = 1 ∨ i = 3 ∨ j = 1 ∨ j = 3) ∧ 1 ≤ i ∧ i ≤ 3 ∧ 1 ≤ j ∧ j ≤ 3 then 0 else 1 := by decide

/-- The alignment pattern's middle row and column alternate, as the timing strips do. -/
theorem alignment_colour_middle : ∀ j < 5, cellOf (max (distance 2 2) (distance j 2) ≠ 1) = cellOf (j % 2 = 0)
    ∧ cellOf (max (distance j 2) (distance 2 2) ≠ 1) = cellOf (j % 2 = 0) := by decide

theorem ge_six_of_mem_align (hv : v < 41) {a : Nat} (ha : a ∈ align v) : 6 ≤ a := by
  obtain rfl | h := eq_first_or_le_of_mem_align v hv a ha
  · exact Nat.le_refl 6
  · exact Nat.le_trans (by decide) h

/-- Two alignment patterns with a line in common have the same centre line. -/
theorem eq_of_line_eq (hv : v < 41) {a b i j : Nat} (ha : a ∈ align v) (hb : b ∈ align v) (hi : i < 5) (hj : j < 5)
    (h : a - 2 + i = b - 2 + j) : a = b ∧ i = j := by
  have ha6 := ge_six_of_mem_align hv ha
  have hb6 := ge_six_of_mem_align hv hb
  obtain rfl | h' := eq_or_apart_of_mem_align v hv a ha b hb
  · exact ⟨rfl, Nat.add_left_cancel h⟩
  · omega

/-- A line of an alignment pattern on the timing line 6 is the pattern's middle. -/
theorem eq_of_line_eq_six (hv : v < 41) {a i : Nat} (ha : a ∈ align v) (hi : i < 5) (h : a - 2 + i = 6) :
    i = 2 := by
  obtain rfl | h' := eq_first_or_le_of_mem_align v hv a ha
  · omega
  · omega

theorem parity_line (hv : v < 41) {a : Nat} (ha : a ∈ align v) (i : Nat) : (a - 2 + i) % 2 = i % 2 := by
  have ha6 := ge_six_of_mem_align hv ha
  have heven := even_of_mem_align v hv a ha
  omega

/-- What the alignment patterns write to a cell, from what each of them writes. -/
theorem writes_alignmentPatterns (h : ∀ a ∈ align v, ∀ b ∈ align v, ∀ i < 5, ∀ j < 5, a - 2 + i = r → b - 2 + j = c →
    cellOf (max (distance i 2) (distance j 2) ≠ 1) = x) : Writes (alignmentPatterns v) r c x := by
  rw [alignmentPatterns, writes_flatMap]
  intro p hp
  obtain ⟨ha, hb, -⟩ := mem_alignmentCentres.1 hp
  exact writes_square (h p.1 ha p.2 hb)

theorem writes_alignmentPatterns_row (hv : v < 41) (k : Nat) :
    Writes (alignmentPatterns v) 6 k (cellOf (k % 2 = 0)) := by
  refine writes_alignmentPatterns fun a ha b hb i hi j hj hr hc => ?_
  rw [eq_of_line_eq_six hv ha hi hr, ← hc, parity_line hv hb]
  exact (alignment_colour_middle j hj).1

theorem writes_alignmentPatterns_column (hv : v < 41) (k : Nat) :
    Writes (alignmentPatterns v) k 6 (cellOf (k % 2 = 0)) := by
  refine writes_alignmentPatterns fun a ha b hb i hi j hj hr hc => ?_
  rw [eq_of_line_eq_six hv hb hj hc, ← hr, parity_line hv ha]
  exact (alignment_colour_middle i hi).2

/-- Where a pattern's cell lies on a timing strip, the strip has the pattern's colour. -/
theorem writes_timing_of_alignment (hv : v < 41) {a b i j : Nat} (ha : a ∈ align v) (hb : b ∈ align v) (hi : i < 5)
    (hj : j < 5) : Writes (timing (sideOf v)) (a - 2 + i) (b - 2 + j)
      (cellOf (max (distance i 2) (distance j 2) ≠ 1)) := by
  by_cases hr : a - 2 + i = 6
  · rw [hr, eq_of_line_eq_six hv ha hi hr, (alignment_colour_middle j hj).1, ← parity_line hv hb]
    exact writes_timing_row _ _
  by_cases hc : b - 2 + j = 6
  · rw [hc, eq_of_line_eq_six hv hb hj hc, (alignment_colour_middle i hi).2, ← parity_line hv ha]
    exact writes_timing_column _ _
  · intro w hw hwr hwc
    have hstrip := (names_timing (sideOf v)).1 ⟨w, hw, hwr, hwc⟩
    omega

end

/-- Settles O51: each of the patterns is a part, or lies in one, of phases A to C. -/
theorem functionPatternsStandInTheGrid : Obligations.FunctionPatternsStandInTheGrid := by
  intro v l m stream hv hv' _
  have hside : 21 ≤ sideOf v := le_sideOf hv
  have hlt : v < 41 := Nat.lt_succ_of_le hv'
  have hseparator : ∀ {r c : Nat}, Names (separators (sideOf v)) r c → (buildGrid v l m stream).get r c = 0 := fun h =>
    get_buildGrid_of_part hv hv' (by simp [parts]) h (writes_separators _ _ _) stream
  have htiming : alignmentPatterns v ++ timing (sideOf v) ∈ parts v l m := by simp [parts]
  refine ⟨fun p hp i hi j hj => ?_, fun k hk => ?_, ?_, fun k hk hk' => ?_⟩
  · rw [← finder_colour i hi j hj]
    obtain ⟨hrow, hcol⟩ := finderLines_of_mem hp
    refine get_buildGrid_of_part hv hv' (ws := finders (sideOf v)) (by simp [parts]) ?_
      (writes_finders hside hrow hcol hi hj) stream
    rw [names_finders]
    simp only [List.mem_cons, List.not_mem_nil, or_false] at hp
    obtain rfl | rfl | rfl := hp
    · exact .inl (by simp only; omega)
    · exact .inr (.inl (by simp only [sideOf]; omega))
    · exact .inr (.inr (by simp only [sideOf]; omega))
  · refine ⟨?_, ?_, ?_, ?_, ?_, ?_⟩ <;>
    · refine hseparator ((names_separators hside).2 ?_)
      rw [sideOf]
      omega
  · exact get_buildGrid_of_part hv hv' (ws := darkModule (sideOf v)) (by simp [parts])
      ((names_darkModule _).2 ⟨rfl, rfl⟩) (writes_darkModule _ _ _) stream
  · rw [← cellOf_even]
    exact ⟨get_buildGrid_of_part hv hv' htiming
        ((names_append _ _).2 (.inr ((names_timing _).2 (.inl ⟨rfl, hk, hk'⟩))))
        ((writes_append _ _).2 ⟨writes_alignmentPatterns_row hlt k, writes_timing_row _ k⟩) stream,
      get_buildGrid_of_part hv hv' htiming
        ((names_append _ _).2 (.inr ((names_timing _).2 (.inr ⟨hk, hk', rfl⟩))))
        ((writes_append _ _).2 ⟨writes_alignmentPatterns_column hlt k, writes_timing_column _ k⟩) stream⟩

/-- R207's closed form, over the 40 rows of the table. -/
theorem align_closed_form : ∀ v < 41, 2 ≤ v →
    (align v).length = v / 7 + 2 ∧ (align v).getD 0 0 = 6 ∧ (align v).getD (v / 7 + 2 - 1) 0 = 4 * v + 10
      ∧ ∀ i < v / 7 + 2, 1 ≤ i → (align v).getD i 0 = 4 * v + 10
        - (if v = 32 then 26 else 2 * ((4 * v + 2 * (v / 7 + 2) + 1) / (2 * (v / 7 + 2) - 2)))
          * (v / 7 + 2 - 1 - i) := by decide

/-- Settles O53: the table is finite, and the alignment patterns are in a part of phases A to C. -/
theorem alignmentPatternsStandInTheGrid : Obligations.AlignmentPatternsStandInTheGrid := by
  refine ⟨rfl, fun v hv hv' => ?_, fun v l m stream hv hv' _ a ha b hb hcorner i hi j hj => ?_⟩
  · obtain ⟨hlen, hfirst, hlast, hsteps⟩ := align_closed_form v (Nat.lt_succ_of_le hv') hv
    exact ⟨hlen, hfirst, hlast, fun i hi hi' => hsteps i hi' hi⟩
  · have hlt : v < 41 := Nat.lt_succ_of_le hv'
    have hzone : meetsZone (sideOf v) a b = false := by
      have hfirst := eq_first_or_le_of_mem_align v hlt
      have hlast := eq_last_or_le_of_mem_align v hlt
      have h1 := hfirst a ha
      have h2 := hfirst b hb
      have h3 := hlast a ha
      have h4 := hlast b hb
      rw [meetsZone_eq_false_iff, sideOf]
      omega
    have hnames : Names (alignmentPatterns v) (a - 2 + i) (b - 2 + j) :=
      names_alignmentPatterns.2 ⟨(a, b), mem_alignmentCentres.2 ⟨ha, hb, hzone⟩, by simp only; omega⟩
    have hwrites : Writes (alignmentPatterns v) (a - 2 + i) (b - 2 + j)
        (cellOf (max (distance i 2) (distance j 2) ≠ 1)) :=
      writes_alignmentPatterns fun a' ha' b' hb' i' hi' j' hj' hr hc => by
        rw [(eq_of_line_eq hlt ha' ha hi' hi hr).2, (eq_of_line_eq hlt hb' hb hj' hj hc).2]
    rw [← alignment_colour i hi j hj]
    exact get_buildGrid_of_part hv hv' (by simp [parts]) ((names_append _ _).2 (.inl hnames))
      ((writes_append _ _).2 ⟨hwrites, writes_timing_of_alignment hlt ha hb hi hj⟩) stream

/-! ## The version and format words (R211–R214) -/

theorem names_of_mem {ws : List CellWrite} {r c : Nat} {x : Byte} (h : (r, c, x) ∈ ws) : Names ws r c :=
  ⟨_, h, rfl, rfl⟩

/-- Version bit i stands at one place of each block. -/
theorem writes_phaseB {v : Nat} (hv : 7 ≤ v) (i : Nat) :
    Writes (phaseB v) (sideOf v - 11 + i % 3) (i / 3) (cellOf ((versionInfo v).getLsbD i))
      ∧ Writes (phaseB v) (i / 3) (sideOf v - 11 + i % 3) (cellOf ((versionInfo v).getLsbD i)) := by
  have hside : 45 ≤ sideOf v := le_sideOf hv
  simp only [phaseB, writes_flatMap, writes_cons, writes_nil, and_true, List.mem_range]
  refine ⟨fun k hk => ⟨fun h1 h2 => ?_, fun h1 h2 => ?_⟩, fun k hk => ⟨fun h1 h2 => ?_, fun h1 h2 => ?_⟩⟩
  · rw [show k = i by omega]
  · omega
  · omega
  · rw [show k = i by omega]

theorem mem_phaseB {v i : Nat} (hi : i < 18) :
    (sideOf v - 11 + i % 3, i / 3, cellOf ((versionInfo v).getLsbD i)) ∈ phaseB v
      ∧ (i / 3, sideOf v - 11 + i % 3, cellOf ((versionInfo v).getLsbD i)) ∈ phaseB v :=
  ⟨List.mem_flatMap.2 ⟨i, List.mem_range.2 hi, List.mem_cons_self⟩,
    List.mem_flatMap.2 ⟨i, List.mem_range.2 hi, List.mem_cons_of_mem _ List.mem_cons_self⟩⟩

theorem formatCell1_inj : ∀ i < 15, ∀ k < 15, formatCell1 k = formatCell1 i → k = i := by decide

theorem formatCell2_inj {side i k : Nat} (hside : 21 ≤ side) (hk : k < 15)
    (h : formatCell2 side k = formatCell2 side i) : k = i := by
  simp only [formatCell2] at h
  split at h <;> split at h <;>
  · rw [Prod.mk.injEq] at h
    omega

/-- The two copies of the format word have no cell in common. -/
theorem formatCell1_ne_formatCell2 {side i k : Nat} (hside : 21 ≤ side) (hi : i < 15) (hk : k < 15) :
    formatCell1 i ≠ formatCell2 side k := by
  intro h
  have h1 := exists_formatCell1.1 ⟨i, hi, rfl, rfl⟩
  have h2 := (exists_formatCell2 hside).1 ⟨k, hk, rfl, rfl⟩
  rw [h] at h1
  omega

/-- Format bit i stands at one place of each copy. -/
theorem writes_phaseC {v : Nat} (hv : 1 ≤ v) (l : Level) (m : Nat) {i : Nat} (hi : i < 15) {p : Nat × Nat}
    (hp : p = formatCell1 i ∨ p = formatCell2 (sideOf v) i) :
    Writes (phaseC v l m) p.1 p.2 (cellOf ((formatInfo l m).getLsbD i)) := by
  have hside : 21 ≤ sideOf v := le_sideOf hv
  simp only [phaseC, writes_flatMap, writes_cons, writes_nil, and_true, List.mem_range]
  refine fun k hk => ⟨fun h1 h2 => ?_, fun h1 h2 => ?_⟩
  · have hkp : formatCell1 k = p := Prod.ext h1 h2
    obtain hp | hp := hp
    · rw [formatCell1_inj i hi k hk (hkp.trans hp)]
    · exact absurd (hkp.trans hp) (formatCell1_ne_formatCell2 hside hk hi)
  · have hkp : formatCell2 (sideOf v) k = p := Prod.ext h1 h2
    obtain hp | hp := hp
    · exact absurd (hp.symm.trans hkp.symm) (formatCell1_ne_formatCell2 hside hi hk)
    · rw [formatCell2_inj hside hk (hkp.trans hp)]

theorem names_phaseC_formatCell (v : Nat) (l : Level) (m : Nat) {i : Nat} (hi : i < 15) {p : Nat × Nat}
    (hp : p = formatCell1 i ∨ p = formatCell2 (sideOf v) i) : Names (phaseC v l m) p.1 p.2 := by
  simp only [phaseC, names_flatMap, names_cons, names_nil, or_false, List.mem_range]
  refine ⟨i, hi, hp.imp (fun h => ?_) (fun h => ?_)⟩
  · exact ⟨congrArg Prod.fst h.symm, congrArg Prod.snd h.symm⟩
  · exact ⟨congrArg Prod.fst h.symm, congrArg Prod.snd h.symm⟩

/-- Settles O52: the version blocks and the two copies of the format word are parts of phases B and C. -/
theorem versionAndFormatWordsStandInTheGrid : Obligations.VersionAndFormatWordsStandInTheGrid := by
  intro v l m stream hv hv' _
  have hformat : ∀ i < 15, ∀ p : Nat × Nat, p = formatCell1 i ∨ p = formatCell2 (sideOf v) i →
      (buildGrid v l m stream).get p.1 p.2 = cellOf ((formatInfo l m).getLsbD i) := fun i hi p hp =>
    get_buildGrid_of_part hv hv' (ws := phaseC v l m) (by simp [parts]) (names_phaseC_formatCell v l m hi hp)
      (writes_phaseC hv l m hi hp) stream
  refine ⟨fun hv7 i hi => ?_, fun i hi => ?_, ?_, ?_, ?_, fun i hi hi' => ?_, fun i hi => ?_, fun i hi hi' => ?_⟩
  · have hpart : phaseB v ∈ parts v l m := by simp [parts, hv7]
    obtain ⟨hbottom, htop⟩ := mem_phaseB (v := v) hi
    obtain ⟨hbottom', htop'⟩ := writes_phaseB hv7 i
    exact ⟨get_buildGrid_of_part hv hv' hpart (names_of_mem hbottom) hbottom' stream,
      get_buildGrid_of_part hv hv' hpart (names_of_mem htop) htop' stream⟩
  · exact hformat i (by omega) (i, 8) (.inl (if_pos hi).symm)
  · exact hformat 6 (by decide) (7, 8) (.inl rfl)
  · exact hformat 7 (by decide) (8, 8) (.inl rfl)
  · exact hformat 8 (by decide) (8, 7) (.inl rfl)
  · refine hformat i hi' (8, 14 - i) (.inl ?_)
    rw [formatCell1, if_neg (by omega), if_neg (by omega), if_neg (by omega), if_neg (by omega)]
  · exact hformat i (by omega) (8, sideOf v - 1 - i) (.inr (if_pos hi).symm)
  · exact hformat i hi' (sideOf v - 15 + i, 8) (.inr (if_neg (by omega)).symm)

end Sys2Proof.Proofs.FinishedGrid
end

