-- ==== Sys2Proof/Proofs/BchWords.lean ====
section
/-! SUPPORT. The version and format words as words of their BCH codes (44_matrix R212, R215): the tables are finite. -/

namespace Sys2Proof.Proofs.BchWords

open Sys2Proof Sys2Proof.Machine

/-- The product without carries of g and q, q of n bits: the sum without carries of g, shifted to each bit of q. -/
def carrylessMul (n q g : Nat) : Nat :=
  (List.range n).foldl (fun acc i => acc ^^^ (if q.testBit i then g <<< i else 0)) 0

/-- The two bits of a format word that name its level (R215). -/
def levelIndicator (l : Level) : Nat := match l with | .low => 1 | .medium => 0 | .quartile => 3 | .high => 2

set_option maxRecDepth 1000 in
theorem versionInfo_bch : ∀ v < 41, 7 ≤ v → (versionInfo v).toNat / 2 ^ 12 = v
    ∧ ∃ q < 2 ^ 6, carrylessMul 6 q 0x1F25 = (versionInfo v).toNat := by decide

theorem formatInfo_bch (l : Level) : ∀ m < 8, ((formatInfo l m).toNat ^^^ 0x5412) / 2 ^ 10 = levelIndicator l * 8 + m
    ∧ ∃ q < 2 ^ 5, carrylessMul 5 q 0x537 = (formatInfo l m).toNat ^^^ 0x5412 := by
  cases l with
  | low => decide
  | medium => decide
  | quartile => decide
  | high => decide

/-- Settles O56: the words of both tables, one by one. -/
theorem versionAndFormatWordsAreBchWords : Obligations.VersionAndFormatWordsAreBchWords :=
  ⟨fun v hv hv' => versionInfo_bch v (Nat.lt_succ_of_le hv') hv, formatInfo_bch⟩

end Sys2Proof.Proofs.BchWords
end

