-- ==== Sys2Proof/Proofs/DataPlacement.lean ====
section
/-! SUPPORT. Phase D (44_matrix R220–R223): ORDER follows the scan, lane after lane and in a lane row after row, and its
cell at position idx gets bit idx. With the function patterns this sets every cell of the grid (R229). -/

namespace Sys2Proof.Proofs.DataPlacement

open Sys2Proof Sys2Proof.Machine Sys2Proof.Proofs.FunctionCells Sys2Proof.Proofs.DataCells Sys2Proof.Proofs.FinishedGrid

/-! ## The order of the scan -/

section
variable {side right lane : Nat} {xs : List (Nat × Nat)}

/-- Where the scan meets the right cell of row r in a lane (R220). -/
def rowPosition (side lane r : Nat) : Nat := lane * (2 * side) + 2 * (if lane % 2 = 0 then side - 1 - r else r)

/-- The columns `right` and `right − 1` are those of a lane of the scan. -/
def IsLane (side right lane : Nat) : Prop :=
  ∀ r, scanPosition side (r, right) = rowPosition side lane r + 0
    ∧ scanPosition side (r, right - 1) = rowPosition side lane r + 1

/-- The even lanes run upward (R220). -/
def runsUpward (lane : Nat) : Bool := lane % 2 = 0

theorem runsUpward_succ (lane : Nat) : runsUpward (lane + 1) = !runsUpward lane := by
  rw [runsUpward, runsUpward, ← decide_not, decide_eq_decide]
  omega

/-- The position of a cell, from its lane and its column's place in the lane. -/
theorem scanPosition_eq {c b : Nat} (hlane : laneOf side c = lane) (hb : (if 6 < c then c % 2 else 1 - c % 2) = b)
    (r : Nat) : scanPosition side (r, c) = rowPosition side lane r + b := by
  rw [scanPosition, hlane, hb, rowPosition]

/-- Past column 6 the right column of a lane is even. -/
theorem isLane_even (n lane : Nat) : IsLane (2 * (n + 1 + lane) + 7) (2 * (n + 1) + 6) lane := by
  refine fun r => ⟨scanPosition_eq ?_ ?_ r, scanPosition_eq ?_ ?_ r⟩
  · rw [laneOf, if_pos (by omega)]; omega
  · rw [if_pos (by omega)]; omega
  · rw [laneOf, if_pos (by omega)]; omega
  · rw [if_pos (by omega)]; omega

/-- Before column 6 it is odd. -/
theorem isLane_odd {k : Nat} (hk : k ≤ 2) (lane : Nat) : IsLane (2 * (lane + 1 + k) + 1) (2 * k + 1) lane := by
  refine fun r => ⟨scanPosition_eq ?_ ?_ r, scanPosition_eq ?_ ?_ r⟩
  · rw [laneOf, if_neg (by omega)]; omega
  · rw [if_neg (by omega)]; omega
  · rw [laneOf, if_neg (by omega)]; omega
  · rw [if_neg (by omega)]; omega

theorem rowPosition_bounds {r : Nat} (hr : r < side) :
    lane * (2 * side) ≤ rowPosition side lane r ∧ rowPosition side lane r + 1 < (lane + 1) * (2 * side) := by
  rw [rowPosition, Nat.succ_mul lane]
  split <;> omega

theorem isLane_bounds (h : IsLane side right lane) {upward : Bool} {p : Nat × Nat}
    (hp : p ∈ laneCells side right upward) :
    lane * (2 * side) ≤ scanPosition side p ∧ scanPosition side p < (lane + 1) * (2 * side) := by
  obtain ⟨r, c⟩ := p
  obtain ⟨hr, hc⟩ := (mem_laneCells side right r c upward).1 hp
  obtain ⟨hright, hleft⟩ := h r
  obtain ⟨hlow, hhigh⟩ := rowPosition_bounds (lane := lane) hr
  obtain rfl | rfl := hc
  · rw [hright]
    exact ⟨hlow, Nat.lt_of_succ_lt hhigh⟩
  · rw [hleft]
    exact ⟨Nat.le_succ_of_le hlow, hhigh⟩

/-- The rows of a lane in the lane's direction. -/
theorem pairwise_laneRows (side lane : Nat) : (laneRows side (runsUpward lane)).Pairwise fun r r' =>
    rowPosition side lane r + 1 < rowPosition side lane r' := by
  by_cases hup : lane % 2 = 0
  · rw [runsUpward, decide_eq_true hup, laneRows, if_pos rfl, List.pairwise_reverse]
    refine (List.pairwise_lt_range (n := side)).imp_of_mem fun _ hr' hlt => ?_
    have hside := List.mem_range.1 hr'
    rw [rowPosition, rowPosition, if_pos hup, if_pos hup]
    omega
  · rw [runsUpward, decide_eq_false hup, laneRows, if_neg (by decide)]
    refine (List.pairwise_lt_range (n := side)).imp fun hlt => ?_
    rw [rowPosition, rowPosition, if_neg hup, if_neg hup]
    omega

theorem pairwise_laneCells (h : IsLane side right lane) : (laneCells side right (runsUpward lane)).Pairwise fun p q =>
    scanPosition side p < scanPosition side q := by
  refine List.pairwise_flatMap.2 ⟨fun r _ => List.pairwise_pair.2 ?_, (pairwise_laneRows side lane).imp ?_⟩
  · rw [(h r).1, (h r).2]
    exact Nat.lt_succ_self _
  · intro r r' hlt
    obtain ⟨hr, hl⟩ := h r
    obtain ⟨hr', hl'⟩ := h r'
    simp only [List.mem_cons, List.not_mem_nil, or_false, forall_eq_or_imp, forall_eq, hr, hl, hr', hl']
    omega

/-- The cells are in the order of the scan, and lie in no lane before `lane`. -/
def InScanOrder (side lane : Nat) (xs : List (Nat × Nat)) : Prop :=
  xs.Pairwise (fun p q => scanPosition side p < scanPosition side q) ∧ ∀ p ∈ xs, lane * (2 * side) ≤ scanPosition side p

theorem inScanOrder_nil : InScanOrder side lane [] := ⟨List.Pairwise.nil, List.forall_mem_nil _⟩

theorem inScanOrder_append (h : IsLane side right lane) (hxs : InScanOrder side (lane + 1) xs) :
    InScanOrder side lane (laneCells side right (runsUpward lane) ++ xs) := by
  obtain ⟨hsorted, hfrom⟩ := hxs
  refine ⟨List.pairwise_append.2 ⟨pairwise_laneCells h, hsorted, fun p hp q hq => ?_⟩, fun p hp => ?_⟩
  · exact Nat.lt_of_lt_of_le (isLane_bounds h hp).2 (hfrom q hq)
  · obtain hp | hp := List.mem_append.1 hp
    · exact (isLane_bounds h hp).1
    · exact Nat.le_trans (Nat.mul_le_mul_right _ (Nat.le_succ lane)) (hfrom p hp)

theorem inScanOrder_scanFrom (n lane fuel : Nat) : InScanOrder (2 * (n + lane) + 7) lane
    (scanFrom (2 * (n + lane) + 7) (n + (fuel + 3)) (2 * n + 6) (runsUpward lane)) := by
  induction n generalizing lane with
  | zero =>
    rw [Nat.zero_add, Nat.zero_add, scanFrom_six, ← runsUpward_succ, ← runsUpward_succ,
      ← List.append_nil (laneCells _ 1 _)]
    exact inScanOrder_append (isLane_odd (k := 2) (by decide) lane) <|
      inScanOrder_append (isLane_odd (k := 1) (by decide) (lane + 1)) <|
      inScanOrder_append (isLane_odd (k := 0) (by decide) (lane + 2)) inScanOrder_nil
  | succ n ih =>
    rw [scanFrom_even, ← runsUpward_succ]
    refine inScanOrder_append (isLane_even n lane) ?_
    rw [Nat.succ_add_eq_add_succ]
    exact ih (lane + 1)

theorem pairwise_scan (v : Nat) : (scan (sideOf v)).Pairwise fun p q =>
    scanPosition (sideOf v) p < scanPosition (sideOf v) q := by
  have hside : sideOf v = 2 * (2 * v + 5 + 0) + 7 := by rw [sideOf]; omega
  rw [scan_sideOf, hside]
  exact (inScanOrder_scanFrom (2 * v + 5) 0 (2 * v + 9)).1

end

/-! ## The cells of ORDER -/

section
variable {v r c : Nat}

theorem mem_order_iff (hv : 1 ≤ v) (hv' : v ≤ 40) (l : Level) (m : Nat) : (r, c) ∈ dataOrder (functionGrid v l m)
    ↔ r < sideOf v ∧ c < sideOf v ∧ (functionGrid v l m).get r c = unsetCell := by
  rw [mem_dataOrder, functionGrid_side, mem_scan]
  constructor
  · rintro ⟨⟨⟨-, hc⟩, hr⟩, hunset⟩
    exact ⟨hr, hc, hunset⟩
  · rintro ⟨hr, hc, hunset⟩
    exact ⟨⟨⟨((get_functionGrid_eq_unset_iff hv hv' l m hr hc).1 hunset).1.2, hc⟩, hr⟩, hunset⟩

theorem mem_phaseD {m : Nat} {stream : List Byte} {order : List (Nat × Nat)} {w : CellWrite} :
    w ∈ phaseD v m stream order ↔ ∃ idx, ∃ h : idx < order.length,
      (order[idx].1, order[idx].2, cellOf (dataBit v stream idx ^^ maskPred m order[idx].1 order[idx].2)) = w := by
  simp only [phaseD, List.mem_map, Prod.exists, List.mem_zipIdx_iff_getElem?, List.getElem?_eq_some_iff]
  constructor
  · rintro ⟨r, c, idx, ⟨h, hrc⟩, rfl⟩
    exact ⟨idx, h, by rw [hrc]⟩
  · rintro ⟨idx, h, rfl⟩
    exact ⟨_, _, idx, ⟨h, rfl⟩, rfl⟩

theorem names_phaseD {m : Nat} {stream : List Byte} {order : List (Nat × Nat)} (h : (r, c) ∈ order) :
    Names (phaseD v m stream order) r c := by
  obtain ⟨idx, hidx, hrc⟩ := List.getElem_of_mem h
  exact ⟨_, mem_phaseD.2 ⟨idx, hidx, rfl⟩, by rw [hrc], by rw [hrc]⟩

/-- The cell at position idx gets bit idx: no other bit goes there (R222). -/
theorem get_apply_phaseD {g : Grid} (hs : g.cells.size = g.side * g.side) {order : List (Nat × Nat)}
    (hnodup : order.Nodup) (hin : ∀ p ∈ order, p.1 < g.side ∧ p.2 < g.side) (m : Nat) (stream : List Byte) {idx : Nat}
    (h : idx < order.length) : (g.apply (phaseD v m stream order)).get order[idx].1 order[idx].2
      = cellOf (dataBit v stream idx ^^ maskPred m order[idx].1 order[idx].2) := by
  obtain ⟨hr, hc⟩ := hin order[idx] (List.getElem_mem h)
  have hwrites : Writes (phaseD v m stream order) order[idx].1 order[idx].2
      (cellOf (dataBit v stream idx ^^ maskPred m order[idx].1 order[idx].2)) := by
    intro w hw hwr hwc
    obtain ⟨k, hk, rfl⟩ := mem_phaseD.1 hw
    have hcell : order[k]? = order[idx]? := by
      rw [List.getElem?_eq_getElem hk, List.getElem?_eq_getElem h]
      exact congrArg some (Prod.ext hwr hwc)
    obtain rfl : k = idx := (List.getElem?_inj hk hnodup).1 hcell
    rfl
  exact get_apply_of_writes (P := fun x => x = _) hs hr hc hwrites (.inr (names_phaseD (List.getElem_mem h)))

/-- R221's eight predicates. -/
theorem maskPred_iff {m : Nat} (hm : m < 8) (r c : Nat) : maskPred m r c = true ↔
    (m = 0 ∧ (r + c) % 2 = 0) ∨ (m = 1 ∧ r % 2 = 0) ∨ (m = 2 ∧ c % 3 = 0) ∨ (m = 3 ∧ (r + c) % 3 = 0)
      ∨ (m = 4 ∧ (r / 2 + c / 3) % 2 = 0) ∨ (m = 5 ∧ (r * c) % 2 + (r * c) % 3 = 0)
      ∨ (m = 6 ∧ ((r * c) % 2 + (r * c) % 3) % 2 = 0) ∨ (m = 7 ∧ ((r + c) % 2 + (r * c) % 3) % 2 = 0) := by
  match m, hm with
  | 0, _ | 1, _ | 2, _ | 3, _ | 4, _ | 5, _ | 6, _ | 7, _ => simp [maskPred]

end

/-- Settles O54: ORDER is the scan without the set cells, phase D goes through it bit by bit, and the mask is R221's. -/
theorem dataCellsHoldTheMaskedStream : Obligations.DataCellsHoldTheMaskedStream := by
  intro v l m stream hv hv' hm
  refine ⟨fun r c => mem_order_iff hv hv' l m, fun r c hrc => ?_, nodup_dataOrder_functionGrid v l m, ?_,
    fun idx h => ?_⟩
  · obtain ⟨hr, hc, hunset⟩ := (mem_order_iff hv hv' l m).1 hrc
    exact ((get_functionGrid_eq_unset_iff hv hv' l m hr hc).1 hunset).1.2
  · rw [dataOrder, functionGrid_side]
    exact (pairwise_scan v).filter _
  · have hin : ∀ p ∈ dataOrder (functionGrid v l m),
        p.1 < (functionGrid v l m).side ∧ p.2 < (functionGrid v l m).side := by
      intro p hp
      obtain ⟨hr, hc, -⟩ := (mem_order_iff hv hv' l m).1 hp
      rw [functionGrid_side]
      exact ⟨hr, hc⟩
    refine (get_apply_phaseD (functionGrid_size_eq v l m) (nodup_dataOrder_functionGrid v l m) hin m stream h).trans ?_
    exact congrArg (fun b => cellOf (dataBit v stream idx ^^ b))
      (Bool.eq_iff_iff.2 ((maskPred_iff hm _ _).trans decide_eq_true_iff.symm))

/-! ## BUILD_MATRIX -/

/-- Black or white, not unset. -/
def Binary (x : Byte) : Prop := x = 0 ∨ x = 1

theorem binary_cellOf (b : Bool) : Binary (cellOf b) := by
  cases b with
  | false => exact .inl rfl
  | true => exact .inr rfl

theorem binary_functionWrites (v : Nat) (l : Level) (m : Nat) : ∀ w ∈ functionWrites v l m, Binary w.2.2 := by
  have hwhite : Binary 0 := .inl rfl
  have hblack : Binary 1 := .inr rfl
  have hB : ∀ w ∈ (if 7 ≤ v then phaseB v else []), Binary w.2.2 := by
    intro w hw
    obtain ⟨i, -, hw⟩ := List.mem_flatMap.1 (List.mem_ite_nil_right.1 hw).2
    simp only [List.mem_cons, List.not_mem_nil, or_false] at hw
    obtain rfl | rfl := hw
    · exact binary_cellOf _
    · exact binary_cellOf _
  simp only [functionWrites, phaseA, phaseC, finders, finder, separators, darkModule, alignmentPatterns,
    alignmentPattern, timing, List.forall_mem_append, List.forall_mem_flatMap, List.forall_mem_map,
    List.forall_mem_cons, List.not_mem_nil, false_implies, binary_cellOf, hwhite, hblack, implies_true, and_self,
    true_and, and_true]
  exact hB

/-- Phases A to C set every cell that is not in ORDER, and phase D those of ORDER (R229). -/
theorem binary_get_buildGrid {v r c : Nat} (hv : 1 ≤ v) (hv' : v ≤ 40) (l : Level) (m : Nat) (stream : List Byte)
    (hr : r < sideOf v) (hc : c < sideOf v) : Binary ((buildGrid v l m stream).get r c) := by
  have hbits : ∀ w ∈ phaseD v m stream (dataOrder (functionGrid v l m)), Binary w.2.2 := by
    intro w hw
    obtain ⟨idx, h, rfl⟩ := mem_phaseD.1 hw
    exact binary_cellOf _
  refine get_apply_of_writes (functionGrid_size_eq v l m) (by rwa [functionGrid_side]) (by rwa [functionGrid_side])
    (fun w hw _ _ => hbits w hw) ?_
  by_cases hunset : (functionGrid v l m).get r c = unsetCell
  · exact .inr (names_phaseD ((mem_order_iff hv hv' l m).2 ⟨hr, hc, hunset⟩))
  · have hnames : Names (functionWrites v l m) r c := by
      rw [names_functionWrites hv hv' l m]
      rw [get_functionGrid_eq_unset_iff hv hv' l m hr hc] at hunset
      exact ⟨⟨hr, hc⟩, eq_six_or_eq_six_or fun h6 => Classical.byContradiction fun hpattern => hunset ⟨h6, hpattern⟩⟩
    exact .inl (get_apply_of_writes (Grid.blank_size _) hr hc (fun w hw _ _ => binary_functionWrites v l m w hw)
      (.inr hnames))

/-- In the row of the grid's cells a cell stands at its row-major position. -/
theorem cells_getD_eq_get {g : Grid} {side r c : Nat} (hside : g.side = side) (h : r * side + c < g.cells.size) :
    g.cells.toList.getD (r * side + c) 0 = g.get r c := by
  rw [Grid.get, hside, Array.getD_eq_getD_getElem?, List.getD_eq_getElem?_getD, Array.getElem?_toList,
    Array.getElem?_eq_getElem h, Option.getD_some, Option.getD_some]

/-- Settles O49: GRID gets the grid's cells in a row, and every one of them is set. -/
theorem buildMatrixGivesABinaryGrid : Obligations.BuildMatrixGivesABinaryGrid := by
  intro v l m s stream hv hv' _ hstreamLen hlen hread
  have hstream : s.mem.readBlock Buffer.stream.base (totalCodewords v) = some stream :=
    (Memory.readBlock_eq_some_iff _ _ _ _).2 ⟨hlen, hread⟩
  have hsize : (buildGrid v l m stream).cells.size = sideOf v * sideOf v := buildGrid_size v l m stream
  refine ⟨_, BuildMatrix.execBuildMatrix_eq l m hv hv' hstreamLen hstream, rfl, fun r hr c hc => ⟨?_, ?_⟩,
    fun x hx => ?_⟩
  · refine (BuildMatrix.read_writeGrid_inside _ s (hsize ▸ position_lt hr hc)).trans (congrArg some ?_)
    exact cells_getD_eq_get (buildGrid_side v l m stream) (hsize ▸ position_lt hr hc)
  · exact binary_get_buildGrid hv hv' l m stream hr hc
  · exact State.read_writeGrid_outside _ s x (hsize ▸ Commands.cells_le_grid hv') hx

end Sys2Proof.Proofs.DataPlacement
end
